-- ==== Sys2Proof/Word.lean ====
section
/-! DEFINITION. The word types of the block (`00_scope.md` R10: every value is unsigned; `20_memory.md` R60: 16-bit addresses, 8-bit bytes; `30_encoding.md` R100: the 32-bit command word). -/

namespace Sys2Proof

/-- One byte of a store (`20_memory.md` R60). -/
abbrev Byte := BitVec 8

/-- A 16-bit address, program counter or stack pointer (`20_memory.md` R60, `10_state.md` R27, R28). -/
abbrev Addr := BitVec 16

/-- A command word (`30_encoding.md` R100). -/
abbrev Cmd := BitVec 32

/-- `10_state.md` R33: the code-ROM length register is 17 bits, so that it can hold 65536. -/
abbrev RomLen := BitVec 17

end Sys2Proof
end

