-- ==== Sys2Proof/Config.lean ====
section
/-! DEFINITION. The configuration record of `00_scope.md` R6 with its lengths, the spec's small profile, and the free values: what the spec leaves open, as constants without a body. -/

namespace Sys2Proof

/-- The two processors (`30_encoding.md` R103). -/
inductive Proc
  | cpu
  | ppu
  deriving DecidableEq, Repr

/-- The sections of the beam and the sentinel NONE (`10_state.md` R21, `30_encoding.md` R104). -/
inductive BeamSection
  | none
  | display
  | hblank
  | vblank
  deriving DecidableEq, Repr

/-- The access class of a region (`20_memory.md` R61) and the `kind` of a memory-map entry (R64). -/
inductive MemClass
  | ram
  | rom
  deriving DecidableEq, Repr

/-- An interrupt action of the profile lists (`30_encoding.md` R107). -/
inductive IntAction
  | nmi (p : Proc)
  | int (p : Proc) (vec : Byte)
  deriving DecidableEq, Repr

/-- Which DISPLAY entries fire `EDGE_DISPLAY` (`41_interrupt_scheduler.md` R174). -/
inductive DisplayScope
  | everyEntry
  | frameStartOnly
  deriving DecidableEq, Repr

/-- `PPB`: pixels per byte in the definition ROM and the framebuffer (`20_memory.md` R74, R75). -/
inductive PixelPacking
  | onePerByte
  | twoPerByte
  deriving DecidableEq, Repr

/-- The number `PPB` stands for. -/
def PixelPacking.count : PixelPacking → Nat
  | .onePerByte => 1
  | .twoPerByte => 2

/-- One entry `(start, end, kind)` of the main-CPU memory map; `last` is inclusive (`20_memory.md` R64, R65). -/
structure MapEntry where
  first : Nat
  last : Nat
  kind : MemClass
  deriving DecidableEq, Repr

/-- The configuration record of `00_scope.md` R6, one field per row of its table. `BEAM_STEPS_PER_TICK` is the constant 2 of the hardware and no field. -/
structure Config where
  w : Nat
  wTotal : Nat
  h : Nat
  hTotal : Nat
  edgeHblank : List IntAction
  edgeDisplay : List IntAction
  edgeVblank : List IntAction
  displayScope : DisplayScope
  sinkPixel : Bool
  sinkFrame : Bool
  ppuTableBase : Nat
  ppuDefBase : Nat
  ppuPixelBase : Nat
  cpuMap : List MapEntry
  mapMax : Nat
  cpuSharedBase : Addr
  romWriteStores : Bool
  spriteTableOff : Nat
  animTableOff : Nat
  gridW : Nat
  gridH : Nat
  animGated : Bool
  ppb : PixelPacking
  fbTx : Nat
  fbTy : Nat
  sx : Nat
  sy : Nat
  clip : Bool
  shadowCap : Nat
  traceCap : Nat
  spLowCpu : Addr
  spLowPpu : Addr
  deriving DecidableEq, Repr

/-- TABLE_LEN of `20_memory.md` R62. -/
def Config.tableLen (c : Config) : Nat := c.ppuDefBase - c.ppuTableBase

/-- DEF_LEN of `20_memory.md` R62. -/
def Config.defLen (c : Config) : Nat := c.ppuPixelBase - c.ppuDefBase

/-- PIXEL_LEN of `20_memory.md` R62. -/
def Config.pixelLen (c : Config) : Nat := 0x10000 - c.ppuPixelBase

/-- ANIMDEF_SIZE of `20_memory.md` R72. -/
def Config.animDefSize (c : Config) : Nat := if c.animGated then 4 else 2

/-- N, the number of sprite entries (`20_memory.md` R72). -/
def Config.slots (c : Config) : Nat := c.gridW * c.gridH

/-- `SP_LOW[p]`. -/
def Config.spLow (c : Config) : Proc → Addr
  | .cpu => c.spLowCpu
  | .ppu => c.spLowPpu

/-- P, the frame period in beam-steps (`40_beam_timer.md` R142). -/
def Config.framePeriod (c : Config) : Nat :=
  c.h * (c.wTotal + 2) + (c.hTotal - c.h) * (c.wTotal + 1)

/-- `PROFILE_REF` of `95_test_vectors.md` section 2. DESIGN CHOICE (log 1): the profile of the reset state; statements quantify over every configuration. -/
def Config.profileRef : Config where
  w := 2
  wTotal := 4
  h := 2
  hTotal := 3
  edgeHblank := [.int .ppu 0]
  edgeDisplay := [.nmi .ppu]
  edgeVblank := []
  displayScope := .everyEntry
  sinkPixel := true
  sinkFrame := true
  ppuTableBase := 0x4000
  ppuDefBase := 0x8000
  ppuPixelBase := 0xC000
  cpuMap := [⟨0x0000, 0x3FFF, .rom⟩, ⟨0x8000, 0xBFFF, .ram⟩]
  mapMax := 8
  cpuSharedBase := 0xC000
  romWriteStores := true
  spriteTableOff := 0x0000
  animTableOff := 0x0200
  gridW := 2
  gridH := 2
  animGated := false
  ppb := .onePerByte
  fbTx := 3
  fbTy := 3
  sx := 1
  sy := 1
  clip := false
  shadowCap := 8
  traceCap := 4
  spLowCpu := 0xBF00
  spLowPpu := 0x7F00

/-- FREE VALUE (log 6; `93_implementation_defined.md` U2): the byte of a RAM-class store that nothing has written since the reset numbered `epoch`, at a memory key (`Loc.key`). -/
opaque Config.powerOnByte (epoch key : Nat) : Byte

/-- FREE VALUE (log 7; `93_implementation_defined.md` U3): the byte the `n`-th draw of a free value answers to a main-CPU read that resolves to UNMAPPED. -/
opaque Config.unmappedByte (n : Nat) (a : Addr) : Byte

/-- FREE VALUE (log 8): byte `i` of a ROM image of which the environment supplied fewer bytes than LOADROM's count. -/
opaque Config.absentImageByte (n i : Nat) : Byte

end Sys2Proof
end

