-- ==== Sys2Proof/Syntax.lean ====
section
/-! DEFINITION. The operations of the block and the processor opcodes it inspects: one constructor per row of spec/opcode_table.json (`30_encoding.md` R101, R120). -/

namespace Sys2Proof

/-- The register pair of PUSH qq and POP qq, field `b0[5:4]` (`30_encoding.md` R120). -/
inductive RegPair
  | bc
  | de
  | hl
  | af
  deriving DecidableEq, Repr

/-- One constructor per row of the opcode table. The first 17 are the operations of `30_encoding.md` R101; `p`, `s`, `r`, `a`, `d`, `n` are its operands. The last 8 are the opcodes OBSERVE recognises (R120): they stand for that opcode found at the program counter of processor `p` (log 17). -/
inductive Instr
  | reset
  | tick
  | bstep
  | edgechk
  | waitset (s : BeamSection)
  | resume
  | observe (p : Proc)
  | spchk (p : Proc)
  | tracedump (p : Proc)
  | render
  | prdP (a : Addr)
  | pwrP (a : Addr) (d : Byte)
  | prdE (a : Addr)
  | pwrE (a : Addr) (d : Byte)
  | crd (a : Addr)
  | cwr (a : Addr) (d : Byte)
  | loadrom (r : BitVec 3) (n : BitVec 16)
  | z80PushQq (p : Proc) (qq : RegPair)
  | z80PushIx (p : Proc)
  | z80PushIy (p : Proc)
  | z80PopQq (p : Proc) (qq : RegPair)
  | z80PopIx (p : Proc)
  | z80PopIy (p : Proc)
  | z80Reti (p : Proc)
  | z80Retn (p : Proc)
  deriving DecidableEq, Repr

end Sys2Proof
end

