-- ==== Sys2Proof/Decode.lean ====
section
/-! DEFINITION. Decoding and encoding: the command word (`30_encoding.md` R100 to R106, R122) and the inspected opcode pair (R120, R121). -/

namespace Sys2Proof

/-- A command selector not listed in `30_encoding.md` R101 (R122 a). -/
structure ReservedSelector where
  sel : Byte
  deriving DecidableEq, Repr

/-- An opcode pair of class OTHER, which has no row (`30_encoding.md` R120, R122 f). -/
structure OtherOpcode where
  b0 : Byte
  b1 : Byte
  deriving DecidableEq, Repr

/-- Why a code is no row of the opcode table. -/
inductive DecodeError
  | reservedSelector (e : ReservedSelector)
  | otherOpcode (e : OtherOpcode)
  deriving DecidableEq, Repr

/-- What an instruction is encoded in: a command word on the port, or the opcode pair at the program counter of a processor. -/
inductive Code
  | cmd (w : Cmd)
  | sniff (p : Proc) (b0 b1 : Byte)
  deriving DecidableEq, Repr

/-! ### Code values -/

/-- `30_encoding.md` R103. -/
def Proc.bit : Proc → BitVec 1
  | .cpu => 0
  | .ppu => 1

/-- `30_encoding.md` R103. -/
def Proc.ofBit (b : BitVec 1) : Proc := if b = 1 then .ppu else .cpu

/-- `30_encoding.md` R104. -/
def BeamSection.code : BeamSection → BitVec 2
  | .none => 0
  | .display => 1
  | .hblank => 2
  | .vblank => 3

/-- `30_encoding.md` R104. -/
def BeamSection.ofCode (b : BitVec 2) : BeamSection :=
  if b = 0 then .none else if b = 1 then .display else if b = 2 then .hblank else .vblank

/-- The field `b0[5:4]` of PUSH qq and POP qq (`30_encoding.md` R120: BC, DE, HL, AF in this order). -/
def RegPair.code : RegPair → BitVec 2
  | .bc => 0
  | .de => 1
  | .hl => 2
  | .af => 3

/-- The register pair of the field `b0[5:4]`. -/
def RegPair.ofCode (b : BitVec 2) : RegPair :=
  if b = 0 then .bc else if b = 1 then .de else if b = 2 then .hl else .af

/-! ### The command word -/

/-- `cmd[31:24]`. -/
def cmdSel (w : Cmd) : Byte := w.extractLsb' 24 8

/-- `cmd[23:8]`. -/
def cmdA (w : Cmd) : BitVec 16 := w.extractLsb' 8 16

/-- `cmd[7:0]`. -/
def cmdD (w : Cmd) : Byte := w.extractLsb' 0 8

/-- `p = d[0]`; the bits `d[7:1]` are ignored (`30_encoding.md` R102). -/
def cmdP (w : Cmd) : Proc := Proc.ofBit ((cmdD w).extractLsb' 0 1)

/-- `s = d[1:0]`. -/
def cmdS (w : Cmd) : BeamSection := BeamSection.ofCode ((cmdD w).extractLsb' 0 2)

/-- `r = d[2:0]`. -/
def cmdR (w : Cmd) : BitVec 3 := (cmdD w).extractLsb' 0 3

/-- The operation of a command word (`30_encoding.md` R101); operand fields an operation does not use are ignored (R100). -/
def decodeCmd (w : Cmd) : Except ReservedSelector Instr :=
  let sel := cmdSel w
  if sel = 0x00 then .ok .reset
  else if sel = 0x01 then .ok .tick
  else if sel = 0x02 then .ok .bstep
  else if sel = 0x03 then .ok .edgechk
  else if sel = 0x04 then .ok (.waitset (cmdS w))
  else if sel = 0x05 then .ok .resume
  else if sel = 0x06 then .ok (.observe (cmdP w))
  else if sel = 0x07 then .ok (.spchk (cmdP w))
  else if sel = 0x08 then .ok (.tracedump (cmdP w))
  else if sel = 0x09 then .ok .render
  else if sel = 0x10 then .ok (.prdP (cmdA w))
  else if sel = 0x11 then .ok (.pwrP (cmdA w) (cmdD w))
  else if sel = 0x12 then .ok (.prdE (cmdA w))
  else if sel = 0x13 then .ok (.pwrE (cmdA w) (cmdD w))
  else if sel = 0x14 then .ok (.crd (cmdA w))
  else if sel = 0x15 then .ok (.cwr (cmdA w) (cmdD w))
  else if sel = 0x20 then .ok (.loadrom (cmdR w) (cmdA w))
  else .error ⟨sel⟩

/-! ### The inspected opcode pair -/

/-- The row of `30_encoding.md` R120 that the opcode pair at the program counter of `p` matches; the second byte counts only after a prefix (R121). -/
def decodeSniff (p : Proc) (b0 b1 : Byte) : Except OtherOpcode Instr :=
  if b0 &&& 0xCF = 0xC5 then .ok (.z80PushQq p (RegPair.ofCode (b0.extractLsb' 4 2)))
  else if b0 &&& 0xCF = 0xC1 then .ok (.z80PopQq p (RegPair.ofCode (b0.extractLsb' 4 2)))
  else if b0 = 0xDD ∧ b1 = 0xE5 then .ok (.z80PushIx p)
  else if b0 = 0xFD ∧ b1 = 0xE5 then .ok (.z80PushIy p)
  else if b0 = 0xDD ∧ b1 = 0xE1 then .ok (.z80PopIx p)
  else if b0 = 0xFD ∧ b1 = 0xE1 then .ok (.z80PopIy p)
  else if b0 = 0xED ∧ b1 = 0x4D then .ok (.z80Reti p)
  else if b0 = 0xED ∧ b1 = 0x45 then .ok (.z80Retn p)
  else .error ⟨b0, b1⟩

/-- The decoder, total on every code. -/
def decode : Code → Except DecodeError Instr
  | .cmd w =>
    match decodeCmd w with
    | .ok i => .ok i
    | .error e => .error (.reservedSelector e)
  | .sniff p b0 b1 =>
    match decodeSniff p b0 b1 with
    | .ok i => .ok i
    | .error e => .error (.otherOpcode e)

/-- The decoder on a word numbered as spec/opcode_table.json numbers it: the rows of format SNIFF16 have 16 bits with `b0` in bits 15:8 and are read as an opcode of the PPU (log 17), the rows of format CMD32 have 32. -/
def decodeTableWord (nbits w : Nat) : Option Instr :=
  let code :=
    if nbits ≤ 16 then Code.sniff .ppu (BitVec.ofNat 8 (w / 256)) (BitVec.ofNat 8 w)
    else Code.cmd (BitVec.ofNat 32 w)
  match decode code with
  | .ok i => some i
  | .error _ => none

/-! ### The encoder -/

/-- `sel[31:24] a[23:8] d[7:0]` (`30_encoding.md` R100). -/
def mkCmd (sel : Byte) (a : BitVec 16) (d : Byte) : Cmd := sel ++ a ++ d

/-- The code of an instruction: `30_encoding.md` R101 for an operation (unused operand fields are written as zero, R100), R120 for an inspected opcode (the byte after PUSH qq and POP qq is any; zero here). -/
def encode : Instr → Code
  | .reset => .cmd (mkCmd 0x00 0 0)
  | .tick => .cmd (mkCmd 0x01 0 0)
  | .bstep => .cmd (mkCmd 0x02 0 0)
  | .edgechk => .cmd (mkCmd 0x03 0 0)
  | .waitset s => .cmd (mkCmd 0x04 0 (s.code.zeroExtend 8))
  | .resume => .cmd (mkCmd 0x05 0 0)
  | .observe p => .cmd (mkCmd 0x06 0 (p.bit.zeroExtend 8))
  | .spchk p => .cmd (mkCmd 0x07 0 (p.bit.zeroExtend 8))
  | .tracedump p => .cmd (mkCmd 0x08 0 (p.bit.zeroExtend 8))
  | .render => .cmd (mkCmd 0x09 0 0)
  | .prdP a => .cmd (mkCmd 0x10 a 0)
  | .pwrP a d => .cmd (mkCmd 0x11 a d)
  | .prdE a => .cmd (mkCmd 0x12 a 0)
  | .pwrE a d => .cmd (mkCmd 0x13 a d)
  | .crd a => .cmd (mkCmd 0x14 a 0)
  | .cwr a d => .cmd (mkCmd 0x15 a d)
  | .loadrom r n => .cmd (mkCmd 0x20 n (r.zeroExtend 8))
  | .z80PushQq p qq => .sniff p ((0b11#2 ++ qq.code) ++ 0x5#4) 0
  | .z80PushIx p => .sniff p 0xDD 0xE5
  | .z80PushIy p => .sniff p 0xFD 0xE5
  | .z80PopQq p qq => .sniff p ((0b11#2 ++ qq.code) ++ 0x1#4) 0
  | .z80PopIx p => .sniff p 0xDD 0xE1
  | .z80PopIy p => .sniff p 0xFD 0xE1
  | .z80Reti p => .sniff p 0xED 0x4D
  | .z80Retn p => .sniff p 0xED 0x45

end Sys2Proof
end

