-- ==== Sys2Proof/Machine/Address.lean ====
section
/-! DEFINITION. The stores, the two address decoders and the table and pixel addressing of `20_memory.md` R61 to R75. -/

namespace Sys2Proof.Machine

/-- The backing stores (`10_state.md` R30); `k` counts the entries of CPU_MAP in ascending start order (`20_memory.md` R65). -/
inductive Store
  | codeRom
  | tableRam
  | defRom
  | pixelRam
  | cpuRegion (k : Nat)
  deriving DecidableEq, Repr

/-- One byte of a store. -/
structure Loc where
  store : Store
  off : Nat
  deriving DecidableEq, Repr

/-- The number a store has in a memory key (log 16). -/
def Store.index : Store → Nat
  | .codeRom => 0
  | .tableRam => 1
  | .defRom => 2
  | .pixelRam => 3
  | .cpuRegion k => k + 4

/-- The store of a number (log 16). -/
def Store.ofIndex : Nat → Store
  | 0 => .codeRom
  | 1 => .tableRam
  | 2 => .defRom
  | 3 => .pixelRam
  | k + 4 => .cpuRegion k

/-- The address of a byte in the one memory list: no store is longer than 65536 bytes (log 16). -/
def Loc.key (l : Loc) : Nat := l.store.index * 65536 + l.off

/-- Insertion of an entry into a list sorted by ascending start. -/
def insertByStart (e : MapEntry) : List MapEntry → List MapEntry
  | [] => [e]
  | f :: fs => if e.first ≤ f.first then e :: f :: fs else f :: insertByStart e fs

/-- CPU_MAP sorted by ascending start (`20_memory.md` R65, log 20). -/
def cpuRegions (c : Config) : List MapEntry := c.cpuMap.foldr insertByStart []

/-- The access class of a store (`20_memory.md` R62, R65). -/
def Store.memClass (c : Config) : Store → MemClass
  | .codeRom => .rom
  | .tableRam => .ram
  | .defRom => .rom
  | .pixelRam => .ram
  | .cpuRegion k => ((cpuRegions c)[k]?.map MapEntry.kind).getD .ram

/-- The length of a store (`10_state.md` R20). -/
def Store.length (c : Config) : Store → Nat
  | .codeRom => c.ppuTableBase
  | .tableRam => c.tableLen
  | .defRom => c.defLen
  | .pixelRam => c.pixelLen
  | .cpuRegion k => ((cpuRegions c)[k]?.map fun e => e.last - e.first + 1).getD 0

/-- `resolvePPU` of `20_memory.md` R63: total, never UNMAPPED. -/
def resolvePpu (c : Config) (a : Addr) : Loc :=
  if a.toNat < c.ppuTableBase then ⟨.codeRom, a.toNat⟩
  else if a.toNat < c.ppuDefBase then ⟨.tableRam, a.toNat - c.ppuTableBase⟩
  else if a.toNat < c.ppuPixelBase then ⟨.defRom, a.toNat - c.ppuDefBase⟩
  else ⟨.pixelRam, a.toNat - c.ppuPixelBase⟩

/-- The first of the listed regions that contains `a`, the list starting at region `k` (`20_memory.md` R65). -/
def findRegion (a : Addr) : Nat → List MapEntry → Option Loc
  | _, [] => none
  | k, e :: es =>
    if e.first ≤ a.toNat ∧ a.toNat ≤ e.last then some ⟨.cpuRegion k, a.toNat - e.first⟩
    else findRegion a (k + 1) es

/-- The fallback window onto table RAM (`20_memory.md` R65, R67). -/
def fallbackWindow (c : Config) (a : Addr) : Option Loc :=
  let off := (a - c.cpuSharedBase).toNat
  if off < c.tableLen then some ⟨.tableRam, off⟩ else none

/-- `resolveCPU` of `20_memory.md` R65; `none` is UNMAPPED (R68). -/
def resolveCpu (c : Config) (a : Addr) : Option Loc :=
  match findRegion a 0 (cpuRegions c) with
  | some l => some l
  | none => fallbackWindow c a

/-- The index among `cpuRegions` of the `j`-th entry of kind rom, the list starting at region `k` (`30_encoding.md` R106). -/
def findRom : Nat → Nat → List MapEntry → Option Nat
  | _, _, [] => none
  | j, k, e :: es =>
    if e.kind = .rom then
      match j with
      | 0 => some k
      | j' + 1 => findRom j' (k + 1) es
    else findRom j (k + 1) es

/-- The code ROM of a processor (`10_state.md` R33): CODE_ROM for the PPU, the first rom entry of CPU_MAP for the main CPU, if there is one. -/
def codeRomStore (c : Config) : Proc → Option Store
  | .ppu => some .codeRom
  | .cpu => (findRom 0 0 (cpuRegions c)).map .cpuRegion

/-- The length of a processor's code ROM region, 0 when it has none (`10_state.md` R33). -/
def codeRomLength (c : Config) (p : Proc) : RomLen :=
  BitVec.ofNat 17 (((codeRomStore c p).map (Store.length c)).getD 0)

/-! ### Framebuffer, tiles and tables -/

/-- `PIXIDX` of `20_memory.md` R73. -/
def pixIdx (c : Config) (x y : Nat) : Nat :=
  (y / 8) * (c.fbTx * 64) + (x / 8) * 64 + (y % 8) * 8 + (x % 8)

/-- The byte of PIXEL_RAM that holds framebuffer pixel (x, y) (`20_memory.md` R74). -/
def pixelLoc (c : Config) (x y : Nat) : Loc := ⟨.pixelRam, pixIdx c x y / c.ppb.count⟩

/-- The byte of DEF_ROM that holds pixel (r, col) of tile `e` (`20_memory.md` R75). -/
def tileLoc (c : Config) (e r col : Nat) : Loc :=
  ⟨.defRom, e * (64 / c.ppb.count) + (r * 8 + col) / c.ppb.count⟩

/-- The nibble of a byte that holds the pixel of linear index `i`: the high one for an even index (`20_memory.md` R74, R75). -/
def nibble (i : Nat) (b : Byte) : Byte :=
  if i % 2 = 0 then (b.extractLsb' 4 4).zeroExtend 8 else (b.extractLsb' 0 4).zeroExtend 8

/-- The byte `b` with the nibble of the pixel of linear index `i` replaced by `v[3:0]` (`20_memory.md` R74). -/
def withNibble (i : Nat) (b v : Byte) : Byte :=
  if i % 2 = 0 then v.extractLsb' 0 4 ++ b.extractLsb' 0 4 else b.extractLsb' 4 4 ++ v.extractLsb' 0 4

/-- The `animIndex` byte of SpriteEntry `i` (`20_memory.md` R72, `30_encoding.md` R110). -/
def animIndexLoc (c : Config) (i : Nat) : Loc := ⟨.tableRam, c.spriteTableOff + 2 * i⟩

/-- The `spriteIndex` byte of SpriteEntry `i` (`20_memory.md` R72, `30_encoding.md` R110). -/
def spriteIndexLoc (c : Config) (i : Nat) : Loc := ⟨.tableRam, c.spriteTableOff + 2 * i + 1⟩

/-- Byte `b` of AnimationDef `j` (`20_memory.md` R72, `30_encoding.md` R111, R112). -/
def animDefLoc (c : Config) (j b : Nat) : Loc := ⟨.tableRam, c.animTableOff + c.animDefSize * j + b⟩

/-- `xOffset = k & 0x07` (`30_encoding.md` R113). -/
def xOffset (k : Byte) : Nat := (k &&& 0x07).toNat

/-- `yOffset = (k >> 3) & 0x07` (`30_encoding.md` R113). -/
def yOffset (k : Byte) : Nat := ((k >>> 3) &&& 0x07).toNat

/-- `spriteOffset = (k >> 6) & 0x03` (`30_encoding.md` R113). -/
def spriteOffset (k : Byte) : Byte := (k >>> 6) &&& 0x03

/-- `k = xOffset | (yOffset << 3) | (spriteOffset << 6)` (`30_encoding.md` R113). -/
def packOffsets (xo yo so : Byte) : Byte := xo ||| (yo <<< 3) ||| (so <<< 6)

end Sys2Proof.Machine
end

