-- ==== Sys2Proof/WellFormed.lean ====
section
/-! DEFINITION. What a configuration of this hardware is (`00_scope.md` R6, `20_memory.md` R66, R72) and which instruction terms are well formed (`30_encoding.md` R102, R122). -/

namespace Sys2Proof

/-- `00_scope.md` R6: `1 <= W < W_TOTAL <= 65535` and `1 <= H < H_TOTAL <= 65535`. -/
def Config.beamValid (c : Config) : Bool :=
  1 ≤ c.w && c.w < c.wTotal && c.wTotal ≤ 65535 && 1 ≤ c.h && c.h < c.hTotal && c.hTotal ≤ 65535

/-- `00_scope.md` R6: the three boundaries of the PPU space rise. -/
def Config.ppuMapValid (c : Config) : Bool :=
  0 < c.ppuTableBase && c.ppuTableBase < c.ppuDefBase && c.ppuDefBase < c.ppuPixelBase
    && c.ppuPixelBase ≤ 0xFFFF

/-- `20_memory.md` R66, one entry: `0 <= start <= end <= 0xFFFF`. -/
def MapEntry.valid (e : MapEntry) : Bool := e.first ≤ e.last && e.last ≤ 0xFFFF

/-- `20_memory.md` R66: two ranges share no address. -/
def MapEntry.disjoint (e f : MapEntry) : Bool := e.last < f.first || f.last < e.first

/-- `20_memory.md` R66: every pair of entries is disjoint. -/
def pairwiseDisjoint : List MapEntry → Bool
  | [] => true
  | e :: es => es.all e.disjoint && pairwiseDisjoint es

/-- `20_memory.md` R66 and `MAP_MAX >= 1` of `00_scope.md` R6. -/
def Config.cpuMapValid (c : Config) : Bool :=
  1 ≤ c.cpuMap.length && c.cpuMap.length ≤ c.mapMax && c.cpuMap.all MapEntry.valid
    && pairwiseDisjoint c.cpuMap

/-- `20_memory.md` R72 and `GRID_W, GRID_H >= 1` of `00_scope.md` R6: both tables fit in table RAM, they do not overlap, and every effective sprite index has a tile. -/
def Config.tablesValid (c : Config) : Bool :=
  1 ≤ c.gridW && 1 ≤ c.gridH
    && c.spriteTableOff + 2 * c.slots ≤ c.tableLen
    && c.animTableOff + 256 * c.animDefSize ≤ c.tableLen
    && (c.spriteTableOff + 2 * c.slots ≤ c.animTableOff
      || c.animTableOff + 256 * c.animDefSize ≤ c.spriteTableOff)
    && 256 * 64 / c.ppb.count ≤ c.defLen

/-- `00_scope.md` R6, rows `FB_TX`, `FB_TY`, `SX`, `SY`. -/
def Config.framebufferValid (c : Config) : Bool :=
  c.gridW ≤ c.fbTx && c.gridH ≤ c.fbTy && c.fbTx * c.fbTy * 64 / c.ppb.count ≤ c.pixelLen
    && 1 ≤ c.sx && 1 ≤ c.sy && (c.w - 1) / c.sx < 8 * c.fbTx && (c.h - 1) / c.sy < 8 * c.fbTy

/-- `00_scope.md` R6, rows `SHADOW_CAP`, `TRACE_CAP`. -/
def Config.capsValid (c : Config) : Bool := 2 ≤ c.shadowCap && 1 ≤ c.traceCap

/-- All constraints of `00_scope.md` R6: a configuration that violates one is not a configuration of this hardware. -/
def Config.valid (c : Config) : Bool :=
  c.beamValid && c.ppuMapValid && c.cpuMapValid && c.tablesValid && c.framebufferValid && c.capsValid

/-- The number of rom entries of CPU_MAP (`30_encoding.md` R102). -/
def Config.romCount (c : Config) : Nat := (c.cpuMap.filter fun e => e.kind = .rom).length

/-- `30_encoding.md` R102, R122: `WAITSET NONE` and a LOADROM whose region id names no region are reserved; every other term is well formed. -/
def Instr.wellFormed (c : Config) : Instr → Bool
  | .waitset s => s ≠ .none
  | .loadrom r _ => r.toNat ≤ 1 + c.romCount
  | .reset | .tick | .bstep | .edgechk | .resume | .observe _ | .spchk _ | .tracedump _ | .render => true
  | .prdP _ | .pwrP _ _ | .prdE _ | .pwrE _ _ | .crd _ | .cwr _ _ => true
  | .z80PushQq _ _ | .z80PushIx _ | .z80PushIy _ | .z80PopQq _ _ | .z80PopIx _ | .z80PopIy _ => true
  | .z80Reti _ | .z80Retn _ => true

end Sys2Proof
end

