-- ==== Sys2Proof/Machine/State.lean ====
section
/-! DEFINITION. The state of the machine (`10_state.md` R20), its events, its inputs, its faults and refusals, and the state after reset (R40). -/

namespace Sys2Proof.Machine

/-- Why the machine stops without a next state. -/
inductive Fault
  /-- Raised by BSTEP, alone or inside TICK, in a beam state outside the invariant of `10_state.md` R23, and by EDGECHK on an entry into `section = NONE` (`93_implementation_defined.md` U1, log 14). Safe: no reachable state is one. -/
  | beamStateUnspecified
  /-- Raised by RENDER, alone or inside TICK, when CLIP is false and a slot's tile leaves the framebuffer (`93_implementation_defined.md` U4, `43_render_pipeline.md` R237). Safe: no claim can be proved of such a pass. -/
  | renderOutOfBounds
  deriving DecidableEq, Repr

/-- Why an operation is turned away. All but the first two leave the machine running: the command port drops the word (log 11). -/
inductive Refusal
  /-- An arm of exec without a meaning; raised by no instruction of this model. Safe. -/
  | notModelled (mnemonic : String)
  /-- Raised by step on a configuration that violates a constraint of `00_scope.md` R6 (`93_implementation_defined.md` U14). Safe: it is not this hardware. -/
  | invalidConfiguration
  /-- Raised for a command selector not listed in `30_encoding.md` R101 (R122 a, U5). Safe: the spec refuses it. -/
  | reservedSelector (sel : Byte)
  /-- Raised by WAITSET with section code NONE (`30_encoding.md` R122 b, U5). Safe: the spec refuses it. -/
  | waitsetNone
  /-- Raised by LOADROM with a region id that names no region (`30_encoding.md` R122 c, U5). Safe: the spec refuses it. -/
  | loadromNoRegion (r : BitVec 3)
  /-- Raised by TICK while `halted = 1` (`40_beam_timer.md` R150, U6). Safe: the spec refuses it. -/
  | tickWhileHalted
  deriving DecidableEq, Repr

/-- The anomalies of `60_exceptions.md` R300; the last is raised outside the block (R303). -/
inductive Anomaly
  | writeToRom
  | writeToUnmappedRegion
  | suspiciousInterruptReturn
  | unrecognizedDebugCommand
  deriving DecidableEq, Repr

/-- The fatals of `60_exceptions.md` R300; the last two are raised outside the block (R303). -/
inductive FatalCause
  | stackUnderflow
  | malformedMemoryMap
  | missingRomFile
  deriving DecidableEq, Repr

/-- The recorded `info` of an anomaly (`60_exceptions.md` R300, last column). -/
inductive DiagInfo
  /-- Processor, address, data byte. -/
  | write (p : Proc) (a : Addr) (d : Byte)
  /-- Processor, PC of the return instruction, return address. -/
  | interruptReturn (p : Proc) (pc ra : Addr)
  deriving DecidableEq, Repr

/-- One event of the output stream (`10_state.md` R36, `92_eei_decisions.md` D34). -/
inductive Event
  | setPixel (x y : BitVec 16) (c : Byte)
  | presentFrame
  | raiseNmi (p : Proc)
  | raiseInt (p : Proc) (vec : Byte)
  | sectionChange (source target : BeamSection)
  | waitDone (s : BeamSection)
  | diag (code : Anomaly) (info : DiagInfo)
  | fatal (code : FatalCause) (p : Proc) (sp : Addr)
  | regDump (p : Proc) (pc sp : Addr) (flags : Byte)
  | traceLine (p : Proc) (pc : Addr) (n : Nat)
  | loadReport (r : BitVec 3) (m : Nat)
  deriving DecidableEq, Repr

/-- An entry of a shadow stack (`10_state.md` R31): 17 bits. -/
structure ShadowEntry where
  pc : Addr
  dup : Bool
  deriving DecidableEq, Repr

/-- The accessors of an Executor (`00_scope.md` R8, R9). -/
structure ExecView where
  pc : Addr
  sp : Addr
  flags : Byte
  deriving DecidableEq, Repr

/-- What the block holds for one processor (`60_exceptions.md` R323), and the present level of its Executor's accessors. -/
structure ProcState where
  /-- Oldest entry first (`10_state.md` R31). -/
  shadow : List ShadowEntry
  /-- Newest value last (`10_state.md` R32). -/
  trace : List Addr
  codeRomLen : RomLen
  view : ExecView
  deriving DecidableEq, Repr

/-- A bus operation of the main CPU's Executor inside its step (`40_beam_timer.md` R150). -/
inductive CpuOp
  | read (a : Addr)
  | write (a : Addr) (d : Byte)
  deriving DecidableEq, Repr

/-- What the PPU's Executor may issue inside its step (`40_beam_timer.md` R150, `43_render_pipeline.md` R240). -/
inductive PpuOp
  | read (a : Addr)
  | write (a : Addr) (d : Byte)
  | render
  deriving DecidableEq, Repr

/-- What the collaborators supply during one command (log 3): the ROM image of LOADROM, the operations each Executor issues in its step, and its accessors after the call the command makes on it (`none`: unchanged). -/
structure Env where
  img : List Byte
  cpuOps : List CpuOp
  cpuView : Option ExecView
  ppuOps : List PpuOp
  ppuView : Option ExecView
  deriving DecidableEq, Repr

/-- Nothing supplied: the Executors idle (`95_test_vectors.md` section 2, IDLE). -/
def Env.idle : Env := ⟨[], [], none, [], none⟩

/-- One input of the block (`00_scope.md` R9): a command word, or a pulse on `rst`. -/
inductive Input
  | cmd (w : Cmd) (env : Env)
  | rst (env : Env)
  deriving DecidableEq, Repr

/-- A call of the block on an Executor that is no event of the stream: the pulses `exec_reset[p]` and `exec_step[p]` (`00_scope.md` R8, R9). -/
inductive ExecCall
  | reset (p : Proc)
  | step (p : Proc)
  deriving DecidableEq, Repr

/-- What the command port answers in a step (log 10): nothing, the byte of `rsp_data`, or the name of a refusal. -/
inductive Response
  | idle
  | data (b : Byte)
  | refused (r : Refusal)
  deriving DecidableEq, Repr

/-- The state. The fields from `sect` to `ppu` are the spec's (`10_state.md` R20; `mem` holds all stores, log 16); `rsp`, `calls` and `out` are outputs of its interface; the others are the model's own. -/
structure State where
  /-- The model's: the configuration, constant (log 1). -/
  cfg : Config
  /-- The register `section` (`10_state.md` R21). -/
  sect : BeamSection
  hCounter : BitVec 16
  vCounter : BitVec 16
  prevSection : BeamSection
  waitTarget : BeamSection
  halted : Bool
  haltCause : BitVec 8
  /-- Every store, as one list of (key, byte) pairs in canonical form (log 16). -/
  mem : List Host.Cell
  cpu : ProcState
  ppu : ProcState
  /-- The answer of the command port in this step (log 10). -/
  rsp : Response
  /-- The calls `reset()` and `stepOneInstruction()` made in this step, in order (log 10). -/
  calls : List ExecCall
  /-- The output stream, oldest event first (log 9). -/
  out : List Event
  /-- The model's: the inputs to come, next first (log 2). -/
  inbox : List Input
  /-- The model's: what the collaborators supply during the present command (log 3). -/
  env : Env
  /-- The model's: how many RESETs have happened, which selects the free RAM contents (log 6). -/
  ramEpoch : Nat
  /-- The model's: how many free values have been drawn (log 7). -/
  freeCount : Nat
  deriving DecidableEq, Repr

/-- The accessors in the reset state. DESIGN CHOICE (log 4): those of the spec's test Executor IDLE. -/
def ExecView.atReset : ExecView := ⟨0x0000, 0xFFFF, 0x00⟩

/-- The machine right after power-on with a given configuration (`10_state.md` R40). -/
def State.powerOn (c : Config) : State where
  cfg := c
  sect := .display
  hCounter := 0
  vCounter := 0
  prevSection := .display
  waitTarget := .none
  halted := false
  haltCause := 0
  mem := []
  cpu := ⟨[], [], codeRomLength c .cpu, .atReset⟩
  ppu := ⟨[], [], codeRomLength c .ppu, .atReset⟩
  rsp := .idle
  calls := []
  out := []
  inbox := []
  env := .idle
  ramEpoch := 0
  freeCount := 0

/-- The machine right after reset (`10_state.md` R40), with the configuration of log 1. -/
def State.reset : State := State.powerOn Config.profileRef

end Sys2Proof.Machine
end

