-- ==== Sys2Proof/Machine/Flags.lean ====
section
/-! DEFINITION. The conditions the block computes. It has no condition codes (`10_state.md` R29); what it tests are opcode classes, edges, its two status bits and the codes of its records. -/

namespace Sys2Proof.Machine

/-- The four opcode classes of `30_encoding.md` R120. -/
inductive OpClass
  | push
  | pop
  | reti
  | other
  deriving DecidableEq, Repr

/-- The class of an opcode pair, by the tests of `30_encoding.md` R120. -/
def opClass (b0 b1 : Byte) : OpClass :=
  if b0 &&& 0xCF = 0xC5 ∨ (b0 = 0xDD ∧ b1 = 0xE5) ∨ (b0 = 0xFD ∧ b1 = 0xE5) then .push
  else if b0 &&& 0xCF = 0xC1 ∨ (b0 = 0xDD ∧ b1 = 0xE1) ∨ (b0 = 0xFD ∧ b1 = 0xE1) then .pop
  else if (b0 = 0xED ∧ b1 = 0x4D) ∨ (b0 = 0xED ∧ b1 = 0x45) then .reti
  else .other

/-- The 8-bit code of an anomaly (`60_exceptions.md` R300). -/
def Anomaly.code : Anomaly → BitVec 8
  | .writeToRom => 0x01
  | .writeToUnmappedRegion => 0x02
  | .suspiciousInterruptReturn => 0x03
  | .unrecognizedDebugCommand => 0x04

/-- The 8-bit code of a fatal (`60_exceptions.md` R300). -/
def FatalCause.code : FatalCause → BitVec 8
  | .stackUnderflow => 0x81
  | .malformedMemoryMap => 0x82
  | .missingRomFile => 0x83

/-- A section-entry edge is pending for EDGECHK (`41_interrupt_scheduler.md` R170). -/
def State.edgePending (s : State) : Bool := s.sect ≠ s.prevSection

/-- A wait for a section is pending (`10_state.md` R25, R29). -/
def State.waitPending (s : State) : Bool := s.waitTarget ≠ .none

/-- `depthEntries` of a shadow stack (`10_state.md` R31). -/
def ProcState.depthEntries (x : ProcState) : Nat := x.shadow.length

/-- `depthLogical` of a shadow stack (`10_state.md` R31). -/
def ProcState.depthLogical (x : ProcState) : Nat := x.depthEntries / 2

end Sys2Proof.Machine
end

