-- ==== Sys2Proof/Machine/Memory.lean ====
section
/-! DEFINITION. Memory as one sorted list of (key, byte) pairs in canonical form (log 16): reading and writing one byte of a store (`10_state.md` R30). -/

namespace Sys2Proof.Machine

/-- The byte listed at a key. -/
def cellsFind (k : Nat) : List Host.Cell → Option Byte
  | [] => none
  | (j, b) :: m => if j = k then some b else cellsFind k m

/-- The list with the byte at `k` set, in rising order of keys. -/
def cellsInsert (k : Nat) (v : Byte) : List Host.Cell → List Host.Cell
  | [] => [(k, v)]
  | (j, b) :: m =>
    if k < j then (k, v) :: (j, b) :: m
    else if k = j then (k, v) :: m
    else (j, b) :: cellsInsert k v m

/-- The list with nothing at `k`. -/
def cellsErase (k : Nat) (m : List Host.Cell) : List Host.Cell := m.filter fun cell => cell.1 ≠ k

/-- The keys rise strictly. -/
def cellsSorted : List Host.Cell → Bool
  | [] => true
  | [_] => true
  | (j, _) :: (k, b) :: m => j < k && cellsSorted ((k, b) :: m)

/-- What an unlisted key reads as: 0x00 in a store of class ROM, no value in a store of class RAM (`10_state.md` R30). -/
def unlisted (c : Config) (key : Nat) : Option Byte :=
  match (Store.ofIndex (key / 65536)).memClass c with
  | .rom => some 0
  | .ram => none

/-- Writing one byte keeps the list canonical: the value an unlisted key reads as is not listed. -/
def cellsPut (c : Config) (key : Nat) (v : Byte) (m : List Host.Cell) : List Host.Cell :=
  if unlisted c key = some v then cellsErase key m else cellsInsert key v m

/-- The canonical form: keys rise strictly, and no entry equals what an unlisted key reads as. -/
def Memory.wf (c : Config) (m : List Host.Cell) : Bool :=
  cellsSorted m && m.all fun cell => unlisted c cell.1 != some cell.2

/-- The value a byte of a store holds: `none` for a RAM byte that nothing has written (`10_state.md` R30). -/
def cellAt (c : Config) (m : List Host.Cell) (l : Loc) : Option Byte :=
  match cellsFind l.key m with
  | some b => some b
  | none => unlisted c l.key

/-- The byte a read of a store answers: the value held, or a free value where none is held (log 6). -/
def byteOf (c : Config) (epoch : Nat) (m : List Host.Cell) (l : Loc) : Byte :=
  match cellAt c m l with
  | some b => b
  | none => Config.powerOnByte epoch l.key

/-- `cellAt` of the state's memory. -/
def State.cell? (s : State) (l : Loc) : Option Byte := cellAt s.cfg s.mem l

/-- `byteOf` of the state's memory: the one read of a byte. -/
def State.byteAt (s : State) (l : Loc) : Byte := byteOf s.cfg s.ramEpoch s.mem l

/-- `store[off] <- v`: the one write of a byte. -/
def State.setByte (s : State) (l : Loc) (v : Byte) : State :=
  { s with mem := cellsPut s.cfg l.key v s.mem }

end Sys2Proof.Machine
end

