-- ==== Sys2Proof/Machine/Operands.lean ====
section
/-! DEFINITION. The operand forms: a processor id selects that processor's state (`30_encoding.md` R103), a region id a ROM store (R106). -/

namespace Sys2Proof.Machine

/-- What the block holds for processor `p`. -/
def State.proc (s : State) : Proc → ProcState
  | .cpu => s.cpu
  | .ppu => s.ppu

/-- `s` with processor `p`'s part replaced. -/
def State.setProc (s : State) : Proc → ProcState → State
  | .cpu, x => { s with cpu := x }
  | .ppu, x => { s with ppu := x }

/-- The ROM store a region id names: 0 is CODE_ROM, 1 is DEF_ROM, 2 + j the j-th rom entry of CPU_MAP in ascending start order (`30_encoding.md` R106). -/
def regionStore (c : Config) (r : BitVec 3) : Option Store :=
  match r.toNat with
  | 0 => some .codeRom
  | 1 => some .defRom
  | j + 2 => (findRom j 0 (cpuRegions c)).map .cpuRegion

/-- The processor whose code ROM a region id names (`42_bus_access.md` R210: CODE for the PPU, region 2 for the main CPU). -/
def regionProc (r : BitVec 3) : Option Proc :=
  if r = 0 then some .ppu else if r = 2 then some .cpu else none

end Sys2Proof.Machine
end

