-- ==== Sys2Proof/Machine/Ops.lean ====
section
/-! DEFINITION. The operations the meanings share: events and anomalies, bus accesses, the trace and the shadow stack, the collapsed trace dump, and the block's one exception entry, `raise Fatal`. -/

namespace Sys2Proof.Machine

/-- The outcome of an operation. -/
abbrev Result := Host.Outcome State Fault Refusal

/-- One sub-step after another: a fault or a refusal ends the sequence. -/
def andThen (r : Result) (f : State → Result) : Result :=
  match r with
  | .next s => f s
  | .fault e => .fault e
  | .refused e => .refused e

/-! ### The output stream -/

/-- `emit e` (`00_scope.md` R11): appends one event, and nothing else. -/
def State.emit (s : State) (e : Event) : State := { s with out := s.out ++ [e] }

/-- The events of a list, in order. -/
def State.emitAll (s : State) (es : List Event) : State := { s with out := s.out ++ es }

/-- `diag(code, info)` (`60_exceptions.md` R301): one record in the stream, and nothing else. -/
def State.diag (s : State) (code : Anomaly) (info : DiagInfo) : State := s.emit (.diag code info)

/-- `rsp_data <- b` (`42_bus_access.md` R201). -/
def State.respond (s : State) (b : Byte) : State := { s with rsp := .data b }

/-- A call on an Executor (`00_scope.md` R8). -/
def State.call (s : State) (k : ExecCall) : State := { s with calls := s.calls ++ [k] }

/-! ### Bus accesses -/

/-- The byte at a PPU address (`42_bus_access.md` R201, R202). -/
def State.ppuByte (s : State) (a : Addr) : Byte := s.byteAt (resolvePpu s.cfg a)

/-- A main-CPU read (`42_bus_access.md` R205): the byte, and the state, in which a free value has been drawn if the address is UNMAPPED (log 7). -/
def State.cpuRead (s : State) (a : Addr) : Byte × State :=
  match resolveCpu s.cfg a with
  | some l => (s.byteAt l, s)
  | none => (Config.unmappedByte s.freeCount a, { s with freeCount := s.freeCount + 1 })

/-- `Rd(p, a)` of `44_instrumentation.md` R260: the byte a read through processor `p`'s own space answers, with no other side effect. DESIGN CHOICE (log 21): the reads OBSERVE issues do not drive `rsp_data`. -/
def State.read (s : State) (p : Proc) (a : Addr) : Byte × State :=
  match p with
  | .ppu => (s.ppuByte a, s)
  | .cpu => s.cpuRead a

/-- A program-origin write by processor `p` that resolves to a store (`42_bus_access.md` R203, R206): RAM takes the byte; ROM logs the anomaly and takes the byte when ROM_WRITE_STORES is true. -/
def State.progWrite (s : State) (p : Proc) (a : Addr) (l : Loc) (d : Byte) : State :=
  match l.store.memClass s.cfg with
  | .ram => s.setByte l d
  | .rom =>
    let s1 := s.diag .writeToRom (.write p a d)
    if s.cfg.romWriteStores then s1.setByte l d else s1

/-- A program-origin PPU write (`42_bus_access.md` R203). -/
def State.ppuWrite (s : State) (a : Addr) (d : Byte) : State :=
  s.progWrite .ppu a (resolvePpu s.cfg a) d

/-- An emulator-origin PPU write (`42_bus_access.md` R204): ROM or RAM alike, no diagnostic. -/
def State.ppuPoke (s : State) (a : Addr) (d : Byte) : State :=
  s.setByte (resolvePpu s.cfg a) d

/-- A main-CPU write (`42_bus_access.md` R206): the fallback window is RAM, an UNMAPPED address logs its anomaly and stores nothing. -/
def State.cpuWrite (s : State) (a : Addr) (d : Byte) : State :=
  match resolveCpu s.cfg a with
  | some l => s.progWrite .cpu a l d
  | none => s.diag .writeToUnmappedRegion (.write .cpu a d)

/-- The bytes of a list stored from an offset on (`42_bus_access.md` R210). -/
def State.storeBytes (s : State) (st : Store) (off : Nat) : List Byte → State
  | [] => s
  | b :: bs => State.storeBytes (s.setByte ⟨st, off⟩ b) st (off + 1) bs

/-! ### The instrumentation -/

/-- The list without its oldest element when it holds more than `cap` (`10_state.md` R31, R32). -/
def dropOldest {α : Type} (cap : Nat) (xs : List α) : List α :=
  if xs.length > cap then xs.tail else xs

/-- The PC trace takes the PC of the instruction about to execute (`44_instrumentation.md` R260, R268). -/
def State.recordPc (s : State) (p : Proc) : State :=
  let x := s.proc p
  s.setProc p { x with trace := dropOldest s.cfg.traceCap (x.trace ++ [x.view.pc]) }

/-- `pushShadow(p, entry)` (`44_instrumentation.md` R260, R264). -/
def State.pushShadow (s : State) (p : Proc) (e : ShadowEntry) : State :=
  let x := s.proc p
  s.setProc p { x with shadow := dropOldest s.cfg.shadowCap (x.shadow ++ [e]) }

/-- The newest shadow entry removed, if there is one (`44_instrumentation.md` R265). -/
def State.popShadow (s : State) (p : Proc) : State :=
  let x := s.proc p
  s.setProc p { x with shadow := x.shadow.dropLast }

/-- The 16-bit value on top of processor `p`'s real stack: low byte at SP, high byte at SP + 1 (`20_memory.md` R76, `44_instrumentation.md` R266; PRESUMED, log 19). -/
def State.stackTop (s : State) (p : Proc) : Addr × State :=
  let sp := (s.proc p).view.sp
  let hi := s.read p (sp + 1)
  let lo := hi.2.read p sp
  (hi.1 ++ lo.1, lo.2)

/-- The two opcode bytes at processor `p`'s PC (`44_instrumentation.md` R261). -/
def State.opcodePair (s : State) (p : Proc) : (Byte × Byte) × State :=
  let pc := (s.proc p).view.pc
  let b0 := s.read p pc
  let b1 := b0.2.read p (pc + 1)
  ((b0.1, b1.1), b1.2)

/-- The maximal runs of consecutive equal values with their lengths (`44_instrumentation.md` R275). -/
def runs : List Addr → List (Addr × Nat)
  | [] => []
  | x :: xs =>
    match runs xs with
    | [] => [(x, 1)]
    | (y, n) :: rest => if x = y then (y, n + 1) :: rest else (x, 1) :: (y, n) :: rest

/-- The lines of TRACEDUMP: the trace from newest to oldest, runs collapsed (`44_instrumentation.md` R275). -/
def State.traceLines (s : State) (p : Proc) : List Event :=
  (runs (s.proc p).trace.reverse).map fun g => .traceLine p g.1 g.2

/-- TRACEDUMP (`44_instrumentation.md` R275): the ring is not consumed. -/
def State.traceDump (s : State) (p : Proc) : State := s.emitAll (s.traceLines p)

/-! ### The exception entry of the block -/

/-- The event with processor `p`'s accessors (`60_exceptions.md` R304). -/
def State.regDumpOf (s : State) (p : Proc) : Event :=
  .regDump p (s.proc p).view.pc (s.proc p).view.sp (s.proc p).view.flags

/-- `raise Fatal(code, (p, sp))` (`60_exceptions.md` R304): the report, the two register dumps, the two trace dumps, then `haltCause` (kept if the machine is already halted) and `halted`. Nothing else is saved and control goes nowhere; RESET is the only return. -/
def State.raiseFatal (s : State) (code : FatalCause) (p : Proc) (sp : Addr) : State :=
  let s1 := s.emit (.fatal code p sp)
  let s2 := (s1.emit (s1.regDumpOf .cpu)).emit (s1.regDumpOf .ppu)
  let s3 := (s2.traceDump .cpu).traceDump .ppu
  { s3 with haltCause := if s3.halted then s3.haltCause else code.code, halted := true }

/-- The call of an interrupt action (`41_interrupt_scheduler.md` R170 `fire`): the block's part of an interrupt is that call alone (`60_exceptions.md` R313). -/
def actionEvent : IntAction → Event
  | .nmi p => .raiseNmi p
  | .int p vec => .raiseInt p vec

/-- The actions of a list, in order (`41_interrupt_scheduler.md` R170). -/
def State.fireAll (s : State) (acts : List IntAction) : State := s.emitAll (acts.map actionEvent)

/-- The accessors of processor `p`'s Executor after a call the environment answers with `v` (log 3, log 5). -/
def State.setView (s : State) (p : Proc) (v : Option ExecView) : State :=
  match v with
  | none => s
  | some v => s.setProc p { s.proc p with view := v }

end Sys2Proof.Machine
end

