-- ==== Sys2Proof/Machine/Reset.lean ====
section
/-! DEFINITION. RESET (`70_reset_and_hazards.md` R340): also the one way out of a fatal (`60_exceptions.md` R306). -/

namespace Sys2Proof.Machine

/-- A processor's part after RESET: instrumentation empty, `codeRomLen` the region's length, the accessors as `Exec[p].reset()` leaves them (log 3). -/
def ProcState.afterReset (x : ProcState) (len : RomLen) (v : Option ExecView) : ProcState :=
  { shadow := [], trace := [], codeRomLen := len, view := v.getD x.view }

/-- All state to its reset value (`70_reset_and_hazards.md` R340); the configuration is not state; the streams and the model's own fields stay (log 24), and RAM holds no value again (a new `ramEpoch`, log 6). -/
def State.resetBlock (s : State) : State :=
  { s with
    sect := .display
    hCounter := 0
    vCounter := 0
    prevSection := .display
    waitTarget := .none
    halted := false
    haltCause := 0
    mem := []
    cpu := s.cpu.afterReset (codeRomLength s.cfg .cpu) s.env.cpuView
    ppu := s.ppu.afterReset (codeRomLength s.cfg .ppu) s.env.ppuView
    calls := s.calls ++ [.reset .cpu, .reset .ppu]
    ramEpoch := s.ramEpoch + 1 }

/-- RESET (`70_reset_and_hazards.md` R340). -/
def execReset (s : State) : Result := .next s.resetBlock

end Sys2Proof.Machine
end

