-- ==== Sys2Proof/Machine/Beam.lean ====
section
/-! DEFINITION. The beam timer: BSTEP (`40_beam_timer.md` R140 to R144). -/

namespace Sys2Proof.Machine

/-- `FBGET(x, y)` (`20_memory.md` R74). -/
def State.fbGet (s : State) (x y : Nat) : Byte :=
  let b := s.byteAt (pixelLoc s.cfg x y)
  match s.cfg.ppb with
  | .onePerByte => b
  | .twoPerByte => nibble (pixIdx s.cfg x y) b

/-- `PIXELAT(h, v)` (`40_beam_timer.md` R144). -/
def State.pixelAt (s : State) (h v : Nat) : Byte := s.fbGet (h / s.cfg.sx) (v / s.cfg.sy)

/-- The pixel of a DISPLAY advance, when the sink streams pixels (`40_beam_timer.md` R140, R144). -/
def State.streamPixel (s : State) : State :=
  if s.cfg.sinkPixel then
    s.emit (.setPixel s.hCounter s.vCounter (s.pixelAt s.hCounter.toNat s.vCounter.toNat))
  else s

/-- The reachable-state invariant of the beam (`10_state.md` R23): the states the transition table has rows for. -/
def State.beamOk (s : State) : Bool :=
  match s.sect with
  | .display => s.hCounter.toNat ≤ s.cfg.w && s.vCounter.toNat ≤ s.cfg.h - 1
  | .hblank =>
    s.cfg.w ≤ s.hCounter.toNat && s.hCounter.toNat ≤ s.cfg.wTotal && s.vCounter.toNat ≤ s.cfg.h - 1
  | .vblank =>
    s.hCounter.toNat ≤ s.cfg.wTotal && s.cfg.h ≤ s.vCounter.toNat
      && s.vCounter.toNat ≤ s.cfg.hTotal - 1
  | .none => false

/-- The transition table (`40_beam_timer.md` R140, R141), with its `unspecified` branches as faults (log 14). -/
def beamRow (s : State) : Result :=
  match s.sect with
  | .display =>
    if s.hCounter.toNat < s.cfg.w then .next { s.streamPixel with hCounter := s.hCounter + 1 }
    else if s.hCounter.toNat = s.cfg.w then .next { s with sect := .hblank }
    else .fault .beamStateUnspecified
  | .hblank =>
    if s.hCounter.toNat < s.cfg.wTotal then .next { s with hCounter := s.hCounter + 1 }
    else if s.hCounter.toNat = s.cfg.wTotal then
      .next { s with
        hCounter := 0
        vCounter := s.vCounter + 1
        sect := if s.vCounter.toNat = s.cfg.h - 1 then .vblank else .display }
    else .fault .beamStateUnspecified
  | .vblank =>
    if s.hCounter.toNat < s.cfg.wTotal then .next { s with hCounter := s.hCounter + 1 }
    else if s.hCounter.toNat = s.cfg.wTotal then
      if s.vCounter.toNat = s.cfg.hTotal - 1 then
        .next { s with hCounter := 0, vCounter := 0, sect := .display }
      else .next { s with hCounter := 0, vCounter := s.vCounter + 1 }
    else .fault .beamStateUnspecified
  | .none => .fault .beamStateUnspecified

/-- One beam-step: one row of the transition table. A state outside the invariant of `10_state.md` R23 has no row and faults (`93_implementation_defined.md` U1, log 14). -/
def beamStep (s : State) : Result := if s.beamOk then beamRow s else .fault .beamStateUnspecified

/-- BSTEP (`40_beam_timer.md` R140). -/
def execBstep (s : State) : Result := beamStep s

end Sys2Proof.Machine
end

