-- ==== Sys2Proof/Machine/Bus.lean ====
section
/-! DEFINITION. The bus operations and ROM loading (`42_bus_access.md`). -/

namespace Sys2Proof.Machine

/-- A PPU read that answers on `rsp_data` (`42_bus_access.md` R201). -/
def State.ppuReadOp (s : State) (a : Addr) : State := s.respond (s.ppuByte a)

/-- A main-CPU read that answers on `rsp_data` (`42_bus_access.md` R205). -/
def State.cpuReadOp (s : State) (a : Addr) : State :=
  let r := s.cpuRead a
  r.2.respond r.1

/-- PRD.P a (`42_bus_access.md` R201). -/
def execPrdP (a : Addr) (s : State) : Result := .next (s.ppuReadOp a)

/-- PWR.P a, d (`42_bus_access.md` R203). -/
def execPwrP (a : Addr) (d : Byte) (s : State) : Result := .next (s.ppuWrite a d)

/-- PRD.E a (`42_bus_access.md` R202): the origin has no effect on a read. -/
def execPrdE (a : Addr) (s : State) : Result := .next (s.ppuReadOp a)

/-- PWR.E a, d (`42_bus_access.md` R204). -/
def execPwrE (a : Addr) (d : Byte) (s : State) : Result := .next (s.ppuPoke a d)

/-- CRD a (`42_bus_access.md` R205). -/
def execCrd (a : Addr) (s : State) : Result := .next (s.cpuReadOp a)

/-- CWR a, d (`42_bus_access.md` R206). -/
def execCwr (a : Addr) (d : Byte) (s : State) : Result := .next (s.cpuWrite a d)

/-- The first `m` bytes of the image the environment supplied; a byte it did not supply is a free value (log 8). -/
def State.imageBytes (s : State) (m : Nat) : List Byte :=
  (List.range m).map fun i => (s.env.img[i]?).getD (Config.absentImageByte s.freeCount i)

/-- `codeRomLen[p] <- m` for the processor whose code ROM the region is (`42_bus_access.md` R210, `10_state.md` R33). -/
def State.setRomLen (s : State) (r : BitVec 3) (m : Nat) : State :=
  match regionProc r with
  | some p => s.setProc p { s.proc p with codeRomLen := BitVec.ofNat 17 m }
  | none => s

/-- A LOADROM into an existing store (`42_bus_access.md` R210), with `m` the number of bytes that fit. -/
def State.loadRom (s : State) (r : BitVec 3) (st : Store) (m : Nat) : State :=
  let s1 := s.storeBytes st 0 (s.imageBytes m)
  let s2 := s1.emit (.loadReport r m)
  let s3 := s2.setRomLen r m
  if s.env.img.length < m then { s3 with freeCount := s.freeCount + 1 } else s3

/-- LOADROM r, n (`42_bus_access.md` R210): `m = min(n, length(store))` bytes; a region id that names no region is refused. -/
def execLoadrom (r : BitVec 3) (n : BitVec 16) (s : State) : Result :=
  match regionStore s.cfg r with
  | some st => .next (s.loadRom r st (min n.toNat (st.length s.cfg)))
  | none => .refused (.loadromNoRegion r)

end Sys2Proof.Machine
end

