-- ==== Sys2Proof/Machine/Instrument.lean ====
section
/-! DEFINITION. The instrumentation (`44_instrumentation.md`): OBSERVE, SPCHK, TRACEDUMP, and the response of the block to each inspected opcode (`30_encoding.md` R120, log 17). -/

namespace Sys2Proof.Machine

/-- Class PUSH (`44_instrumentation.md` R263): the first entry, then its duplicate marker, both with the PC of the push. -/
def State.observePush (s : State) (p : Proc) : State :=
  let pc := (s.proc p).view.pc
  (s.pushShadow p ⟨pc, false⟩).pushShadow p ⟨pc, true⟩

/-- Class POP (`44_instrumentation.md` R265): the two newest entries, or what is there. -/
def State.observePop (s : State) (p : Proc) : State := (s.popShadow p).popShadow p

/-- Class RETI (`44_instrumentation.md` R266): the return address on the real stack is checked against the known code-ROM length. -/
def State.observeReturn (s : State) (p : Proc) : State :=
  let top := s.stackTop p
  let s1 := top.2
  s1.emitAll
    (if ((s1.proc p).codeRomLen).toNat ≤ top.1.toNat then
      [.diag .suspiciousInterruptReturn (.interruptReturn p (s1.proc p).view.pc top.1)]
    else [])

/-- The response to an opcode of a class (`44_instrumentation.md` R260): the PC trace, then the class's own effect (R267 for OTHER). -/
def State.observeClass (s : State) (p : Proc) (k : OpClass) : State :=
  let s1 := s.recordPc p
  match k with
  | .push => s1.observePush p
  | .pop => s1.observePop p
  | .reti => s1.observeReturn p
  | .other => s1

/-- The pre-step inspection of processor `p` (`44_instrumentation.md` R260, R261). -/
def State.observe (s : State) (p : Proc) : State :=
  let f := s.opcodePair p
  f.2.observeClass p (opClass f.1.1 f.1.2)

/-- OBSERVE p (`44_instrumentation.md` R260). -/
def execObserve (p : Proc) (s : State) : Result := .next (s.observe p)

/-- The stack-pointer guard (`44_instrumentation.md` R270): unsigned and strict. -/
def State.spCheck (s : State) (p : Proc) : State :=
  let sp := (s.proc p).view.sp
  if sp < s.cfg.spLow p then s.raiseFatal .stackUnderflow p sp else s

/-- SPCHK p (`44_instrumentation.md` R270). -/
def execSpchk (p : Proc) (s : State) : Result := .next (s.spCheck p)

/-- TRACEDUMP p (`44_instrumentation.md` R275). -/
def execTracedump (p : Proc) (s : State) : Result := .next (s.traceDump p)

/-! ### The inspected opcodes -/

/-- PUSH BC, DE, HL or AF found at the PC of `p` (class PUSH). -/
def execZ80PushQq (p : Proc) (_qq : RegPair) (s : State) : Result := .next (s.observeClass p .push)

/-- PUSH IX found at the PC of `p` (class PUSH). -/
def execZ80PushIx (p : Proc) (s : State) : Result := .next (s.observeClass p .push)

/-- PUSH IY found at the PC of `p` (class PUSH). -/
def execZ80PushIy (p : Proc) (s : State) : Result := .next (s.observeClass p .push)

/-- POP BC, DE, HL or AF found at the PC of `p` (class POP). -/
def execZ80PopQq (p : Proc) (_qq : RegPair) (s : State) : Result := .next (s.observeClass p .pop)

/-- POP IX found at the PC of `p` (class POP). -/
def execZ80PopIx (p : Proc) (s : State) : Result := .next (s.observeClass p .pop)

/-- POP IY found at the PC of `p` (class POP). -/
def execZ80PopIy (p : Proc) (s : State) : Result := .next (s.observeClass p .pop)

/-- RETI found at the PC of `p` (class RETI). -/
def execZ80Reti (p : Proc) (s : State) : Result := .next (s.observeClass p .reti)

/-- RETN found at the PC of `p` (class RETI). -/
def execZ80Retn (p : Proc) (s : State) : Result := .next (s.observeClass p .reti)

end Sys2Proof.Machine
end

