-- ==== Sys2Proof/Machine/Render.lean ====
section
/-! DEFINITION. The render pipeline: RENDER (`43_render_pipeline.md` R230 to R238). A pass acts on the stores alone: its functions take the configuration `c`, the reset number `ep` that selects free RAM contents, and the memory. -/

namespace Sys2Proof.Machine

/-- `FBSET(x, y, v)` (`20_memory.md` R74). -/
def fbSet (c : Config) (ep : Nat) (x y : Nat) (v : Byte) (m : List Host.Cell) : List Host.Cell :=
  let l := pixelLoc c x y
  match c.ppb with
  | .onePerByte => cellsPut c l.key v m
  | .twoPerByte => cellsPut c l.key (withNibble (pixIdx c x y) (byteOf c ep m l) v) m

/-- `TILEPIX(e, r, col)` (`20_memory.md` R75). -/
def tilePix (c : Config) (ep : Nat) (m : List Host.Cell) (e : Byte) (r col : Nat) : Byte :=
  let b := byteOf c ep m (tileLoc c e.toNat r col)
  match c.ppb with
  | .onePerByte => b
  | .twoPerByte => nibble (r * 8 + col) b

/-- What a render pass reads of one slot before it writes (`43_render_pipeline.md` R230 step 1). -/
structure SlotInfo where
  anim : Byte
  spr : Byte
  next : Byte
  packed : Byte
  deriving DecidableEq, Repr

/-- Step 1 (`43_render_pipeline.md` R231): the entry, and the AnimationDef its `animIndex` selects. -/
def slotInfo (c : Config) (ep : Nat) (m : List Host.Cell) (i : Nat) : SlotInfo :=
  let anim := byteOf c ep m (animIndexLoc c i)
  { anim := anim
    spr := byteOf c ep m (spriteIndexLoc c i)
    next := byteOf c ep m (animDefLoc c anim.toNat 0)
    packed := byteOf c ep m (animDefLoc c anim.toNat 1) }

/-- Step 2 (`43_render_pipeline.md` R232, R233): the animation advance, unconditional or gated by the frame counter. -/
def advanceAnim (c : Config) (ep : Nat) (i : Nat) (info : SlotInfo) (m : List Host.Cell) :
    List Host.Cell :=
  let entry := (animIndexLoc c i).key
  let counter := animDefLoc c info.anim.toNat 3
  if c.animGated then
    let speed := byteOf c ep m (animDefLoc c info.anim.toNat 2)
    let fc := byteOf c ep m counter
    if speed ≤ fc then cellsPut c counter.key 0 (cellsPut c entry info.next m)
    else cellsPut c counter.key (fc + 1) m
  else cellsPut c entry info.next m

/-- Step 3 (`43_render_pipeline.md` R234): the effective sprite index, with unsigned 8-bit wraparound. -/
def effectiveTile (info : SlotInfo) : Byte := info.spr + spriteOffset info.packed

/-- The framebuffer column of the tile's left edge (`43_render_pipeline.md` R235, R236). -/
def slotX (c : Config) (i : Nat) (info : SlotInfo) : Nat := 8 * (i % c.gridW) + xOffset info.packed

/-- The framebuffer row of the tile's top edge (`43_render_pipeline.md` R235, R236). -/
def slotY (c : Config) (i : Nat) (info : SlotInfo) : Nat := 8 * (i / c.gridW) + yOffset info.packed

/-- One pixel of step 4: written when it lies in the framebuffer, skipped otherwise (`43_render_pipeline.md` R237). -/
def drawPixel (c : Config) (ep : Nat) (e : Byte) (x0 y0 : Nat) (m : List Host.Cell) (rc : Nat × Nat) :
    List Host.Cell :=
  if x0 + rc.2 < 8 * c.fbTx ∧ y0 + rc.1 < 8 * c.fbTy then
    fbSet c ep (x0 + rc.2) (y0 + rc.1) (tilePix c ep m e rc.1 rc.2) m
  else m

/-- The pixels (row, column) of a tile in the order they are written (`43_render_pipeline.md` R238). -/
def tileCoords : List (Nat × Nat) :=
  (List.range 8).flatMap fun r => (List.range 8).map fun col => (r, col)

/-- Step 4 (`43_render_pipeline.md` R235, R238). -/
def drawTile (c : Config) (ep : Nat) (e : Byte) (x0 y0 : Nat) (m : List Host.Cell) : List Host.Cell :=
  tileCoords.foldl (drawPixel c ep e x0 y0) m

/-- The whole tile of slot `i` lies in the framebuffer. -/
def slotFits (c : Config) (ep : Nat) (m : List Host.Cell) (i : Nat) : Bool :=
  let info := slotInfo c ep m i
  slotX c i info + 7 < 8 * c.fbTx && slotY c i info + 7 < 8 * c.fbTy

/-- Every entry is in bounds for all offsets (`43_render_pipeline.md` R237). -/
def roomy (c : Config) : Bool := c.gridW + 1 ≤ c.fbTx && c.gridH + 1 ≤ c.fbTy

/-- Steps 1 to 4 for slot `i`. -/
def renderSlot (c : Config) (ep : Nat) (m : List Host.Cell) (i : Nat) : List Host.Cell :=
  let info := slotInfo c ep m i
  drawTile c ep (effectiveTile info) (slotX c i info) (slotY c i info) (advanceAnim c ep i info m)

/-- The listed slots in order; `none` when, with CLIP false, a pixel leaves the framebuffer (log 15). In a roomy framebuffer none does, whatever the tables hold. -/
def renderSlots (c : Config) (ep : Nat) : List Nat → List Host.Cell → Option (List Host.Cell)
  | [], m => some m
  | i :: is, m =>
    if c.clip || (roomy c || slotFits c ep m i) then renderSlots c ep is (renderSlot c ep m i) else none

/-- One render pass (`43_render_pipeline.md` R230): every slot in row-major order. -/
def renderPass (s : State) : Result :=
  match renderSlots s.cfg s.ramEpoch (List.range s.cfg.slots) s.mem with
  | some m => .next { s with mem := m }
  | none => .fault .renderOutOfBounds

/-- RENDER (`43_render_pipeline.md` R230). -/
def execRender (s : State) : Result := renderPass s

end Sys2Proof.Machine
end

