-- ==== Sys2Proof/Machine/Scheduler.lean ====
section
/-! DEFINITION. The interrupt scheduler and wait-for-section: EDGECHK, WAITSET, RESUME (`41_interrupt_scheduler.md`). -/

namespace Sys2Proof.Machine

/-- The actions of an edge (`41_interrupt_scheduler.md` R170, R173, R174): entry into `target` from `source`. -/
def State.edgeActions (s : State) (source target : BeamSection) : State :=
  match target with
  | .hblank =>
    let s1 := s.fireAll s.cfg.edgeHblank
    if s.cfg.sinkFrame = true ∧ s.vCounter.toNat = s.cfg.h - 1 then s1.emit .presentFrame else s1
  | .display =>
    if s.cfg.displayScope = .everyEntry ∨ source = .vblank then s.fireAll s.cfg.edgeDisplay else s
  | .vblank => s.fireAll s.cfg.edgeVblank
  | .none => s

/-- The end of a wait on the entry into `target` (`41_interrupt_scheduler.md` R170, R177). -/
def State.completeWait (s : State) (target : BeamSection) : State :=
  if s.waitTarget = target then { s with waitTarget := .none }.emit (.waitDone target) else s

/-- The edge check (`41_interrupt_scheduler.md` R170). An entry into the sentinel NONE has no row and faults (log 14). -/
def edgeCheck (s : State) : Result :=
  if s.sect = s.prevSection then .next s
  else if s.sect = .none then .fault .beamStateUnspecified
  else
    let s1 := s.emit (.sectionChange s.prevSection s.sect)
    let s2 := s1.edgeActions s.prevSection s.sect
    let s3 := s2.completeWait s.sect
    .next { s3 with prevSection := s.sect }

/-- EDGECHK (`41_interrupt_scheduler.md` R170). -/
def execEdgechk (s : State) : Result := edgeCheck s

/-- WAITSET s (`41_interrupt_scheduler.md` R175). -/
def execWaitset (sec : BeamSection) (s : State) : Result :=
  if sec = .none then .refused .waitsetNone else .next { s with waitTarget := sec }

/-- RESUME (`41_interrupt_scheduler.md` R176). -/
def execResume (s : State) : Result := .next { s with waitTarget := .none }

end Sys2Proof.Machine
end

