-- ==== Sys2Proof/Machine/Tick.lean ====
section
/-! DEFINITION. The driver tick: TICK (`40_beam_timer.md` R150 to R153). -/

namespace Sys2Proof.Machine

/-- One bus operation of Executor[CPU] (`40_beam_timer.md` R150). -/
def State.cpuOp (s : State) : CpuOp → State
  | .read a => s.cpuReadOp a
  | .write a d => s.cpuWrite a d

/-- One operation of Executor[PPU]: a bus operation, or RENDER (`40_beam_timer.md` R150, `43_render_pipeline.md` R240). -/
def ppuOp (op : PpuOp) (s : State) : Result :=
  match op with
  | .read a => .next (s.ppuReadOp a)
  | .write a d => .next (s.ppuWrite a d)
  | .render => renderPass s

/-- The operations of Executor[PPU] in order. -/
def ppuOps : List PpuOp → State → Result
  | [], s => .next s
  | op :: ops, s => andThen (ppuOp op s) (ppuOps ops)

/-- `Exec[CPU].stepOneInstruction()` as the environment answers it (log 3). -/
def cpuStep (s : State) : Result :=
  .next ((s.env.cpuOps.foldl State.cpuOp (s.call (.step .cpu))).setView .cpu s.env.cpuView)

/-- `Exec[PPU].stepOneInstruction()` as the environment answers it (log 3). -/
def ppuStep (s : State) : Result :=
  andThen (ppuOps s.env.ppuOps (s.call (.step .ppu))) fun t => .next (t.setView .ppu s.env.ppuView)

/-- The sub-steps of a tick in the source's order (`40_beam_timer.md` R150). -/
def tickSubsteps : List (State → Result) :=
  [ fun s => .next (s.observe .cpu),
    cpuStep,
    fun s => .next (s.observe .ppu),
    ppuStep,
    beamStep,
    beamStep,
    edgeCheck,
    fun s => .next (s.spCheck .cpu),
    fun s => .next (s.spCheck .ppu) ]

/-- Sub-steps one after another. -/
def runSubsteps : List (State → Result) → State → Result
  | [], s => .next s
  | f :: fs, s => andThen (f s) (runSubsteps fs)

/-- TICK (`40_beam_timer.md` R150): refused while halted. -/
def execTick (s : State) : Result :=
  if s.halted then .refused .tickWhileHalted else runSubsteps tickSubsteps s

end Sys2Proof.Machine
end

