-- ==== Sys2Proof/Machine/Dispatch.lean ====
section
/-! DEFINITION. exec: one arm per constructor of Instr, each one call of that instruction's meaning. -/

namespace Sys2Proof.Machine

def exec (i : Instr) (s : State) : Host.Outcome State Fault Refusal :=
  match i with
  | .reset => Sys2Proof.Machine.execReset s
  | .tick => Sys2Proof.Machine.execTick s
  | .bstep => Sys2Proof.Machine.execBstep s
  | .edgechk => Sys2Proof.Machine.execEdgechk s
  | .waitset sec => Sys2Proof.Machine.execWaitset sec s
  | .resume => Sys2Proof.Machine.execResume s
  | .observe p => Sys2Proof.Machine.execObserve p s
  | .spchk p => Sys2Proof.Machine.execSpchk p s
  | .tracedump p => Sys2Proof.Machine.execTracedump p s
  | .render => Sys2Proof.Machine.execRender s
  | .prdP a => Sys2Proof.Machine.execPrdP a s
  | .pwrP a d => Sys2Proof.Machine.execPwrP a d s
  | .prdE a => Sys2Proof.Machine.execPrdE a s
  | .pwrE a d => Sys2Proof.Machine.execPwrE a d s
  | .crd a => Sys2Proof.Machine.execCrd a s
  | .cwr a d => Sys2Proof.Machine.execCwr a d s
  | .loadrom r n => Sys2Proof.Machine.execLoadrom r n s
  | .z80PushQq p qq => Sys2Proof.Machine.execZ80PushQq p qq s
  | .z80PushIx p => Sys2Proof.Machine.execZ80PushIx p s
  | .z80PushIy p => Sys2Proof.Machine.execZ80PushIy p s
  | .z80PopQq p qq => Sys2Proof.Machine.execZ80PopQq p qq s
  | .z80PopIx p => Sys2Proof.Machine.execZ80PopIx p s
  | .z80PopIy p => Sys2Proof.Machine.execZ80PopIy p s
  | .z80Reti p => Sys2Proof.Machine.execZ80Reti p s
  | .z80Retn p => Sys2Proof.Machine.execZ80Retn p s

end Sys2Proof.Machine
end

