-- ==== Sys2Proof/Machine/Fetch.lean ====
section
/-! DEFINITION. How the block takes its next operation: the command port (`00_scope.md` R9), what a refused word leaves (`30_encoding.md` R122, log 11), and where an instruction's bits are laid for the next step. -/

namespace Sys2Proof.Machine

/-- `s` with the next input taken from the queue: what the collaborators supply with it is present, and the pulses of the step before are gone (outputs are one-cycle pulses, `00_scope.md` R9). -/
def State.accept (s : State) (rest : List Input) (env : Env) : State :=
  { s with inbox := rest, env := env, rsp := .idle, calls := [] }

/-- An edge without a command: nothing but the pulses of the step before end (log 12). -/
def State.idleEdge (s : State) : State := { s with rsp := .idle, calls := [] }

/-- A refused operation changes no state and emits nothing (`30_encoding.md` R122); the port answers the refusal's name (log 11). -/
def State.turnAway (s : State) (r : Refusal) : State := { s with rsp := .refused r }

/-- The refusals the spec itself describes, after which the block goes on with the next word (`30_encoding.md` R122, `40_beam_timer.md` R150, `60_exceptions.md` R306; log 11). -/
def Refusal.dropsTheWord : Refusal → Bool
  | .reservedSelector _ => true
  | .waitsetNone => true
  | .loadromNoRegion _ => true
  | .tickWhileHalted => true
  | _ => false

/-- What a step makes of the outcome of an operation on the accepted state. -/
def settle (s : State) : Result → Result
  | .next t => .next t
  | .fault e => .fault e
  | .refused r => if r.dropsTheWord then .next (s.turnAway r) else .refused r

/-- One command word on the accepted state. -/
def runCmd (w : Cmd) (s : State) : Result :=
  match decodeCmd w with
  | .ok i => settle s (exec i s)
  | .error e => settle s (.refused (.reservedSelector e.sel))

/-- The next input of the block: a command word, a pulse on `rst` (the same effect as RESET, `00_scope.md` R9), or none. -/
def runInput (s : State) : Result :=
  match s.inbox with
  | [] => .next s.idleEdge
  | .cmd w env :: rest => runCmd w (s.accept rest env)
  | .rst env :: rest => exec .reset (s.accept rest env)

/-- A command word placed first in the queue, the collaborators idle during it. -/
def State.withCmd (s : State) (w : Cmd) : State := { s with inbox := .cmd w .idle :: s.inbox }

/-- An opcode pair placed at the PPU's PC, and the operation that inspects it there placed first in the queue (log 18). -/
def State.withOpcode (s : State) (b0 b1 : Byte) : State :=
  let pc := s.ppu.view.pc
  ((s.ppuPoke pc b0).ppuPoke (pc + 1) b1).withCmd (mkCmd 0x06 0 0x01)

end Sys2Proof.Machine
end

