-- ==== Sys2Proof/Machine/Step.lean ====
section
/-! DEFINITION. One step of the machine: one edge of the command port. -/

namespace Sys2Proof.Machine

/-- One step: the next input of the block. A configuration that is not one of this hardware is refused (`00_scope.md` R6, `93_implementation_defined.md` U14). -/
def step (s : State) : Host.Outcome State Fault Refusal :=
  if s.cfg.valid then runInput s else .refused .invalidConfiguration

/-- `s` with the instruction of `nbits` bits `w`, numbered as spec/opcode_table.json numbers it, stored where the next step takes its instruction (log 2, log 18). -/
def State.withFetchWord (s : State) (nbits w : Nat) : State :=
  if nbits ≤ 16 then s.withOpcode (BitVec.ofNat 8 (w / 256)) (BitVec.ofNat 8 w)
  else s.withCmd (BitVec.ofNat 32 w)

end Sys2Proof.Machine
end

