-- ==== Sys2Proof/Machine/Ports.lean ====
section
/-! DEFINITION. The level outputs of the port interface (`00_scope.md` R9). The pulses are the events of the output stream and `rsp`. -/

namespace Sys2Proof.Machine

/-- The outputs marked level in `00_scope.md` R9. -/
structure LevelPorts where
  sectionCode : BitVec 2
  hcount : BitVec 16
  vcount : BitVec 16
  fatal : Bool
  fatalCode : BitVec 8
  deriving DecidableEq, Repr

/-- The level outputs in a state (`00_scope.md` R9). -/
def State.ports (s : State) : LevelPorts where
  sectionCode := s.sect.code
  hcount := s.hCounter
  vcount := s.vCounter
  fatal := s.halted
  fatalCode := s.haltCause

end Sys2Proof.Machine
end

