-- ==== Sys2Proof/Machine/Pseudo.lean ====
section
/-! DEFINITION. The controller's pseudo-operations (`30_encoding.md` R123, log 25). -/

namespace Sys2Proof.Machine

/-- The word of TICK. -/
def tickWord : Cmd := mkCmd 0x01 0 0

/-- `TICKS n`, with n the length of the list: one TICK for each element, which is what the collaborators supply during it. -/
def ticksInputs (envs : List Env) : List Input := envs.map (.cmd tickWord)

/-- `FILL.E a, n, v`. -/
def fillInputs (a : Addr) (n : Nat) (v : Byte) : List Input :=
  (List.range n).map fun i => .cmd (mkCmd 0x13 (a + BitVec.ofNat 16 i) v) .idle

/-- The controller issues a command: the step that takes it, ahead of whatever else is queued. -/
def issue (w : Cmd) (env : Env) (s : State) : Result := step { s with inbox := .cmd w env :: s.inbox }

/-- The TICKs of `RUNTO sec`, one for each element of the list, until `waitDone(sec)` is emitted or the machine is halted. -/
def tickUntil (sec : BeamSection) : List Env → State → Result
  | [], s => .next s
  | e :: es, s =>
    if s.halted then .next s
    else
      andThen (issue tickWord e s) fun t =>
        if (t.out.drop s.out.length).contains (.waitDone sec) then .next t else tickUntil sec es t

/-- `RUNTO sec`, for one of the three sections: WAITSET, then the TICKs. -/
def runTo (sec : BeamSection) (envs : List Env) (s : State) : Result :=
  andThen (issue (mkCmd 0x04 0 (sec.code.zeroExtend 8)) .idle s) (tickUntil sec envs)

end Sys2Proof.Machine
end

