-- ==== Sys2Proof/Safety.lean ====
section
/-! DEFINITION. What a good state is and what a run does, in the terms the statements use. -/

namespace Sys2Proof.Machine

/-! ### Good states -/

/-- `prevSection` holds a section (`10_state.md` R24). -/
def State.schedulerOk (s : State) : Bool := s.prevSection ≠ .none

/-- Memory is in canonical form. -/
def State.memOk (s : State) : Bool := Memory.wf s.cfg s.mem

/-- No byte is held beyond the end of a store (`10_state.md` R20, `20_memory.md` R72, R77). -/
def State.insideStores (s : State) : Bool :=
  s.mem.all fun cell => cell.1 % 65536 < (Store.ofIndex (cell.1 / 65536)).length s.cfg

/-- A shadow stack and a trace ring within their capacities (`10_state.md` R31, R32). -/
def ProcState.ringsOk (c : Config) (x : ProcState) : Bool :=
  x.shadow.length ≤ c.shadowCap && x.trace.length ≤ c.traceCap

/-- `haltCause` is 0 while the machine runs, and the one fatal the block raises once it is halted (`10_state.md` R26, `60_exceptions.md` R300, R303). -/
def State.haltOk (s : State) : Bool := s.haltCause = if s.halted then 0x81 else 0

/-- The known code-ROM length of processor `p` is at most the length of its code ROM region (`10_state.md` R33, `42_bus_access.md` R210). -/
def State.romLenOk (s : State) (p : Proc) : Bool :=
  (s.proc p).codeRomLen.toNat ≤ (codeRomLength s.cfg p).toNat

/-- A good state: a configuration of this hardware, and every invariant above. -/
def State.good (s : State) : Bool :=
  s.cfg.valid && s.beamOk && s.schedulerOk && s.memOk && s.insideStores
    && s.cpu.ringsOk s.cfg && s.ppu.ringsOk s.cfg && s.haltOk && s.romLenOk .cpu && s.romLenOk .ppu

/-! ### Runs of sub-steps -/

/-- The beam: section and counters. -/
def State.beam (s : State) : BeamSection × BitVec 16 × BitVec 16 := (s.sect, s.hCounter, s.vCounter)

/-- `n` beam-steps. -/
def beamSteps : Nat → State → Result
  | 0, s => .next s
  | n + 1, s => andThen (beamStep s) (beamSteps n)

/-- The section changes of `n` beam-steps, in order, as pairs (from, to). -/
def sectionChanges : Nat → State → List (BeamSection × BeamSection)
  | 0, _ => []
  | n + 1, s =>
    match beamStep s with
    | .next t => (if t.sect = s.sect then [] else [(s.sect, t.sect)]) ++ sectionChanges n t
    | _ => []

/-- Instructions of processor `p` observed one after another: before each, the Executor's accessors and the class of the opcode at its PC (`44_instrumentation.md` R269). -/
def observeMany (p : Proc) : List (ExecView × OpClass) → State → State
  | [], s => s
  | (v, k) :: ks, s => observeMany p ks ((s.setView p (some v)).observeClass p k)

/-- How many of the observed instructions are of a class. -/
def observedCount (k : OpClass) (ks : List (ExecView × OpClass)) : Nat :=
  (ks.filter fun x => x.2 = k).length

/-! ### The operations of an Executor's step -/

/-- The operation of the block that a bus operation of Executor[CPU] issues (`40_beam_timer.md` R150). -/
def CpuOp.instr : CpuOp → Instr
  | .read a => .crd a
  | .write a d => .cwr a d

/-- The operation of the block that Executor[PPU] issues (`40_beam_timer.md` R150, `43_render_pipeline.md` R240). -/
def PpuOp.instr : PpuOp → Instr
  | .read a => .prdP a
  | .write a d => .pwrP a d
  | .render => .render

/-- Instructions one after another, each as exec gives it. -/
def execAll : List Instr → State → Result
  | [], s => .next s
  | i :: is, s => andThen (exec i s) (execAll is)

/-! ### The events of a tick -/

/-- The events an operation on `s` appends to the output stream. -/
def newEvents (s : State) : Result → List Event
  | .next t => t.out.drop s.out.length
  | _ => []

/-- The anomaly of one bus operation of Executor[CPU] (`42_bus_access.md` R206). -/
def CpuOp.events (c : Config) : CpuOp → List Event
  | .read _ => []
  | .write a d =>
    match resolveCpu c a with
    | some l => if l.store.memClass c = .rom then [.diag .writeToRom (.write .cpu a d)] else []
    | none => [.diag .writeToUnmappedRegion (.write .cpu a d)]

/-- The anomaly of one operation of Executor[PPU] (`42_bus_access.md` R203). -/
def PpuOp.events (c : Config) : PpuOp → List Event
  | .write a d =>
    if (resolvePpu c a).store.memClass c = .rom then [.diag .writeToRom (.write .ppu a d)] else []
  | .read _ | .render => []

/-- The pixel a beam-step from the beam of `b` streams, with the framebuffer of `t` (`40_beam_timer.md` R140, R144). -/
def pixelEvents (b t : State) : List Event :=
  if b.cfg.sinkPixel = true ∧ b.sect = .display ∧ b.hCounter.toNat < b.cfg.w then
    [.setPixel b.hCounter b.vCounter
      (t.fbGet (b.hCounter.toNat / b.cfg.sx) (b.vCounter.toNat / b.cfg.sy))]
  else []

/-! ### Shared animation definitions -/

/-- How many of the first `n` entries of the sprite table select AnimationDef `j`. -/
def State.entriesUsing (s : State) (j n : Nat) : Nat :=
  ((List.range n).filter fun k => (s.byteAt (animIndexLoc s.cfg k)).toNat = j).length

/-- A frame counter after `n` entries have used its definition: each resets it when it has reached the speed, else adds one (`43_render_pipeline.md` R233). -/
def counterAfter (speed : Nat) : Nat → Nat → Nat
  | 0, fc => fc
  | n + 1, fc => counterAfter speed n (if speed ≤ fc then 0 else fc + 1)

/-! ### What an address holds, what a slot covers -/

/-- The address resolves in the processor's space. -/
def mapped (c : Config) (p : Proc) (a : Addr) : Bool :=
  match p with
  | .ppu => true
  | .cpu => (resolveCpu c a).isSome

/-- What a render pass reads of slot `i` in a state. -/
def State.slot (s : State) (i : Nat) : SlotInfo := slotInfo s.cfg s.ramEpoch s.mem i

/-- Pixel (row `r`, column `col`) of slot `i`'s tile, as the tables of `s` place it, is framebuffer pixel (x, y) (`43_render_pipeline.md` R235). -/
def State.covers (s : State) (i r col x y : Nat) : Prop :=
  r < 8 ∧ col < 8 ∧ x = 8 * (i % s.cfg.gridW) + xOffset (s.slot i).packed + col ∧
    y = 8 * (i / s.cfg.gridW) + yOffset (s.slot i).packed + r

/-- (x, y) is a pixel of the framebuffer (`20_memory.md` R73). -/
def inFramebuffer (c : Config) (x y : Nat) : Prop := x < 8 * c.fbTx ∧ y < 8 * c.fbTy

/-- `l` is a byte a render pass over the tables of `s` may store to: an `animIndex` byte, in the gated profile the frame counter of a definition in use, or a framebuffer byte under a tile (`43_render_pipeline.md` R230, "Status written"). -/
def State.renderStores (s : State) (l : Loc) : Prop :=
  ∃ i, i < s.cfg.slots ∧
    (l = animIndexLoc s.cfg i ∨
      (s.cfg.animGated = true ∧ l = animDefLoc s.cfg (s.slot i).anim.toNat 3) ∨
      ∃ r col x y, s.covers i r col x y ∧ inFramebuffer s.cfg x y ∧ l = pixelLoc s.cfg x y)

/-! ### Comparing runs -/

/-- Whether an event is a line of the collapsed trace. -/
def Event.isTraceLine : Event → Bool
  | .traceLine _ _ _ => true
  | _ => false

/-- Whether an event logs a section change. -/
def Event.isSectionChange : Event → Bool
  | .sectionChange _ _ => true
  | _ => false

/-- A processor's part without its instrumentation. -/
def ProcState.withoutRings (x : ProcState) : ProcState := { x with shadow := [], trace := [] }

/-- A state without what the instrumentation records: the shadow stacks, the traces, and the trace lines printed from them (`44_instrumentation.md` R277). -/
def State.withoutInstrumentation (s : State) : State :=
  { s with
    cpu := s.cpu.withoutRings
    ppu := s.ppu.withoutRings
    out := s.out.filter fun e => !e.isTraceLine }

/-- Two outcomes agree up to a view of the next state. -/
def agreeUpTo {α : Type} (view : State → α) : Result → Result → Prop
  | .next t, .next t' => view t = view t'
  | .fault e, .fault e' => e = e'
  | .refused r, .refused r' => r = r'
  | _, _ => False

end Sys2Proof.Machine
end

