-- ==== Sys2Proof/Certificates/Slice0/Obligations.lean ====
section
/-! DEFINITION. The statements for the provers. Each says what an operation or the machine does, in the terms of the spec; OBLIGATIONS.json gives the rules they come from. -/

open Sys2Proof Sys2Proof.Machine

/-! ### Encoding -/

/-- Decoding the code of an instruction gives the instruction back, for every instruction and every operand. -/
def Obligations.DecodeInvertsEncode : Prop := ∀ i : Instr, decode (encode i) = .ok i

/-- The selector table, operand by operand; every other selector is refused by name. -/
def Obligations.CommandWordsDecode : Prop :=
  ∀ (a : BitVec 16) (d : Byte),
    let p : Proc := if d.getLsbD 0 then .ppu else .cpu
    decodeCmd (0x00#8 ++ a ++ d) = .ok .reset ∧
    decodeCmd (0x01#8 ++ a ++ d) = .ok .tick ∧
    decodeCmd (0x02#8 ++ a ++ d) = .ok .bstep ∧
    decodeCmd (0x03#8 ++ a ++ d) = .ok .edgechk ∧
    decodeCmd (0x04#8 ++ a ++ d) = .ok (.waitset (BeamSection.ofCode (d.extractLsb' 0 2))) ∧
    decodeCmd (0x05#8 ++ a ++ d) = .ok .resume ∧
    decodeCmd (0x06#8 ++ a ++ d) = .ok (.observe p) ∧
    decodeCmd (0x07#8 ++ a ++ d) = .ok (.spchk p) ∧
    decodeCmd (0x08#8 ++ a ++ d) = .ok (.tracedump p) ∧
    decodeCmd (0x09#8 ++ a ++ d) = .ok .render ∧
    decodeCmd (0x10#8 ++ a ++ d) = .ok (.prdP a) ∧
    decodeCmd (0x11#8 ++ a ++ d) = .ok (.pwrP a d) ∧
    decodeCmd (0x12#8 ++ a ++ d) = .ok (.prdE a) ∧
    decodeCmd (0x13#8 ++ a ++ d) = .ok (.pwrE a d) ∧
    decodeCmd (0x14#8 ++ a ++ d) = .ok (.crd a) ∧
    decodeCmd (0x15#8 ++ a ++ d) = .ok (.cwr a d) ∧
    decodeCmd (0x20#8 ++ a ++ d) = .ok (.loadrom (d.extractLsb' 0 3) a) ∧
    ∀ sel : Byte, 0x09 < sel → (sel < 0x10 ∨ 0x15 < sel) → sel ≠ 0x20 →
      decodeCmd (sel ++ a ++ d) = .error ⟨sel⟩

/-- A few words written out from the encoding tables decode to their instructions. That a 16-bit word is an opcode of the PPU is the model's choice (log 17). -/
def Obligations.SampleWordsDecode : Prop :=
  decodeTableWord 32 0x13400001 = some (.pwrE 0x4000 0x01) ∧
  decodeTableWord 32 0x04000002 = some (.waitset .hblank) ∧
  decodeTableWord 32 0x06000001 = some (.observe .ppu) ∧
  decodeTableWord 32 0x01000000 = some .tick ∧
  decodeTableWord 32 0x20400102 = some (.loadrom 2 0x4001) ∧
  decodeTableWord 32 0x0A000000 = none ∧
  decodeTableWord 16 0xD5FF = some (.z80PushQq .ppu .de) ∧
  decodeTableWord 16 0xFDE1 = some (.z80PopIy .ppu) ∧
  decodeTableWord 16 0xED45 = some (.z80Retn .ppu) ∧
  decodeTableWord 16 0xED55 = none

/-- The code values of the processors and the sections. -/
def Obligations.ProcessorAndSectionCodes : Prop :=
  Proc.cpu.bit = 0 ∧ Proc.ppu.bit = 1 ∧
  BeamSection.none.code = 0 ∧ BeamSection.display.code = 1 ∧ BeamSection.hblank.code = 2 ∧
  BeamSection.vblank.code = 3 ∧
  (∀ p : Proc, Proc.ofBit p.bit = p) ∧ ∀ sec : BeamSection, BeamSection.ofCode sec.code = sec

/-- The four opcode classes by their tests, which exclude each other; for every pair of bytes the row it decodes to, with its register pair, or no row for class OTHER; and the class of the row. -/
def Obligations.OpcodeClassesOfPairs : Prop :=
  (∀ b0 b1 : Byte,
    (opClass b0 b1 = .push ↔
      (b0 &&& 0xCF = 0xC5 ∨ (b0 = 0xDD ∧ b1 = 0xE5) ∨ (b0 = 0xFD ∧ b1 = 0xE5))) ∧
    (opClass b0 b1 = .pop ↔
      (b0 &&& 0xCF = 0xC1 ∨ (b0 = 0xDD ∧ b1 = 0xE1) ∨ (b0 = 0xFD ∧ b1 = 0xE1))) ∧
    (opClass b0 b1 = .reti ↔ (b0 = 0xED ∧ (b1 = 0x4D ∨ b1 = 0x45)))) ∧
  (∀ (p : Proc) (b1 : Byte),
    decodeSniff p 0xC5 b1 = .ok (.z80PushQq p .bc) ∧ decodeSniff p 0xD5 b1 = .ok (.z80PushQq p .de) ∧
    decodeSniff p 0xE5 b1 = .ok (.z80PushQq p .hl) ∧ decodeSniff p 0xF5 b1 = .ok (.z80PushQq p .af) ∧
    decodeSniff p 0xC1 b1 = .ok (.z80PopQq p .bc) ∧ decodeSniff p 0xD1 b1 = .ok (.z80PopQq p .de) ∧
    decodeSniff p 0xE1 b1 = .ok (.z80PopQq p .hl) ∧ decodeSniff p 0xF1 b1 = .ok (.z80PopQq p .af) ∧
    decodeSniff p 0xDD 0xE5 = .ok (.z80PushIx p) ∧ decodeSniff p 0xFD 0xE5 = .ok (.z80PushIy p) ∧
    decodeSniff p 0xDD 0xE1 = .ok (.z80PopIx p) ∧ decodeSniff p 0xFD 0xE1 = .ok (.z80PopIy p) ∧
    decodeSniff p 0xED 0x4D = .ok (.z80Reti p) ∧ decodeSniff p 0xED 0x45 = .ok (.z80Retn p)) ∧
  (∀ (p : Proc) (b0 b1 : Byte),
    (b0 ∉ [0xC5#8, 0xD5#8, 0xE5#8, 0xF5#8, 0xC1#8, 0xD1#8, 0xE1#8, 0xF1#8] ∧
      (b0, b1) ∉ [(0xDD#8, 0xE5#8), (0xFD#8, 0xE5#8), (0xDD#8, 0xE1#8), (0xFD#8, 0xE1#8),
        (0xED#8, 0x4D#8), (0xED#8, 0x45#8)]) ↔
    decodeSniff p b0 b1 = .error ⟨b0, b1⟩) ∧
  ∀ (p : Proc) (b0 b1 : Byte),
    match decodeSniff p b0 b1 with
    | .ok (.z80PushQq q _) | .ok (.z80PushIx q) | .ok (.z80PushIy q) => q = p ∧ opClass b0 b1 = .push
    | .ok (.z80PopQq q _) | .ok (.z80PopIx q) | .ok (.z80PopIy q) => q = p ∧ opClass b0 b1 = .pop
    | .ok (.z80Reti q) | .ok (.z80Retn q) => q = p ∧ opClass b0 b1 = .reti
    | .ok _ => False
    | .error _ => opClass b0 b1 = .other

/-- The sub-byte fields of an AnimationDef byte, and the byte put together again from them. -/
def Obligations.PackedOffsetFields : Prop :=
  ∀ k : Byte,
    xOffset k = (k.extractLsb' 0 3).toNat ∧ xOffset k = (k &&& 0x07).toNat ∧
    yOffset k = (k.extractLsb' 3 3).toNat ∧ yOffset k = ((k >>> 3) &&& 0x07).toNat ∧
    (spriteOffset k).toNat = (k.extractLsb' 6 2).toNat ∧ spriteOffset k = ((k >>> 6) &&& 0x03) ∧
    BitVec.ofNat 8 (xOffset k) ||| (BitVec.ofNat 8 (yOffset k) <<< 3) ||| (spriteOffset k <<< 6) = k

/-! ### Address decoders and pixel addressing -/

/-- The PPU decoder is total, sends each range to its store, and no two addresses to one byte; the classes of the stores. -/
def Obligations.PpuDecoderPartitions : Prop :=
  ∀ c : Config,
    (∀ a : Addr,
      (a.toNat < c.ppuTableBase → resolvePpu c a = ⟨.codeRom, a.toNat⟩) ∧
      (c.ppuTableBase ≤ a.toNat → a.toNat < c.ppuDefBase →
        resolvePpu c a = ⟨.tableRam, a.toNat - c.ppuTableBase⟩) ∧
      (c.ppuTableBase ≤ a.toNat → c.ppuDefBase ≤ a.toNat → a.toNat < c.ppuPixelBase →
        resolvePpu c a = ⟨.defRom, a.toNat - c.ppuDefBase⟩) ∧
      (c.ppuTableBase ≤ a.toNat → c.ppuDefBase ≤ a.toNat → c.ppuPixelBase ≤ a.toNat →
        resolvePpu c a = ⟨.pixelRam, a.toNat - c.ppuPixelBase⟩)) ∧
    (∀ a b : Addr, resolvePpu c a = resolvePpu c b → a = b) ∧
    (c.valid = true → ∀ a : Addr, (resolvePpu c a).off < (resolvePpu c a).store.length c) ∧
    Store.memClass c .codeRom = .rom ∧ Store.memClass c .defRom = .rom ∧
    Store.memClass c .tableRam = .ram ∧ Store.memClass c .pixelRam = .ram

/-- The main-CPU decoder: a declared region that contains the address wins, with its own class; otherwise the fallback window onto table RAM; otherwise UNMAPPED. -/
def Obligations.CpuDecoderRegionsThenWindow : Prop :=
  ∀ (c : Config) (a : Addr), c.valid = true →
    (∀ e ∈ c.cpuMap, e.first ≤ a.toNat → a.toNat ≤ e.last →
      ∃ k, (cpuRegions c)[k]? = some e ∧ (Store.cpuRegion k).memClass c = e.kind ∧
        resolveCpu c a = some ⟨.cpuRegion k, a.toNat - e.first⟩) ∧
    ((∀ e ∈ c.cpuMap, ¬(e.first ≤ a.toNat ∧ a.toNat ≤ e.last)) →
      resolveCpu c a =
        if (a.toNat + 65536 - c.cpuSharedBase.toNat) % 65536 < c.tableLen then
          some ⟨.tableRam, (a.toNat + 65536 - c.cpuSharedBase.toNat) % 65536⟩
        else none)

/-- The region ids of LOADROM, over CPU_MAP in ascending start order. -/
def Obligations.RegionIdsNameRomStores : Prop :=
  ∀ c : Config,
    regionStore c 0 = some .codeRom ∧ regionStore c 1 = some .defRom ∧
    (cpuRegions c).Perm c.cpuMap ∧ (cpuRegions c).Pairwise (fun e f => e.first ≤ f.first) ∧
    ∀ r : BitVec 3, 2 ≤ r.toNat →
      (regionStore c r = none ↔ 1 + c.romCount < r.toNat) ∧
      ∀ st, regionStore c r = some st →
        ∃ k e, st = .cpuRegion k ∧ (cpuRegions c)[k]? = some e ∧ e.kind = .rom ∧
          (((cpuRegions c).take k).filter fun f => f.kind = .rom).length + 2 = r.toNat

/-- The pixel index lies in the framebuffer's range, and no two pixels share one. -/
def Obligations.PixelIndexInjective : Prop :=
  ∀ (c : Config) (x y : Nat), inFramebuffer c x y →
    pixIdx c x y = (y / 8) * (c.fbTx * 64) + (x / 8) * 64 + (y % 8) * 8 + (x % 8) ∧
    pixIdx c x y < c.fbTx * c.fbTy * 64 ∧
    ∀ x' y', inFramebuffer c x' y' → pixIdx c x' y' = pixIdx c x y → x' = x ∧ y' = y

/-- Framebuffer pixel access for both packings: where a pixel is read, what writing one stores, and that every other byte stays. -/
def Obligations.FramebufferPixelAccess : Prop :=
  ∀ (s : State) (x y : Nat) (v : Byte), s.cfg.valid = true → inFramebuffer s.cfg x y →
    let i := pixIdx s.cfg x y
    let l : Loc := ⟨.pixelRam, if s.cfg.ppb = .onePerByte then i else i / 2⟩
    let b := s.byteAt l
    let t : State := { s with mem := fbSet s.cfg s.ramEpoch x y v s.mem }
    (s.cfg.ppb = .onePerByte → s.fbGet x y = b ∧ t.byteAt l = v) ∧
    (s.cfg.ppb = .twoPerByte → i % 2 = 0 →
      s.fbGet x y = (b.extractLsb' 4 4).zeroExtend 8 ∧
      t.byteAt l = v.extractLsb' 0 4 ++ b.extractLsb' 0 4) ∧
    (s.cfg.ppb = .twoPerByte → i % 2 = 1 →
      s.fbGet x y = (b.extractLsb' 0 4).zeroExtend 8 ∧
      t.byteAt l = b.extractLsb' 4 4 ++ v.extractLsb' 0 4) ∧
    ∀ l' : Loc, l'.off < 65536 → l' ≠ l → t.byteAt l' = s.byteAt l'

/-! ### Bus accesses -/

/-- PRD.P and PRD.E answer the byte the PPU decoder selects, and change nothing else. -/
def Obligations.PpuReadsAnswerByte : Prop :=
  ∀ (a : Addr) (s : State),
    exec (.prdP a) s = .next { s with rsp := .data (s.byteAt (resolvePpu s.cfg a)) } ∧
    exec (.prdE a) s = .next { s with rsp := .data (s.byteAt (resolvePpu s.cfg a)) }

/-- PWR.P: RAM takes the byte; ROM logs one WriteToROM and takes the byte exactly when ROM_WRITE_STORES is true; nothing else changes. -/
def Obligations.PpuProgramWriteResult : Prop :=
  ∀ (a : Addr) (d : Byte) (s : State),
    let l := resolvePpu s.cfg a
    ∃ t, exec (.pwrP a d) s = .next t ∧ t = { s with mem := t.mem, out := t.out } ∧
      (l.store.memClass s.cfg = .ram → t.byteAt l = d ∧ t.out = s.out) ∧
      (l.store.memClass s.cfg = .rom →
        t.byteAt l = (if s.cfg.romWriteStores then d else s.byteAt l) ∧
        t.out = s.out ++ [.diag .writeToRom (.write .ppu a d)]) ∧
      ∀ l' : Loc, l'.off < 65536 → l' ≠ l → t.byteAt l' = s.byteAt l'

/-- PWR.E always stores, into ROM and RAM alike, and logs nothing. -/
def Obligations.PpuEmulatorWriteResult : Prop :=
  ∀ (a : Addr) (d : Byte) (s : State),
    let l := resolvePpu s.cfg a
    ∃ t, exec (.pwrE a d) s = .next t ∧ t = { s with mem := t.mem } ∧ t.byteAt l = d ∧
      ∀ l' : Loc, l'.off < 65536 → l' ≠ l → t.byteAt l' = s.byteAt l'

/-- CRD answers the byte its address resolves to and changes nothing else; an UNMAPPED address answers some byte, and only the model's count of free values changes besides. -/
def Obligations.CpuReadResult : Prop :=
  ∀ (a : Addr) (s : State),
    (∀ l, resolveCpu s.cfg a = some l →
      exec (.crd a) s = .next { s with rsp := .data (s.byteAt l) }) ∧
    (resolveCpu s.cfg a = none →
      ∃ b, exec (.crd a) s = .next { s with rsp := .data b, freeCount := s.freeCount + 1 })

/-- CWR: a ram region and the fallback window take the byte; a rom region logs WriteToROM and takes it exactly when ROM_WRITE_STORES is true; an UNMAPPED address logs WriteToUnmappedRegion and no store changes. -/
def Obligations.CpuWriteResult : Prop :=
  ∀ (a : Addr) (d : Byte) (s : State),
    (∀ l, resolveCpu s.cfg a = some l →
      ∃ t, exec (.cwr a d) s = .next t ∧ t = { s with mem := t.mem, out := t.out } ∧
        (l.store.memClass s.cfg = .ram → t.byteAt l = d ∧ t.out = s.out) ∧
        (l.store.memClass s.cfg = .rom →
          t.byteAt l = (if s.cfg.romWriteStores then d else s.byteAt l) ∧
          t.out = s.out ++ [.diag .writeToRom (.write .cpu a d)]) ∧
        ∀ l' : Loc, l'.off < 65536 → l' ≠ l → t.byteAt l' = s.byteAt l') ∧
    (resolveCpu s.cfg a = none →
      exec (.cwr a d) s =
        .next { s with out := s.out ++ [.diag .writeToUnmappedRegion (.write .cpu a d)] })

/-- A write followed by a read of the same address: RAM gives the value back in either space and under either origin; ROM under origin EMU always, under origin PROG exactly when ROM_WRITE_STORES is true, else the byte held before. -/
def Obligations.WriteThenReadRoundTrip : Prop :=
  ∀ (a : Addr) (v : Byte) (s : State),
    (∃ t u, exec (.pwrE a v) s = .next t ∧ exec (.prdE a) t = .next u ∧ u.rsp = .data v) ∧
    (∃ t u, exec (.pwrP a v) s = .next t ∧ exec (.prdP a) t = .next u ∧
      u.rsp = .data (if (resolvePpu s.cfg a).store.memClass s.cfg = .ram ∨ s.cfg.romWriteStores = true
        then v else s.byteAt (resolvePpu s.cfg a))) ∧
    ∀ l, resolveCpu s.cfg a = some l →
      ∃ t u, exec (.cwr a v) s = .next t ∧ exec (.crd a) t = .next u ∧
        u.rsp = .data (if l.store.memClass s.cfg = .ram ∨ s.cfg.romWriteStores = true
          then v else s.byteAt l)

/-- The fallback window and the PPU's table RAM are the same bytes: what either processor writes there, the other reads. -/
def Obligations.SharedTableRamIsOneStore : Prop :=
  ∀ (s : State) (o : Nat) (v : Byte), s.cfg.valid = true → o < s.cfg.tableLen →
    let ca : Addr := s.cfg.cpuSharedBase + BitVec.ofNat 16 o
    let pa : Addr := BitVec.ofNat 16 (s.cfg.ppuTableBase + o)
    (∀ e ∈ s.cfg.cpuMap, ¬(e.first ≤ ca.toNat ∧ ca.toNat ≤ e.last)) →
    resolveCpu s.cfg ca = some (resolvePpu s.cfg pa) ∧
    (∃ t u, exec (.cwr ca v) s = .next t ∧ t.out = s.out ∧ exec (.prdP pa) t = .next u ∧
      u.rsp = .data v) ∧
    ∃ t u, exec (.pwrP pa v) s = .next t ∧ exec (.crd ca) t = .next u ∧ u.rsp = .data v

/-- LOADROM of a region that exists: the first m bytes of the image, m the smaller of the count and the store's length; the bytes above and every other store stay; one report; the known code-ROM length of the region's processor. The image is what the environment supplies (log 3); of a shorter one nothing is said of the contents (log 8). -/
def Obligations.LoadromResult : Prop :=
  ∀ (r : BitVec 3) (n : BitVec 16) (s : State) (st : Store), s.cfg.valid = true →
    regionStore s.cfg r = some st →
    let m := min n.toNat (st.length s.cfg)
    ∃ t, exec (.loadrom r n) s = .next t ∧
      t = { s with mem := t.mem, out := t.out, cpu := t.cpu, ppu := t.ppu, freeCount := t.freeCount } ∧
      t.out = s.out ++ [.loadReport r m] ∧
      t.ppu = { s.ppu with codeRomLen := if r = 0 then BitVec.ofNat 17 m else s.ppu.codeRomLen } ∧
      t.cpu = { s.cpu with codeRomLen := if r = 2 then BitVec.ofNat 17 m else s.cpu.codeRomLen } ∧
      (n.toNat ≤ s.env.img.length → t.freeCount = s.freeCount ∧
        ∀ j b, j < m → s.env.img[j]? = some b → t.byteAt ⟨st, j⟩ = b) ∧
      ∀ l : Loc, l.off < 65536 → ¬(l.store = st ∧ l.off < m) → t.byteAt l = s.byteAt l

/-! ### The beam -/

/-- BSTEP in every beam state of the invariant, row by row of the transition table, with the pixel of a DISPLAY advance. -/
def Obligations.BstepTransitionTable : Prop :=
  ∀ s : State, s.beamOk = true →
    let h := s.hCounter.toNat
    let v := s.vCounter.toNat
    (s.sect = .display → h < s.cfg.w →
      exec .bstep s = .next { s with
        hCounter := s.hCounter + 1
        out := s.out ++
          if s.cfg.sinkPixel then
            [.setPixel s.hCounter s.vCounter (s.fbGet (h / s.cfg.sx) (v / s.cfg.sy))]
          else [] }) ∧
    (s.sect = .display → h = s.cfg.w → exec .bstep s = .next { s with sect := .hblank }) ∧
    (s.sect = .hblank → h < s.cfg.wTotal →
      exec .bstep s = .next { s with hCounter := s.hCounter + 1 }) ∧
    (s.sect = .hblank → h = s.cfg.wTotal → v = s.cfg.h - 1 →
      exec .bstep s = .next { s with hCounter := 0, vCounter := s.vCounter + 1, sect := .vblank }) ∧
    (s.sect = .hblank → h = s.cfg.wTotal → v ≠ s.cfg.h - 1 →
      exec .bstep s = .next { s with hCounter := 0, vCounter := s.vCounter + 1, sect := .display }) ∧
    (s.sect = .vblank → h < s.cfg.wTotal →
      exec .bstep s = .next { s with hCounter := s.hCounter + 1 }) ∧
    (s.sect = .vblank → h = s.cfg.wTotal → v = s.cfg.hTotal - 1 →
      exec .bstep s = .next { s with hCounter := 0, vCounter := 0, sect := .display }) ∧
    (s.sect = .vblank → h = s.cfg.wTotal → v ≠ s.cfg.hTotal - 1 →
      exec .bstep s = .next { s with hCounter := 0, vCounter := s.vCounter + 1 })

/-- The model's choice for the beam states the spec calls unspecified (log 14): BSTEP faults outside the invariant, EDGECHK on an entry into the sentinel NONE. -/
def Obligations.BeamStatesWithoutRowFault : Prop :=
  ∀ s : State,
    let h := s.hCounter.toNat
    let v := s.vCounter.toNat
    (¬((s.sect = .display ∧ h ≤ s.cfg.w ∧ v ≤ s.cfg.h - 1) ∨
        (s.sect = .hblank ∧ s.cfg.w ≤ h ∧ h ≤ s.cfg.wTotal ∧ v ≤ s.cfg.h - 1) ∨
        (s.sect = .vblank ∧ h ≤ s.cfg.wTotal ∧ s.cfg.h ≤ v ∧ v ≤ s.cfg.hTotal - 1)) →
      exec .bstep s = .fault .beamStateUnspecified) ∧
    (s.sect = .none → s.prevSection ≠ .none → exec .edgechk s = .fault .beamStateUnspecified)

/-- From a beam state in range BSTEP has a next state, again in range, and no counter wraps: each is one more than before, the same, or 0 where its line or its frame ends (hCounter from W_TOTAL, vCounter from H_TOTAL - 1). -/
def Obligations.BstepKeepsBeamInRange : Prop :=
  ∀ s : State, s.cfg.valid = true → s.beamOk = true →
    ∃ t, exec .bstep s = .next t ∧ t.beamOk = true ∧
      (t.hCounter.toNat = s.hCounter.toNat + 1 ∨ t.hCounter = s.hCounter ∨
        (t.hCounter = 0 ∧ s.hCounter.toNat = s.cfg.wTotal)) ∧
      (t.vCounter.toNat = s.vCounter.toNat + 1 ∨ t.vCounter = s.vCounter ∨
        (t.vCounter = 0 ∧ s.vCounter.toNat = s.cfg.hTotal - 1))

/-- Lines and frames: a visible line takes W_TOTAL + 2 beam-steps, a blanking line W_TOTAL + 1, and from (DISPLAY, 0, 0) the beam is there again for the first time after exactly P steps and is periodic with period P; P of PROFILE_SVGA. -/
def Obligations.FramePeriodIsExact : Prop :=
  (∀ s : State, s.cfg.valid = true →
    (∀ v : BitVec 16, v.toNat < s.cfg.h → s.beam = (.display, 0, v) →
      (∃ t, beamSteps s.cfg.w s = .next t ∧ t.beam = (.display, BitVec.ofNat 16 s.cfg.w, v)) ∧
      (∃ t, beamSteps (s.cfg.w + 1) s = .next t ∧
        t.beam = (.hblank, BitVec.ofNat 16 s.cfg.w, v)) ∧
      (∃ t, beamSteps (s.cfg.wTotal + 1) s = .next t ∧
        t.beam = (.hblank, BitVec.ofNat 16 s.cfg.wTotal, v)) ∧
      ∃ t, beamSteps (s.cfg.wTotal + 2) s = .next t ∧
        t.beam = (if v.toNat = s.cfg.h - 1 then .vblank else .display, 0, v + 1)) ∧
    (∀ v : BitVec 16, s.cfg.h ≤ v.toNat → v.toNat < s.cfg.hTotal → s.beam = (.vblank, 0, v) →
      (∃ t, beamSteps s.cfg.wTotal s = .next t ∧
        t.beam = (.vblank, BitVec.ofNat 16 s.cfg.wTotal, v)) ∧
      ∃ t, beamSteps (s.cfg.wTotal + 1) s = .next t ∧
        t.beam = if v.toNat = s.cfg.hTotal - 1 then (.display, 0, 0) else (.vblank, 0, v + 1)) ∧
    (s.beam = (.display, 0, 0) →
      let period := s.cfg.h * (s.cfg.wTotal + 2) + (s.cfg.hTotal - s.cfg.h) * (s.cfg.wTotal + 1)
      (∃ t, beamSteps period s = .next t ∧ t.beam = (.display, 0, 0)) ∧
      (∀ k, 0 < k → k < period → ∃ t, beamSteps k s = .next t ∧ t.beam ≠ (.display, 0, 0)) ∧
      ∀ k, ∃ t t', beamSteps k s = .next t ∧ beamSteps (k + period) s = .next t' ∧
        t'.beam = t.beam)) ∧
  ∀ c : Config, c.wTotal = 1056 → c.h = 600 → c.hTotal = 629 →
    c.framePeriod = c.h * (c.wTotal + 2) + (c.hTotal - c.h) * (c.wTotal + 1) ∧ c.framePeriod = 665453

/-- The section changes of one frame: 2H + 1 of them, H into HBLANK, H - 1 from HBLANK to DISPLAY, one into VBLANK and one frame start; two never happen in consecutive beam-steps. -/
def Obligations.SectionChangesPerFrame : Prop :=
  ∀ s : State, s.cfg.valid = true →
    (s.beam = (.display, 0, 0) →
      let changes := sectionChanges s.cfg.framePeriod s
      changes.length = 2 * s.cfg.h + 1 ∧
      changes.count (.display, .hblank) = s.cfg.h ∧
      changes.count (.hblank, .display) = s.cfg.h - 1 ∧
      changes.count (.hblank, .vblank) = 1 ∧
      changes.count (.vblank, .display) = 1) ∧
    (s.beamOk = true → ∀ t u, beamStep s = .next t → beamStep t = .next u →
      t.sect ≠ s.sect → u.sect = t.sect)

/-! ### The scheduler -/

/-- EDGECHK: nothing without an edge; on an edge the section change, the actions of the entered section, presentFrame on the HBLANK of the last visible line, and the end of a wait, in this order. -/
def Obligations.EdgechkResult : Prop :=
  ∀ s : State,
    let wait : List Event := if s.waitTarget = s.sect then [.waitDone s.sect] else []
    let after (acts : List Event) : State := { s with
      prevSection := s.sect
      waitTarget := if s.waitTarget = s.sect then .none else s.waitTarget
      out := s.out ++ .sectionChange s.prevSection s.sect :: (acts ++ wait) }
    (s.sect = s.prevSection → exec .edgechk s = .next s) ∧
    (s.sect ≠ s.prevSection → s.sect = .hblank →
      exec .edgechk s = .next (after (s.cfg.edgeHblank.map actionEvent ++
        if s.cfg.sinkFrame = true ∧ s.vCounter.toNat = s.cfg.h - 1 then [.presentFrame] else []))) ∧
    (s.sect ≠ s.prevSection → s.sect = .display →
      exec .edgechk s = .next (after
        (if s.cfg.displayScope = .everyEntry ∨ s.prevSection = .vblank then
          s.cfg.edgeDisplay.map actionEvent else []))) ∧
    (s.sect ≠ s.prevSection → s.sect = .vblank →
      exec .edgechk s = .next (after (s.cfg.edgeVblank.map actionEvent))) ∧
    (∀ p vec, actionEvent (.nmi p) = .raiseNmi p ∧ actionEvent (.int p vec) = .raiseInt p vec)

/-- WAITSET sets the target, whatever is pending and whatever the present section. -/
def Obligations.WaitsetReplacesTarget : Prop :=
  ∀ (sec : BeamSection) (s : State), sec ≠ .none →
    exec (.waitset sec) s = .next { s with waitTarget := sec }

/-- What the block refuses: WAITSET with NONE, LOADROM with a region id that names no region, TICK while halted. -/
def Obligations.ReservedFormsRefused : Prop :=
  ∀ s : State,
    exec (.waitset .none) s = .refused .waitsetNone ∧
    (∀ r n, 1 + s.cfg.romCount < r.toNat → exec (.loadrom r n) s = .refused (.loadromNoRegion r)) ∧
    (s.halted = true → exec .tick s = .refused .tickWhileHalted)

/-- RESUME: its word, its effect, nothing emitted, and nothing changed when no wait is pending. -/
def Obligations.ResumeClearsWait : Prop :=
  (∀ (a : BitVec 16) (d : Byte), decodeCmd (0x05#8 ++ a ++ d) = .ok .resume) ∧
  (∀ s : State, exec .resume s = .next { s with waitTarget := .none }) ∧
  (∀ s : State, s.waitTarget = .none → exec .resume s = .next s) ∧
  ∀ s : State, ∃ t u, exec (.waitset .vblank) s = .next t ∧ exec .resume t = .next u ∧
    u.waitTarget = .none ∧ u.out = s.out

/-- A wait ends, with its event, only in EDGECHK or in the EDGECHK of a TICK. -/
def Obligations.WaitDoneOnlyFromEdgeCheck : Prop :=
  ∀ (i : Instr) (s t : State) (sec : BeamSection), exec i s = .next t →
    .waitDone sec ∈ t.out.drop s.out.length → i = .edgechk ∨ i = .tick

/-! ### The driver tick -/

/-- TICK is its sub-steps in the source's order, each as the operation issued alone, with one step of each Executor between. An Executor's step is the operations it issues, in order, each as exec gives it (CRD and CWR for the CPU; PRD.P, PWR.P and RENDER for the PPU), and then its accessors. That these operations and accessors are what the environment supplies is the model's choice (log 3, log 5). -/
def Obligations.TickRunsSubstepsInOrder : Prop :=
  (∀ s : State, s.halted = false →
    exec .tick s =
      andThen (exec (.observe .cpu) s) fun s1 =>
      andThen (cpuStep s1) fun s2 =>
      andThen (exec (.observe .ppu) s2) fun s3 =>
      andThen (ppuStep s3) fun s4 =>
      andThen (exec .bstep s4) fun s5 =>
      andThen (exec .bstep s5) fun s6 =>
      andThen (exec .edgechk s6) fun s7 =>
      andThen (exec (.spchk .cpu) s7) fun s8 => exec (.spchk .ppu) s8) ∧
  ∀ s : State,
    cpuStep s =
      andThen (execAll (s.env.cpuOps.map CpuOp.instr) { s with calls := s.calls ++ [.step .cpu] })
        (fun t => .next { t with cpu := { t.cpu with view := s.env.cpuView.getD s.cpu.view } }) ∧
    ppuStep s =
      andThen (execAll (s.env.ppuOps.map PpuOp.instr) { s with calls := s.calls ++ [.step .ppu] })
        (fun t => .next { t with ppu := { t.ppu with view := s.env.ppuView.getD s.ppu.view } })

/-- TICK completes from every running state with the beam in range whose PPU step completes, as it does unless a RENDER in it may leave the framebuffer. What each sub-step leaves: OBSERVE the traces and the shadow stacks, each Executor's step (CPU first) the effect of the operations it issues (TickRunsSubstepsInOrder says which), two beam-steps the beam, the edge check the scheduler, the stack guards the latch. The events stand in sub-step order: the anomalies of the CPU's OBSERVE and step, those of the PPU's, two pixels, the edge's events, the fatals. That an Executor's accessors are what the environment says, and change in its own step only, is the model's choice (log 3, log 5), and with it the states the stack guards see; what `rsp` shows is log 10 and log 21. -/
def Obligations.TickCompletes : Prop :=
  ∀ s : State, s.cfg.valid = true → s.beamOk = true → s.halted = false →
    (s.cfg.clip = true ∨ roomy s.cfg = true ∨ PpuOp.render ∉ s.env.ppuOps ∨
      ∃ a b c d, exec (.observe .cpu) s = .next a ∧ cpuStep a = .next b ∧
        exec (.observe .ppu) b = .next c ∧ ppuStep c = .next d) →
    ∃ a b c d u v t,
      exec (.observe .cpu) s = .next a ∧ cpuStep a = .next b ∧
      exec (.observe .ppu) b = .next c ∧ ppuStep c = .next d ∧
      beamStep s = .next u ∧ beamStep u = .next v ∧ exec .tick s = .next t ∧
      t.beam = v.beam ∧ t.prevSection = t.sect ∧
      t.waitTarget =
        (if s.prevSection ≠ t.sect ∧ s.waitTarget = t.sect then .none else s.waitTarget) ∧
      t.calls = s.calls ++ [.step .cpu, .step .ppu] ∧
      t.cpu.view = s.env.cpuView.getD s.cpu.view ∧ t.ppu.view = s.env.ppuView.getD s.ppu.view ∧
      t.cpu.trace = dropOldest s.cfg.traceCap (s.cpu.trace ++ [s.cpu.view.pc]) ∧
      t.ppu.trace = dropOldest s.cfg.traceCap (s.ppu.trace ++ [s.ppu.view.pc]) ∧
      t.cpu.shadow = a.cpu.shadow ∧ t.ppu.shadow = c.ppu.shadow ∧
      t.cpu.codeRomLen = s.cpu.codeRomLen ∧ t.ppu.codeRomLen = s.ppu.codeRomLen ∧
      (t.halted = true ↔
        t.cpu.view.sp.toNat < s.cfg.spLowCpu.toNat ∨ t.ppu.view.sp.toNat < s.cfg.spLowPpu.toNat) ∧
      t.haltCause = (if t.halted then 0x81 else s.haltCause) ∧
      t.out = s.out
        ++ newEvents s (exec (.observe .cpu) s) ++ s.env.cpuOps.flatMap (CpuOp.events s.cfg)
        ++ newEvents b (exec (.observe .ppu) b) ++ s.env.ppuOps.flatMap (PpuOp.events s.cfg)
        ++ pixelEvents s t ++ pixelEvents u t ++ newEvents v (exec .edgechk v)
        ++ newEvents t (exec (.spchk .cpu) t) ++ newEvents t (exec (.spchk .ppu) t) ∧
      t.mem = d.mem ∧ t.rsp = d.rsp ∧ t.freeCount = d.freeCount ∧
      t.cfg = s.cfg ∧ t.inbox = s.inbox ∧ t.env = s.env ∧ t.ramEpoch = s.ramEpoch ∧
      (PpuOp.render ∉ s.env.ppuOps → ∀ l : Loc, l.off < 65536 →
        (∀ a d, CpuOp.write a d ∈ s.env.cpuOps → resolveCpu s.cfg a ≠ some l) →
        (∀ a d, PpuOp.write a d ∈ s.env.ppuOps → resolvePpu s.cfg a ≠ l) →
        t.byteAt l = s.byteAt l)

/-- When the edge check was done before the tick, the tick logs exactly the section change that happened in it, if one did: at most one, and none is lost. -/
def Obligations.TickReportsItsSectionChange : Prop :=
  ∀ s t : State, s.cfg.valid = true → s.beamOk = true → s.prevSection = s.sect →
    exec .tick s = .next t →
    t.prevSection = t.sect ∧
    (t.out.drop s.out.length).filter Event.isSectionChange =
      if t.sect = s.sect then [] else [.sectionChange s.sect t.sect]

/-! ### The render pipeline -/

/-- The effective sprite index wraps modulo 256. -/
def Obligations.EffectiveSpriteIndexWraps : Prop :=
  (∀ info : SlotInfo,
    (spriteOffset info.packed).toNat ≤ 3 ∧
    (effectiveTile info).toNat = (info.spr.toNat + (spriteOffset info.packed).toNat) % 256) ∧
  ∀ info : SlotInfo, info.spr = 0xFE → (spriteOffset info.packed).toNat = 3 → effectiveTile info = 0x01

/-- RENDER completes whenever every tile lies in the framebuffer or CLIP is true, in particular in a roomy framebuffer; it stores only to animIndex bytes, frame counters in use (gated) and framebuffer bytes under a tile, and changes nothing else. -/
def Obligations.RenderCompletesWithFrame : Prop :=
  ∀ s : State, s.cfg.valid = true →
    (s.cfg.clip = true ∨ roomy s.cfg = true ∨
      ∀ i r col x y, i < s.cfg.slots → s.covers i r col x y → inFramebuffer s.cfg x y) →
    ∃ t, exec .render s = .next t ∧ t = { s with mem := t.mem } ∧
      ∀ l : Loc, l.off < 65536 → ¬s.renderStores l → t.byteAt l = s.byteAt l

/-- With CLIP false, a tile with a pixel outside the framebuffer makes RENDER fault (log 15). -/
def Obligations.RenderOutOfBoundsFaults : Prop :=
  ∀ (s : State) (i r col x y : Nat), s.cfg.valid = true → s.cfg.clip = false → i < s.cfg.slots →
    s.covers i r col x y → ¬inFramebuffer s.cfg x y → exec .render s = .fault .renderOutOfBounds

/-- The framebuffer after RENDER: under a tile, the pixel of the last slot that covers the place; elsewhere what was there. -/
def Obligations.RenderedFramebuffer : Prop :=
  ∀ s t : State, s.cfg.valid = true → exec .render s = .next t →
    ∀ x y, inFramebuffer s.cfg x y →
      (∀ i r col, i < s.cfg.slots → s.covers i r col x y →
        (∀ j r' col', i < j → j < s.cfg.slots → ¬s.covers j r' col' x y) →
        t.fbGet x y =
          tilePix s.cfg s.ramEpoch s.mem
            ((s.slot i).spr + spriteOffset (s.slot i).packed) r col) ∧
      ((∀ i r col, i < s.cfg.slots → ¬s.covers i r col x y) → t.fbGet x y = s.fbGet x y)

/-- The animation advance. Minimal profile: every entry takes the successor of the definition it selected before the pass. Gated profile: the entries that select a definition use its counter one after another, and an entry advances when the counter, as the entries before it left it, has reached the speed; so an entry alone with its definition advances when the counter held has reached the speed. The counter ends as all of them left it. Sprite indices stay. -/
def Obligations.RenderAdvancesAnimation : Prop :=
  ∀ (s t : State) (i : Nat), s.cfg.valid = true → exec .render s = .next t → i < s.cfg.slots →
    let j := (s.byteAt (animIndexLoc s.cfg i)).toNat
    let speed := (s.byteAt (animDefLoc s.cfg j 2)).toNat
    let fc := (s.byteAt (animDefLoc s.cfg j 3)).toNat
    t.byteAt (spriteIndexLoc s.cfg i) = s.byteAt (spriteIndexLoc s.cfg i) ∧
    (s.cfg.animGated = false → t.byteAt (animIndexLoc s.cfg i) = s.byteAt (animDefLoc s.cfg j 0)) ∧
    (s.cfg.animGated = true →
      t.byteAt (animIndexLoc s.cfg i) =
        (if speed ≤ counterAfter speed (s.entriesUsing j i) fc then s.byteAt (animDefLoc s.cfg j 0)
        else s.byteAt (animIndexLoc s.cfg i)) ∧
      (t.byteAt (animDefLoc s.cfg j 3)).toNat =
        counterAfter speed (s.entriesUsing j s.cfg.slots) fc)

/-- Idempotence under no animation: with self-loops and no sprite offset a second pass completes and leaves the framebuffer and the sprite table as the first did. -/
def Obligations.RenderTwiceSameFramebuffer : Prop :=
  ∀ s t : State, s.cfg.valid = true →
    (∀ i, i < s.cfg.slots → (s.slot i).next = (s.slot i).anim ∧ spriteOffset (s.slot i).packed = 0) →
    exec .render s = .next t →
    ∃ u, exec .render t = .next u ∧
      (∀ x y, inFramebuffer s.cfg x y → u.fbGet x y = t.fbGet x y) ∧
      ∀ i, i < s.cfg.slots →
        u.byteAt (animIndexLoc s.cfg i) = s.byteAt (animIndexLoc s.cfg i) ∧
        u.byteAt (spriteIndexLoc s.cfg i) = s.byteAt (spriteIndexLoc s.cfg i)

/-- Offset correctness: a single entry with xOffset 2 draws its tile exactly 2 pixels to the right of the same entry with xOffset 0. -/
def Obligations.RenderOffsetShiftsTile : Prop :=
  ∀ s s' t t' : State, s.cfg.valid = true → s.cfg.slots = 1 → s'.cfg = s.cfg →
    (∀ o, o < 65536 → s'.byteAt ⟨.defRom, o⟩ = s.byteAt ⟨.defRom, o⟩) →
    (s'.slot 0).spr = (s.slot 0).spr →
    spriteOffset (s'.slot 0).packed = spriteOffset (s.slot 0).packed →
    yOffset (s'.slot 0).packed = yOffset (s.slot 0).packed →
    xOffset (s.slot 0).packed = 0 → xOffset (s'.slot 0).packed = 2 →
    exec .render s = .next t → exec .render s' = .next t' →
    ∀ r col, r < 8 → col < 8 → inFramebuffer s.cfg (2 + col) (yOffset (s.slot 0).packed + r) →
      t'.fbGet (2 + col) (yOffset (s.slot 0).packed + r) = t.fbGet col (yOffset (s.slot 0).packed + r)

/-! ### The instrumentation -/

/-- OBSERVE on mapped addresses, class by class: the trace, the shadow stack, and for a return exactly one anomaly when the return address is not below the known code-ROM length. That `rsp` stays, although OBSERVE reads, is the model's choice (log 21). -/
def Obligations.ObserveResultByClass : Prop :=
  ∀ (p : Proc) (s : State),
    let x := s.proc p
    let pc := x.view.pc
    let sp := x.view.sp
    let byte := fun a : Addr => (s.read p a).1
    let trace := dropOldest s.cfg.traceCap (x.trace ++ [pc])
    let ra : Addr := byte (sp + 1) ++ byte sp
    mapped s.cfg p pc = true → mapped s.cfg p (pc + 1) = true →
    (opClass (byte pc) (byte (pc + 1)) = .push →
      exec (.observe p) s = .next (s.setProc p { x with
        trace := trace
        shadow := dropOldest s.cfg.shadowCap
          (dropOldest s.cfg.shadowCap (x.shadow ++ [⟨pc, false⟩]) ++ [⟨pc, true⟩]) })) ∧
    (opClass (byte pc) (byte (pc + 1)) = .pop →
      exec (.observe p) s = .next (s.setProc p { x with
        trace := trace, shadow := x.shadow.dropLast.dropLast })) ∧
    (opClass (byte pc) (byte (pc + 1)) = .reti →
      mapped s.cfg p sp = true → mapped s.cfg p (sp + 1) = true →
      exec (.observe p) s = .next { s.setProc p { x with trace := trace } with
        out := s.out ++
          if x.codeRomLen.toNat ≤ ra.toNat then
            [.diag .suspiciousInterruptReturn (.interruptReturn p pc ra)]
          else [] }) ∧
    (opClass (byte pc) (byte (pc + 1)) = .other →
      exec (.observe p) s = .next (s.setProc p { x with trace := trace }))

/-- OBSERVE completes in every state, also where a byte it reads is UNMAPPED, and touches only the trace and the shadow stack of its processor, the output stream and the model's count of free values (log 7). That its reads leave `rsp` alone is the model's choice (log 21). -/
def Obligations.ObserveCompletesWithFrame : Prop :=
  ∀ (p : Proc) (s : State),
    ∃ t, exec (.observe p) s = .next t ∧
      t = { s.setProc p (t.proc p) with out := t.out, freeCount := t.freeCount } ∧
      t.proc p = { s.proc p with trace := (t.proc p).trace, shadow := (t.proc p).shadow } ∧
      (t.proc p).trace = dropOldest s.cfg.traceCap ((s.proc p).trace ++ [(s.proc p).view.pc]) ∧
      (t.out = s.out ∨ ∃ ra, t.out = s.out ++
        [.diag .suspiciousInterruptReturn (.interruptReturn p (s.proc p).view.pc ra)])

/-- The push and pop opcodes: the response of the block to each row of class PUSH and of class POP, found at the processor's PC (the rows as instructions are the model's choice, log 17). -/
def Obligations.PushAndPopOpcodes : Prop :=
  ∀ (p : Proc) (qq : RegPair) (s : State),
    let x := s.proc p
    let pc := x.view.pc
    let trace := dropOldest s.cfg.traceCap (x.trace ++ [pc])
    let pushed : State := s.setProc p { x with
      trace := trace
      shadow := dropOldest s.cfg.shadowCap
        (dropOldest s.cfg.shadowCap (x.shadow ++ [⟨pc, false⟩]) ++ [⟨pc, true⟩]) }
    let popped : State := s.setProc p { x with
      trace := trace, shadow := x.shadow.take (x.shadow.length - 2) }
    exec (.z80PushQq p qq) s = .next pushed ∧ exec (.z80PushIx p) s = .next pushed ∧
    exec (.z80PushIy p) s = .next pushed ∧
    exec (.z80PopQq p qq) s = .next popped ∧ exec (.z80PopIx p) s = .next popped ∧
    exec (.z80PopIy p) s = .next popped

/-- RETI and RETN: the shadow stack stays, and the return address on the real stack is checked. Where a stack byte is UNMAPPED some address is checked, and only the model's count of free values (log 7) changes besides. The model's choices: that the stack reads leave `rsp` alone (log 21), and the rows as instructions (log 17). -/
def Obligations.ReturnOpcodesCheckAddress : Prop :=
  ∀ (p : Proc) (s : State),
    let x := s.proc p
    let sp := x.view.sp
    let checked := fun (ra : Addr) (n : Nat) => ({ s.setProc p { x with
        trace := dropOldest s.cfg.traceCap (x.trace ++ [x.view.pc]) } with
      freeCount := n
      out := s.out ++
        if x.codeRomLen.toNat ≤ ra.toNat then
          [.diag .suspiciousInterruptReturn (.interruptReturn p x.view.pc ra)]
        else [] } : State)
    (mapped s.cfg p sp = true → mapped s.cfg p (sp + 1) = true →
      let t := checked ((s.read p (sp + 1)).1 ++ (s.read p sp).1) s.freeCount
      exec (.z80Reti p) s = .next t ∧ exec (.z80Retn p) s = .next t) ∧
    ∃ ra n, exec (.z80Reti p) s = .next (checked ra n) ∧ exec (.z80Retn p) s = .next (checked ra n)

/-- OBSERVE runs the opcode it finds: the row its two bytes decode to (the rows as instructions are the model's choice, log 17), or the trace alone for class OTHER. That its reads leave `rsp` alone is the model's choice (log 21). -/
def Obligations.ObserveRunsTheOpcodeFound : Prop :=
  ∀ (p : Proc) (s : State),
    let f := s.opcodePair p
    (∀ i, decodeSniff p f.1.1 f.1.2 = .ok i → exec (.observe p) s = exec i f.2) ∧
    (∀ e, decodeSniff p f.1.1 f.1.2 = .error e → exec (.observe p) s = .next (f.2.recordPc p))

/-- The depth of the shadow stack after any sequence of observed instructions that never pops too much nor overflows. -/
def Obligations.ShadowDepthCountsPushesMinusPops : Prop :=
  ∀ (p : Proc) (ks : List (ExecView × OpClass)) (s : State), (s.proc p).shadow = [] →
    (∀ n, observedCount .pop (ks.take n) ≤ observedCount .push (ks.take n) ∧
      2 * (observedCount .push (ks.take n) - observedCount .pop (ks.take n)) ≤ s.cfg.shadowCap) →
    let x := (observeMany p ks s).proc p
    x.depthEntries = 2 * (observedCount .push ks - observedCount .pop ks) ∧
    x.depthLogical = observedCount .push ks - observedCount .pop ks

/-- SPCHK: nothing at or above the mark; below it the fatal: its report, both register dumps, both collapsed traces, the latch, and the cause of the first fatal. -/
def Obligations.SpchkGuardsTheMark : Prop :=
  ∀ (p : Proc) (s : State),
    let sp := (s.proc p).view.sp
    ((s.cfg.spLow p).toNat ≤ sp.toNat → exec (.spchk p) s = .next s) ∧
    (sp.toNat < (s.cfg.spLow p).toNat →
      exec (.spchk p) s = .next { s with
        halted := true
        haltCause := if s.halted then s.haltCause else 0x81
        out := s.out ++
          ([.fatal .stackUnderflow p sp,
            .regDump .cpu s.cpu.view.pc s.cpu.view.sp s.cpu.view.flags,
            .regDump .ppu s.ppu.view.pc s.ppu.view.sp s.ppu.view.flags]
            ++ (runs s.cpu.trace.reverse).map (fun g => .traceLine .cpu g.1 g.2)
            ++ (runs s.ppu.trace.reverse).map (fun g => .traceLine .ppu g.1 g.2)) })

/-- TRACEDUMP emits one line for each maximal run of equal values, newest first, and leaves everything else, the ring too. The runs spell the trace, none is empty, and neighbours differ. -/
def Obligations.TracedumpCollapsesRuns : Prop :=
  ∀ (p : Proc) (s : State),
    let t := (s.proc p).trace.reverse
    exec (.tracedump p) s = .next { s with
      out := s.out ++ (runs t).map fun g => .traceLine p g.1 g.2 } ∧
    ((runs t).flatMap fun g => List.replicate g.2 g.1) = t ∧
    (∀ g ∈ runs t, 1 ≤ g.2) ∧
    ∀ j g g', (runs t)[j]? = some g → (runs t)[j + 1]? = some g' → g.1 ≠ g'.1

/-! ### Reset -/

/-- The reset state: every value the spec gives for reset. -/
def Obligations.ResetStateValues : Prop :=
  State.reset.sect = .display ∧ State.reset.hCounter = 0 ∧ State.reset.vCounter = 0 ∧
  State.reset.prevSection = .display ∧ State.reset.waitTarget = .none ∧
  State.reset.halted = false ∧ State.reset.haltCause = 0 ∧
  (∀ l : Loc, l.off < 65536 →
    State.reset.cell? l = if l.store.memClass State.reset.cfg = .rom then some 0 else none) ∧
  ∀ p, (State.reset.proc p).shadow = [] ∧ (State.reset.proc p).trace = [] ∧
    (State.reset.proc p).codeRomLen = codeRomLength State.reset.cfg p

/-- RESET installs the reset values from any state, the halted one too, resets both Executors, emits nothing and keeps the configuration. The model's choices in it: the accessors afterwards are what the environment says `Exec[p].reset()` left, else unchanged (log 3, log 4), and `inbox`, `env`, `rsp` and `freeCount` stay (log 24). -/
def Obligations.ResetInstallsResetValues : Prop :=
  ∀ s : State, ∃ t, exec .reset s = .next t ∧
    t.sect = .display ∧ t.hCounter = 0 ∧ t.vCounter = 0 ∧ t.prevSection = .display ∧
    t.waitTarget = .none ∧ t.halted = false ∧ t.haltCause = 0 ∧
    (∀ l : Loc, l.off < 65536 →
      t.cell? l = if l.store.memClass s.cfg = .rom then some 0 else none) ∧
    (∀ p, (t.proc p).shadow = [] ∧ (t.proc p).trace = [] ∧
      (t.proc p).codeRomLen = codeRomLength s.cfg p) ∧
    t.cpu.view = s.env.cpuView.getD s.cpu.view ∧ t.ppu.view = s.env.ppuView.getD s.ppu.view ∧
    t.calls = s.calls ++ [.reset .cpu, .reset .ppu] ∧ t.out = s.out ∧ t.cfg = s.cfg ∧
    t.inbox = s.inbox ∧ t.env = s.env ∧ t.rsp = s.rsp ∧ t.freeCount = s.freeCount

/-- The code ROM region of each processor: CODE_ROM for the PPU; the rom entry of CPU_MAP with the lowest start for the main CPU, 0 when there is none. That the first rom entry is the one with the lowest start is R65 and R106, read so in log 20. -/
def Obligations.CodeRomRegionLength : Prop :=
  ∀ c : Config, c.valid = true →
    (codeRomLength c .ppu).toNat = c.ppuTableBase ∧
    (∀ e ∈ c.cpuMap, e.kind = .rom → (∀ f ∈ c.cpuMap, f.kind = .rom → e.first ≤ f.first) →
      (codeRomLength c .cpu).toNat = e.last - e.first + 1) ∧
    ((∀ e ∈ c.cpuMap, e.kind = .ram) → codeRomLength c .cpu = 0)

/-! ### The step -/

/-- A step runs the operation its command word decodes to, on the state with the word taken from the port; an operation the block refuses leaves that state. That the port then answers the refusal's name is the model's choice (log 11). -/
def Obligations.StepRunsTheCommand : Prop :=
  ∀ (s : State) (w : Cmd) (env : Env) (rest : List Input) (i : Instr), s.cfg.valid = true →
    s.inbox = .cmd w env :: rest → decodeCmd w = .ok i →
    let a : State := { s with inbox := rest, env := env, rsp := .idle, calls := [] }
    (∀ t, exec i a = .next t → step s = .next t) ∧
    (∀ e, exec i a = .fault e → step s = .fault e) ∧
    (∀ r, exec i a = .refused r → r.dropsTheWord = true → step s = .next { a with rsp := .refused r })

/-- The other steps: a reserved selector changes no state and emits nothing, a pulse on rst is a RESET, an edge without a command changes nothing, and a configuration that is not of this hardware is refused. -/
def Obligations.StepWithoutOperation : Prop :=
  ∀ s : State,
    (∀ w env rest e, s.cfg.valid = true → s.inbox = .cmd w env :: rest → decodeCmd w = .error e →
      step s = .next { s with
        inbox := rest, env := env, calls := [], rsp := .refused (.reservedSelector e.sel) }) ∧
    (∀ env rest, s.cfg.valid = true → s.inbox = .rst env :: rest →
      step s = exec .reset { s with inbox := rest, env := env, rsp := .idle, calls := [] }) ∧
    (s.cfg.valid = true → s.inbox = [] → step s = .next { s with rsp := .idle, calls := [] }) ∧
    (s.cfg.valid = false → step s = .refused .invalidConfiguration)

/-- A word laid where the next step fetches is the instruction that step runs: a command word as the next command, an opcode pair at the PPU's PC under an OBSERVE. -/
def Obligations.FetchedWordRuns : Prop :=
  ∀ (s : State) (w : Nat) (i : Instr), s.cfg.valid = true →
    (decodeTableWord 32 w = some i →
      let a : State := { s with env := .idle, rsp := .idle, calls := [] }
      step (s.withFetchWord 32 w) = settle a (exec i a)) ∧
    (decodeTableWord 16 w = some i →
      let m := (s.ppuPoke s.ppu.view.pc (BitVec.ofNat 8 (w / 256))).ppuPoke (s.ppu.view.pc + 1)
        (BitVec.ofNat 8 w)
      step (s.withFetchWord 16 w) = exec i { m with env := .idle, rsp := .idle, calls := [] })

/-! ### The whole machine -/

/-- Power-on with any configuration of this hardware gives a good state. -/
def Obligations.PowerOnStateIsGood : Prop :=
  (∀ c : Config, c.valid = true → (State.powerOn c).good = true) ∧ State.reset.good = true

/-- Every step from a good state gives a good state: the beam in range, memory canonical and inside its stores, the rings within their capacities, the latch and its cause, the known ROM lengths. -/
def Obligations.StepKeepsStateGood : Prop :=
  ∀ s t : State, s.good = true → step s = .next t → t.good = true

/-- From a good state no step is refused, and the only fault is a RENDER that leaves the framebuffer, where CLIP is false and the framebuffer is not roomy. -/
def Obligations.StepFromGoodStateFaultsOnlyInRender : Prop :=
  ∀ s : State, s.good = true →
    (∃ t, step s = .next t) ∨
    (step s = .fault .renderOutOfBounds ∧ s.cfg.clip = false ∧ roomy s.cfg = false)

/-- No step changes the configuration, and the output stream only grows at its end. -/
def Obligations.ConfigurationConstantOutputAppendOnly : Prop :=
  ∀ s t : State, step s = .next t → t.cfg = s.cfg ∧ ∃ es, t.out = s.out ++ es

/-- Only BSTEP, TICK and RESET change the beam. -/
def Obligations.BeamChangedOnlyByBstepTickReset : Prop :=
  ∀ (i : Instr) (s t : State), exec i s = .next t → i ≠ .bstep → i ≠ .tick → i ≠ .reset →
    t.beam = s.beam

/-- Only RESET leaves the halted state; until then the first cause stays. -/
def Obligations.HaltLeftOnlyByReset : Prop :=
  ∀ (i : Instr) (s t : State), s.halted = true → exec i s = .next t → i ≠ .reset →
    t.halted = true ∧ t.haltCause = s.haltCause

/-- The instrumentation is out of band: two states that differ only in shadow stacks, traces and printed trace lines have, under every operation, outcomes that differ only there. -/
def Obligations.InstrumentationIsOutOfBand : Prop :=
  ∀ (i : Instr) (s s' : State), s.withoutInstrumentation = s'.withoutInstrumentation →
    agreeUpTo State.withoutInstrumentation (exec i s) (exec i s')
end

