-- ==== Sys2Proof/Laws/Address.lean ====
section
/-! SUPPORT. The regions of CPU_MAP: sorting, searching, and the rom entries among them. -/

namespace Sys2Proof.Machine

/-- Insertion adds one entry. -/
theorem insertByStart_perm (e : MapEntry) (es : List MapEntry) :
    (insertByStart e es).Perm (e :: es) := by
  induction es with
  | nil => exact .refl _
  | cons f fs ih =>
    unfold insertByStart
    split
    · exact .refl _
    · exact (List.Perm.cons f ih).trans (List.Perm.swap e f fs)

/-- Sorting loses and adds no entry. -/
theorem cpuRegions_perm (c : Config) : (cpuRegions c).Perm c.cpuMap := by
  unfold cpuRegions
  induction c.cpuMap with
  | nil => exact .refl _
  | cons e es ih => exact (insertByStart_perm _ _).trans (ih.cons e)

/-- Insertion keeps the order. -/
theorem insertByStart_sorted {e : MapEntry} {es : List MapEntry}
    (h : es.Pairwise fun a b => a.first ≤ b.first) :
    (insertByStart e es).Pairwise fun a b => a.first ≤ b.first := by
  induction es with
  | nil => simp [insertByStart]
  | cons f fs ih =>
    have hf := List.pairwise_cons.1 h
    unfold insertByStart
    split <;> rename_i hle
    · refine List.pairwise_cons.2 ⟨?_, h⟩
      intro b hb
      rcases List.mem_cons.1 hb with rfl | hb
      · exact hle
      · have := hf.1 b hb; omega
    · refine List.pairwise_cons.2 ⟨?_, ih hf.2⟩
      intro b hb
      rcases List.mem_cons.1 ((insertByStart_perm e fs).mem_iff.1 hb) with rfl | hb
      · omega
      · exact hf.1 b hb

/-- The regions are in ascending start order. -/
theorem cpuRegions_sorted (c : Config) :
    (cpuRegions c).Pairwise fun a b => a.first ≤ b.first := by
  unfold cpuRegions
  induction c.cpuMap with
  | nil => exact .nil
  | cons e es ih => exact insertByStart_sorted ih

/-- The search for the `j`-th rom entry fails when there are at most `j`. -/
theorem findRom_eq_none {j k : Nat} {es : List MapEntry} :
    findRom j k es = none ↔ (es.filter fun e => e.kind = .rom).length ≤ j := by
  induction es generalizing j k with
  | nil => simp [findRom]
  | cons e es ih =>
    unfold findRom
    split <;> rename_i he
    · cases j with
      | zero => simp [he]
      | succ j => simp [ih, he]
    · simp [ih, he]

/-- The entry found is of kind rom and has `j` rom entries before it. -/
theorem findRom_eq_some {j k n : Nat} {es : List MapEntry} (h : findRom j k es = some n) :
    ∃ i e, n = k + i ∧ es[i]? = some e ∧ e.kind = .rom ∧
      ((es.take i).filter fun f => f.kind = .rom).length = j := by
  induction es generalizing j k with
  | nil => cases h
  | cons e es ih =>
    unfold findRom at h
    split at h <;> rename_i he
    · cases j with
      | zero =>
        cases h
        exact ⟨0, e, rfl, rfl, he, rfl⟩
      | succ j =>
        obtain ⟨i, f, rfl, hf, hk, hl⟩ := ih h
        exact ⟨i + 1, f, by omega, by simpa using hf, hk, by simp [he, hl]⟩
    · obtain ⟨i, f, rfl, hf, hk, hl⟩ := ih h
      exact ⟨i + 1, f, by omega, by simpa using hf, hk, by simp [he, hl]⟩

/-- Sorting keeps the number of rom entries. -/
theorem romCount_regions (c : Config) :
    ((cpuRegions c).filter fun e => e.kind = .rom).length = c.romCount :=
  ((cpuRegions_perm c).filter _).length_eq

/-- The first region that contains the address is found. -/
theorem findRegion_some {a : Addr} {k i : Nat} {es : List MapEntry} {e : MapEntry}
    (h : es[i]? = some e) (ha : e.first ≤ a.toNat ∧ a.toNat ≤ e.last)
    (hp : ∀ j f, j < i → es[j]? = some f → ¬(f.first ≤ a.toNat ∧ a.toNat ≤ f.last)) :
    findRegion a k es = some ⟨.cpuRegion (k + i), a.toNat - e.first⟩ := by
  induction es generalizing k i with
  | nil => simp at h
  | cons f fs ih =>
    unfold findRegion
    cases i with
    | zero =>
      obtain rfl : f = e := by simpa using h
      rw [if_pos ha]
      rfl
    | succ i =>
      rw [if_neg (hp 0 f (by omega) rfl), ih (i := i) (by simpa using h)]
      · rw [show k + 1 + i = k + (i + 1) by omega]
      · intro j g hj hg
        exact hp (j + 1) g (by omega) (by simpa using hg)

/-- No region is found when none contains the address. -/
theorem findRegion_none {a : Addr} {k : Nat} {es : List MapEntry}
    (h : ∀ e ∈ es, ¬(e.first ≤ a.toNat ∧ a.toNat ≤ e.last)) : findRegion a k es = none := by
  induction es generalizing k with
  | nil => rfl
  | cons e es ih =>
    unfold findRegion
    rw [if_neg (h e (by simp)), ih fun f hf => h f (by simp [hf])]

/-- What the check of CPU_MAP says. -/
theorem pairwiseDisjoint_iff (es : List MapEntry) :
    pairwiseDisjoint es = true ↔ es.Pairwise fun e f => e.last < f.first ∨ f.last < e.first := by
  induction es with
  | nil => simp [pairwiseDisjoint]
  | cons e es ih => simp [pairwiseDisjoint, ih, MapEntry.disjoint]

/-- The sorted regions are disjoint when the entries are. -/
theorem cpuRegions_disjoint {c : Config} (h : pairwiseDisjoint c.cpuMap = true) :
    (cpuRegions c).Pairwise fun e f => e.last < f.first ∨ f.last < e.first :=
  ((cpuRegions_perm c).pairwise_iff (by intro x y h; tauto)).2 ((pairwiseDisjoint_iff _).1 h)

/-- The groups of constraints of a configuration. -/
theorem Config.valid_iff (c : Config) : c.valid = true ↔
    c.beamValid = true ∧ c.ppuMapValid = true ∧ c.cpuMapValid = true ∧ c.tablesValid = true ∧
      c.framebufferValid = true ∧ c.capsValid = true := by
  simp [Config.valid, and_assoc]

end Sys2Proof.Machine
end

