-- ==== Sys2Proof/Laws/Memory.lean ====
section
/-! SUPPORT. The laws of memory: a byte written is the byte read, every other byte is left alone, and the canonical form is kept. -/

namespace Sys2Proof.Machine

/-! ### Keys -/

theorem Store.index_injective {a b : Store} (h : a.index = b.index) : a = b := by
  cases a <;> cases b <;> simp_all [Store.index]

@[simp] theorem Store.ofIndex_index (st : Store) : Store.ofIndex st.index = st := by
  cases st <;> rfl

/-- Two bytes with offsets inside 16 bits have the same key only if they are the same byte. -/
theorem Loc.key_injective {l l' : Loc} (h : l.off < 65536) (h' : l'.off < 65536)
    (hk : l.key = l'.key) : l = l' := by
  obtain ⟨st, off⟩ := l
  obtain ⟨st', off'⟩ := l'
  simp only [Loc.key] at *
  have hi : st.index = st'.index := by omega
  obtain rfl := Store.index_injective hi
  simp only [Loc.mk.injEq, true_and]
  omega

/-- The key of a byte gives back its store. -/
theorem Loc.key_store {l : Loc} (h : l.off < 65536) : Store.ofIndex (l.key / 65536) = l.store := by
  have : l.key / 65536 = l.store.index := by simp only [Loc.key]; omega
  rw [this, Store.ofIndex_index]

/-- What an unlisted byte of a store reads as. -/
theorem unlisted_key (c : Config) {l : Loc} (h : l.off < 65536) :
    unlisted c l.key = if l.store.memClass c = .rom then some 0 else none := by
  unfold unlisted
  rw [Loc.key_store h]
  cases l.store.memClass c <;> rfl

/-! ### The list of cells -/

theorem cellsFind_insert (k j : Nat) (v : Byte) (m : List Host.Cell) :
    cellsFind j (cellsInsert k v m) = if j = k then some v else cellsFind j m := by
  induction m with
  | nil => simp [cellsInsert, cellsFind, eq_comm]
  | cons cell m ih =>
    obtain ⟨i, b⟩ := cell
    unfold cellsInsert
    split
    · simp [cellsFind, eq_comm]
    · split
      · rename_i _ hk
        subst hk
        by_cases h : k = j <;> simp [cellsFind, h, eq_comm]
      · simp only [cellsFind, ih]
        by_cases h : i = j <;> by_cases h' : j = k <;> simp_all

theorem cellsFind_erase (k j : Nat) (m : List Host.Cell) :
    cellsFind j (cellsErase k m) = if j = k then none else cellsFind j m := by
  induction m with
  | nil => simp [cellsErase, cellsFind]
  | cons cell m ih =>
    obtain ⟨i, b⟩ := cell
    simp only [cellsErase] at ih ⊢
    by_cases hi : i = k
    · simp only [List.filter_cons, hi, ne_eq, not_true_eq_false, decide_false, Bool.false_eq_true,
        ↓reduceIte, ih, cellsFind]
      by_cases h : j = k
      · simp [h]
      · simp [h, Ne.symm h]
    · simp only [List.filter_cons, ne_eq, hi, not_false_eq_true, decide_true, ↓reduceIte, cellsFind, ih]
      by_cases h : j = k
      · subst h
        simp [hi]
      · simp [h]

/-- Read after write, at the same byte and at another, in terms of the value held. -/
theorem cellAt_put (c : Config) (m : List Host.Cell) (l l' : Loc) (v : Byte) :
    cellAt c (cellsPut c l.key v m) l' = if l'.key = l.key then some v else cellAt c m l' := by
  unfold cellAt cellsPut
  by_cases hu : unlisted c l.key = some v
  · rw [if_pos hu, cellsFind_erase]
    by_cases h : l'.key = l.key
    · simp [h, hu]
    · simp [h]
  · rw [if_neg hu, cellsFind_insert]
    by_cases h : l'.key = l.key <;> simp [h]

/-- Read after write, at the same byte and at another. -/
theorem byteOf_put (c : Config) (ep : Nat) (m : List Host.Cell) (l l' : Loc) (v : Byte) :
    byteOf c ep (cellsPut c l.key v m) l' = if l'.key = l.key then v else byteOf c ep m l' := by
  unfold byteOf
  rw [cellAt_put]
  by_cases h : l'.key = l.key <;> simp [h]

/-! ### The canonical form -/

theorem cellsSorted_cons (j : Nat) (b : Byte) (m : List Host.Cell) :
    cellsSorted ((j, b) :: m) = true ↔ (∀ x ∈ m, j < x.1) ∧ cellsSorted m = true := by
  induction m generalizing j b with
  | nil => simp [cellsSorted]
  | cons x m ih =>
    obtain ⟨k, d⟩ := x
    simp only [cellsSorted, Bool.and_eq_true, decide_eq_true_eq, List.mem_cons, forall_eq_or_imp]
    constructor
    · rintro ⟨hjk, hs⟩
      exact ⟨⟨hjk, fun y hy => lt_trans hjk (((ih k d).1 hs).1 y hy)⟩, hs⟩
    · rintro ⟨⟨hjk, _⟩, hs⟩
      exact ⟨hjk, hs⟩

theorem mem_cellsInsert {k : Nat} {v : Byte} {m : List Host.Cell} {x : Host.Cell}
    (h : x ∈ cellsInsert k v m) : x = (k, v) ∨ x ∈ m := by
  induction m with
  | nil => simpa [cellsInsert] using h
  | cons cell m ih =>
    obtain ⟨i, b⟩ := cell
    unfold cellsInsert at h
    split at h
    · simpa using h
    · split at h
      · simp only [List.mem_cons] at h ⊢
        tauto
      · simp only [List.mem_cons] at h ⊢
        rcases h with h | h
        · exact .inr (.inl h)
        · rcases ih h with h | h
          · exact .inl h
          · exact .inr (.inr h)

theorem cellsSorted_insert {k : Nat} {v : Byte} {m : List Host.Cell} (h : cellsSorted m = true) :
    cellsSorted (cellsInsert k v m) = true := by
  induction m with
  | nil => rfl
  | cons cell m ih =>
    obtain ⟨i, b⟩ := cell
    have hm := (cellsSorted_cons i b m).1 h
    unfold cellsInsert
    split
    · rename_i hki
      refine (cellsSorted_cons _ _ _).2 ⟨fun x hx => ?_, h⟩
      rcases List.mem_cons.1 hx with rfl | hx
      · exact hki
      · exact lt_trans hki (hm.1 x hx)
    · split
      · rename_i hki
        exact (cellsSorted_cons _ _ _).2 ⟨fun x hx => hki ▸ hm.1 x hx, hm.2⟩
      · refine (cellsSorted_cons _ _ _).2 ⟨fun x hx => ?_, ih hm.2⟩
        rcases mem_cellsInsert hx with rfl | hx
        · omega
        · exact hm.1 x hx

theorem cellsSorted_erase {k : Nat} {m : List Host.Cell} (h : cellsSorted m = true) :
    cellsSorted (cellsErase k m) = true := by
  induction m with
  | nil => rfl
  | cons cell m ih =>
    obtain ⟨i, b⟩ := cell
    have hm := (cellsSorted_cons i b m).1 h
    unfold cellsErase at ih ⊢
    rw [List.filter_cons]
    split
    · exact (cellsSorted_cons _ _ _).2 ⟨fun x hx => hm.1 x (List.mem_filter.1 hx).1, ih hm.2⟩
    · exact ih hm.2

/-- Writing a byte keeps the canonical form. -/
theorem Memory.wf_put {c : Config} {m : List Host.Cell} (k : Nat) (v : Byte)
    (h : Memory.wf c m = true) : Memory.wf c (cellsPut c k v m) = true := by
  simp only [Memory.wf, Bool.and_eq_true, List.all_eq_true] at h ⊢
  unfold cellsPut
  split
  · exact ⟨cellsSorted_erase h.1, fun x hx => h.2 x (List.mem_filter.1 hx).1⟩
  · rename_i hu
    refine ⟨cellsSorted_insert h.1, fun x hx => ?_⟩
    rcases mem_cellsInsert hx with rfl | hx
    · simpa using hu
    · exact h.2 x hx

/-- A fold of operations that keep the canonical form keeps it. -/
theorem Memory.wf_foldl {α : Type} {c : Config} (f : List Host.Cell → α → List Host.Cell)
    (hf : ∀ m a, Memory.wf c m = true → Memory.wf c (f m a) = true) (xs : List α) (m : List Host.Cell)
    (h : Memory.wf c m = true) : Memory.wf c (xs.foldl f m) = true := by
  induction xs generalizing m with
  | nil => exact h
  | cons x xs ih => exact ih _ (hf m x h)

theorem Memory.wf_fbSet {c : Config} {m : List Host.Cell} (ep x y : Nat) (v : Byte)
    (h : Memory.wf c m = true) : Memory.wf c (fbSet c ep x y v m) = true := by
  unfold fbSet
  cases c.ppb <;> exact Memory.wf_put _ _ h

theorem Memory.wf_drawTile {c : Config} {m : List Host.Cell} (ep : Nat) (e : Byte) (x0 y0 : Nat)
    (h : Memory.wf c m = true) : Memory.wf c (drawTile c ep e x0 y0 m) = true := by
  refine Memory.wf_foldl _ (fun m rc hm => ?_) _ _ h
  unfold drawPixel
  split
  · exact Memory.wf_fbSet _ _ _ _ hm
  · exact hm

theorem Memory.wf_advanceAnim {c : Config} {m : List Host.Cell} (ep i : Nat) (info : SlotInfo)
    (h : Memory.wf c m = true) : Memory.wf c (advanceAnim c ep i info m) = true := by
  unfold advanceAnim
  split
  · simp only
    split
    · exact Memory.wf_put _ _ (Memory.wf_put _ _ h)
    · exact Memory.wf_put _ _ h
  · exact Memory.wf_put _ _ h

theorem Memory.wf_renderSlot {c : Config} {m : List Host.Cell} (ep i : Nat)
    (h : Memory.wf c m = true) : Memory.wf c (renderSlot c ep m i) = true :=
  Memory.wf_drawTile _ _ _ _ (Memory.wf_advanceAnim _ _ _ h)

/-- A render pass keeps the canonical form. -/
theorem Memory.wf_renderSlots {c : Config} {ep : Nat} {is : List Nat} {m m' : List Host.Cell}
    (h : Memory.wf c m = true) (hr : renderSlots c ep is m = some m') : Memory.wf c m' = true := by
  induction is generalizing m with
  | nil => exact (Option.some.inj hr) ▸ h
  | cons i is ih =>
    unfold renderSlots at hr
    split at hr
    · exact ih (Memory.wf_renderSlot ep i h) hr
    · cases hr

/-! ### The same for the state -/

theorem State.byteAt_setByte (s : State) (l l' : Loc) (v : Byte) :
    (s.setByte l v).byteAt l' = if l'.key = l.key then v else s.byteAt l' :=
  byteOf_put s.cfg s.ramEpoch s.mem l l' v

@[simp] theorem State.byteAt_setByte_self (s : State) (l : Loc) (v : Byte) :
    (s.setByte l v).byteAt l = v := by
  rw [State.byteAt_setByte, if_pos rfl]

/-- A write leaves every other byte alone. -/
theorem State.byteAt_setByte_other (s : State) {l l' : Loc} (v : Byte) (h : l.off < 65536)
    (h' : l'.off < 65536) (hne : l' ≠ l) : (s.setByte l v).byteAt l' = s.byteAt l' := by
  rw [State.byteAt_setByte, if_neg fun hk => hne (Loc.key_injective h' h hk)]

/-- A byte is the same in two states with the same configuration, reset number and memory. -/
theorem State.byteAt_congr {s t : State} (hc : t.cfg = s.cfg) (he : t.ramEpoch = s.ramEpoch)
    (hm : t.mem = s.mem) (l : Loc) : t.byteAt l = s.byteAt l := by
  simp only [State.byteAt, hc, he, hm]

theorem State.storeBytes_eq (s : State) (st : Store) (off : Nat) (bs : List Byte) :
    s.storeBytes st off bs = { s with mem := (s.storeBytes st off bs).mem } := by
  induction bs generalizing s off with
  | nil => rfl
  | cons b bs ih =>
    rw [State.storeBytes, ih]
    rfl

/-- LOADROM's copy keeps the canonical form. -/
theorem Memory.wf_storeBytes {s : State} (st : Store) (off : Nat) (bs : List Byte)
    (h : Memory.wf s.cfg s.mem = true) : Memory.wf s.cfg (s.storeBytes st off bs).mem = true := by
  induction bs generalizing s off with
  | nil => exact h
  | cons b bs ih => exact ih (s := s.setByte ⟨st, off⟩ b) (off + 1) (Memory.wf_put _ _ h)

/-- LOADROM's copy, byte by byte: inside the copied range the byte of the list, elsewhere what was there. -/
theorem State.byteAt_storeBytes (s : State) (st : Store) (off : Nat) (bs : List Byte) (l : Loc)
    (hl : l.off < 65536) (hfit : off + bs.length ≤ 65536) :
    (s.storeBytes st off bs).byteAt l =
      if l.store = st ∧ off ≤ l.off ∧ l.off < off + bs.length then bs.getD (l.off - off) 0
      else s.byteAt l := by
  induction bs generalizing s off with
  | nil =>
    rw [if_neg (by simp only [List.length_nil]; omega)]
    rfl
  | cons b bs ih =>
    simp only [List.length_cons] at hfit
    rw [State.storeBytes, ih _ _ (by omega)]
    simp only [List.length_cons]
    by_cases h1 : l.store = st ∧ off + 1 ≤ l.off ∧ l.off < off + 1 + bs.length
    · rw [if_pos h1, if_pos ⟨h1.1, by omega, by omega⟩]
      obtain ⟨n, hn⟩ : ∃ n, l.off - off = n + 1 := ⟨l.off - off - 1, by omega⟩
      rw [hn, List.getD_cons_succ, show l.off - (off + 1) = n by omega]
    · rw [if_neg h1]
      by_cases h2 : l = ⟨st, off⟩
      · subst h2
        rw [if_pos (by simp), State.byteAt_setByte_self]
        simp
      · rw [State.byteAt_setByte_other _ _ (by simp only; omega) hl h2, if_neg]
        rintro ⟨h3, h4, h5⟩
        apply h2
        obtain ⟨a, o⟩ := l
        simp only at *
        simp only [Loc.mk.injEq]
        refine ⟨h3, ?_⟩
        by_contra h6
        exact h1 ⟨h3, by omega, by omega⟩

end Sys2Proof.Machine
end

