-- ==== Sys2Proof/Laws/State.lean ====
section
/-! SUPPORT. The small lemmas of the updates of State: what each leaves in every field. -/

namespace Sys2Proof.Machine

variable (s : State)

/-! ### `State.emit` -/

@[simp] theorem State.emit_cfg (e : Event) : (s.emit e).cfg = s.cfg := rfl
@[simp] theorem State.emit_sect (e : Event) : (s.emit e).sect = s.sect := rfl
@[simp] theorem State.emit_hCounter (e : Event) : (s.emit e).hCounter = s.hCounter := rfl
@[simp] theorem State.emit_vCounter (e : Event) : (s.emit e).vCounter = s.vCounter := rfl
@[simp] theorem State.emit_prevSection (e : Event) : (s.emit e).prevSection = s.prevSection := rfl
@[simp] theorem State.emit_waitTarget (e : Event) : (s.emit e).waitTarget = s.waitTarget := rfl
@[simp] theorem State.emit_halted (e : Event) : (s.emit e).halted = s.halted := rfl
@[simp] theorem State.emit_haltCause (e : Event) : (s.emit e).haltCause = s.haltCause := rfl
@[simp] theorem State.emit_mem (e : Event) : (s.emit e).mem = s.mem := rfl
@[simp] theorem State.emit_cpu (e : Event) : (s.emit e).cpu = s.cpu := rfl
@[simp] theorem State.emit_ppu (e : Event) : (s.emit e).ppu = s.ppu := rfl
@[simp] theorem State.emit_rsp (e : Event) : (s.emit e).rsp = s.rsp := rfl
@[simp] theorem State.emit_calls (e : Event) : (s.emit e).calls = s.calls := rfl
@[simp] theorem State.emit_out (e : Event) : (s.emit e).out = s.out ++ [e] := rfl
@[simp] theorem State.emit_inbox (e : Event) : (s.emit e).inbox = s.inbox := rfl
@[simp] theorem State.emit_env (e : Event) : (s.emit e).env = s.env := rfl
@[simp] theorem State.emit_ramEpoch (e : Event) : (s.emit e).ramEpoch = s.ramEpoch := rfl
@[simp] theorem State.emit_freeCount (e : Event) : (s.emit e).freeCount = s.freeCount := rfl
@[simp] theorem State.emit_proc (e : Event) (p : Proc) : (s.emit e).proc p = s.proc p := by cases p <;> rfl

/-! ### `State.emitAll` -/

@[simp] theorem State.emitAll_cfg (es : List Event) : (s.emitAll es).cfg = s.cfg := rfl
@[simp] theorem State.emitAll_sect (es : List Event) : (s.emitAll es).sect = s.sect := rfl
@[simp] theorem State.emitAll_hCounter (es : List Event) : (s.emitAll es).hCounter = s.hCounter := rfl
@[simp] theorem State.emitAll_vCounter (es : List Event) : (s.emitAll es).vCounter = s.vCounter := rfl
@[simp] theorem State.emitAll_prevSection (es : List Event) : (s.emitAll es).prevSection = s.prevSection := rfl
@[simp] theorem State.emitAll_waitTarget (es : List Event) : (s.emitAll es).waitTarget = s.waitTarget := rfl
@[simp] theorem State.emitAll_halted (es : List Event) : (s.emitAll es).halted = s.halted := rfl
@[simp] theorem State.emitAll_haltCause (es : List Event) : (s.emitAll es).haltCause = s.haltCause := rfl
@[simp] theorem State.emitAll_mem (es : List Event) : (s.emitAll es).mem = s.mem := rfl
@[simp] theorem State.emitAll_cpu (es : List Event) : (s.emitAll es).cpu = s.cpu := rfl
@[simp] theorem State.emitAll_ppu (es : List Event) : (s.emitAll es).ppu = s.ppu := rfl
@[simp] theorem State.emitAll_rsp (es : List Event) : (s.emitAll es).rsp = s.rsp := rfl
@[simp] theorem State.emitAll_calls (es : List Event) : (s.emitAll es).calls = s.calls := rfl
@[simp] theorem State.emitAll_out (es : List Event) : (s.emitAll es).out = s.out ++ es := rfl
@[simp] theorem State.emitAll_inbox (es : List Event) : (s.emitAll es).inbox = s.inbox := rfl
@[simp] theorem State.emitAll_env (es : List Event) : (s.emitAll es).env = s.env := rfl
@[simp] theorem State.emitAll_ramEpoch (es : List Event) : (s.emitAll es).ramEpoch = s.ramEpoch := rfl
@[simp] theorem State.emitAll_freeCount (es : List Event) : (s.emitAll es).freeCount = s.freeCount := rfl
@[simp] theorem State.emitAll_proc (es : List Event) (p : Proc) : (s.emitAll es).proc p = s.proc p := by cases p <;> rfl

/-! ### `State.diag` -/

@[simp] theorem State.diag_cfg (k : Anomaly) (i : DiagInfo) : (s.diag k i).cfg = s.cfg := rfl
@[simp] theorem State.diag_sect (k : Anomaly) (i : DiagInfo) : (s.diag k i).sect = s.sect := rfl
@[simp] theorem State.diag_hCounter (k : Anomaly) (i : DiagInfo) : (s.diag k i).hCounter = s.hCounter := rfl
@[simp] theorem State.diag_vCounter (k : Anomaly) (i : DiagInfo) : (s.diag k i).vCounter = s.vCounter := rfl
@[simp] theorem State.diag_prevSection (k : Anomaly) (i : DiagInfo) : (s.diag k i).prevSection = s.prevSection := rfl
@[simp] theorem State.diag_waitTarget (k : Anomaly) (i : DiagInfo) : (s.diag k i).waitTarget = s.waitTarget := rfl
@[simp] theorem State.diag_halted (k : Anomaly) (i : DiagInfo) : (s.diag k i).halted = s.halted := rfl
@[simp] theorem State.diag_haltCause (k : Anomaly) (i : DiagInfo) : (s.diag k i).haltCause = s.haltCause := rfl
@[simp] theorem State.diag_mem (k : Anomaly) (i : DiagInfo) : (s.diag k i).mem = s.mem := rfl
@[simp] theorem State.diag_cpu (k : Anomaly) (i : DiagInfo) : (s.diag k i).cpu = s.cpu := rfl
@[simp] theorem State.diag_ppu (k : Anomaly) (i : DiagInfo) : (s.diag k i).ppu = s.ppu := rfl
@[simp] theorem State.diag_rsp (k : Anomaly) (i : DiagInfo) : (s.diag k i).rsp = s.rsp := rfl
@[simp] theorem State.diag_calls (k : Anomaly) (i : DiagInfo) : (s.diag k i).calls = s.calls := rfl
@[simp] theorem State.diag_out (k : Anomaly) (i : DiagInfo) : (s.diag k i).out = s.out ++ [.diag k i] := rfl
@[simp] theorem State.diag_inbox (k : Anomaly) (i : DiagInfo) : (s.diag k i).inbox = s.inbox := rfl
@[simp] theorem State.diag_env (k : Anomaly) (i : DiagInfo) : (s.diag k i).env = s.env := rfl
@[simp] theorem State.diag_ramEpoch (k : Anomaly) (i : DiagInfo) : (s.diag k i).ramEpoch = s.ramEpoch := rfl
@[simp] theorem State.diag_freeCount (k : Anomaly) (i : DiagInfo) : (s.diag k i).freeCount = s.freeCount := rfl
@[simp] theorem State.diag_proc (k : Anomaly) (i : DiagInfo) (p : Proc) : (s.diag k i).proc p = s.proc p := by cases p <;> rfl

/-! ### `State.respond` -/

@[simp] theorem State.respond_cfg (b : Byte) : (s.respond b).cfg = s.cfg := rfl
@[simp] theorem State.respond_sect (b : Byte) : (s.respond b).sect = s.sect := rfl
@[simp] theorem State.respond_hCounter (b : Byte) : (s.respond b).hCounter = s.hCounter := rfl
@[simp] theorem State.respond_vCounter (b : Byte) : (s.respond b).vCounter = s.vCounter := rfl
@[simp] theorem State.respond_prevSection (b : Byte) : (s.respond b).prevSection = s.prevSection := rfl
@[simp] theorem State.respond_waitTarget (b : Byte) : (s.respond b).waitTarget = s.waitTarget := rfl
@[simp] theorem State.respond_halted (b : Byte) : (s.respond b).halted = s.halted := rfl
@[simp] theorem State.respond_haltCause (b : Byte) : (s.respond b).haltCause = s.haltCause := rfl
@[simp] theorem State.respond_mem (b : Byte) : (s.respond b).mem = s.mem := rfl
@[simp] theorem State.respond_cpu (b : Byte) : (s.respond b).cpu = s.cpu := rfl
@[simp] theorem State.respond_ppu (b : Byte) : (s.respond b).ppu = s.ppu := rfl
@[simp] theorem State.respond_rsp (b : Byte) : (s.respond b).rsp = .data b := rfl
@[simp] theorem State.respond_calls (b : Byte) : (s.respond b).calls = s.calls := rfl
@[simp] theorem State.respond_out (b : Byte) : (s.respond b).out = s.out := rfl
@[simp] theorem State.respond_inbox (b : Byte) : (s.respond b).inbox = s.inbox := rfl
@[simp] theorem State.respond_env (b : Byte) : (s.respond b).env = s.env := rfl
@[simp] theorem State.respond_ramEpoch (b : Byte) : (s.respond b).ramEpoch = s.ramEpoch := rfl
@[simp] theorem State.respond_freeCount (b : Byte) : (s.respond b).freeCount = s.freeCount := rfl
@[simp] theorem State.respond_proc (b : Byte) (p : Proc) : (s.respond b).proc p = s.proc p := by cases p <;> rfl

/-! ### `State.call` -/

@[simp] theorem State.call_cfg (k : ExecCall) : (s.call k).cfg = s.cfg := rfl
@[simp] theorem State.call_sect (k : ExecCall) : (s.call k).sect = s.sect := rfl
@[simp] theorem State.call_hCounter (k : ExecCall) : (s.call k).hCounter = s.hCounter := rfl
@[simp] theorem State.call_vCounter (k : ExecCall) : (s.call k).vCounter = s.vCounter := rfl
@[simp] theorem State.call_prevSection (k : ExecCall) : (s.call k).prevSection = s.prevSection := rfl
@[simp] theorem State.call_waitTarget (k : ExecCall) : (s.call k).waitTarget = s.waitTarget := rfl
@[simp] theorem State.call_halted (k : ExecCall) : (s.call k).halted = s.halted := rfl
@[simp] theorem State.call_haltCause (k : ExecCall) : (s.call k).haltCause = s.haltCause := rfl
@[simp] theorem State.call_mem (k : ExecCall) : (s.call k).mem = s.mem := rfl
@[simp] theorem State.call_cpu (k : ExecCall) : (s.call k).cpu = s.cpu := rfl
@[simp] theorem State.call_ppu (k : ExecCall) : (s.call k).ppu = s.ppu := rfl
@[simp] theorem State.call_rsp (k : ExecCall) : (s.call k).rsp = s.rsp := rfl
@[simp] theorem State.call_calls (k : ExecCall) : (s.call k).calls = s.calls ++ [k] := rfl
@[simp] theorem State.call_out (k : ExecCall) : (s.call k).out = s.out := rfl
@[simp] theorem State.call_inbox (k : ExecCall) : (s.call k).inbox = s.inbox := rfl
@[simp] theorem State.call_env (k : ExecCall) : (s.call k).env = s.env := rfl
@[simp] theorem State.call_ramEpoch (k : ExecCall) : (s.call k).ramEpoch = s.ramEpoch := rfl
@[simp] theorem State.call_freeCount (k : ExecCall) : (s.call k).freeCount = s.freeCount := rfl
@[simp] theorem State.call_proc (k : ExecCall) (p : Proc) : (s.call k).proc p = s.proc p := by cases p <;> rfl

/-! ### `State.setByte` -/

@[simp] theorem State.setByte_cfg (l : Loc) (v : Byte) : (s.setByte l v).cfg = s.cfg := rfl
@[simp] theorem State.setByte_sect (l : Loc) (v : Byte) : (s.setByte l v).sect = s.sect := rfl
@[simp] theorem State.setByte_hCounter (l : Loc) (v : Byte) : (s.setByte l v).hCounter = s.hCounter := rfl
@[simp] theorem State.setByte_vCounter (l : Loc) (v : Byte) : (s.setByte l v).vCounter = s.vCounter := rfl
@[simp] theorem State.setByte_prevSection (l : Loc) (v : Byte) : (s.setByte l v).prevSection = s.prevSection := rfl
@[simp] theorem State.setByte_waitTarget (l : Loc) (v : Byte) : (s.setByte l v).waitTarget = s.waitTarget := rfl
@[simp] theorem State.setByte_halted (l : Loc) (v : Byte) : (s.setByte l v).halted = s.halted := rfl
@[simp] theorem State.setByte_haltCause (l : Loc) (v : Byte) : (s.setByte l v).haltCause = s.haltCause := rfl
@[simp] theorem State.setByte_mem (l : Loc) (v : Byte) : (s.setByte l v).mem = cellsPut s.cfg l.key v s.mem := rfl
@[simp] theorem State.setByte_cpu (l : Loc) (v : Byte) : (s.setByte l v).cpu = s.cpu := rfl
@[simp] theorem State.setByte_ppu (l : Loc) (v : Byte) : (s.setByte l v).ppu = s.ppu := rfl
@[simp] theorem State.setByte_rsp (l : Loc) (v : Byte) : (s.setByte l v).rsp = s.rsp := rfl
@[simp] theorem State.setByte_calls (l : Loc) (v : Byte) : (s.setByte l v).calls = s.calls := rfl
@[simp] theorem State.setByte_out (l : Loc) (v : Byte) : (s.setByte l v).out = s.out := rfl
@[simp] theorem State.setByte_inbox (l : Loc) (v : Byte) : (s.setByte l v).inbox = s.inbox := rfl
@[simp] theorem State.setByte_env (l : Loc) (v : Byte) : (s.setByte l v).env = s.env := rfl
@[simp] theorem State.setByte_ramEpoch (l : Loc) (v : Byte) : (s.setByte l v).ramEpoch = s.ramEpoch := rfl
@[simp] theorem State.setByte_freeCount (l : Loc) (v : Byte) : (s.setByte l v).freeCount = s.freeCount := rfl
@[simp] theorem State.setByte_proc (l : Loc) (v : Byte) (p : Proc) : (s.setByte l v).proc p = s.proc p := by cases p <;> rfl

/-! ### `State.accept` -/

@[simp] theorem State.accept_cfg (rest : List Input) (env : Env) : (s.accept rest env).cfg = s.cfg := rfl
@[simp] theorem State.accept_sect (rest : List Input) (env : Env) : (s.accept rest env).sect = s.sect := rfl
@[simp] theorem State.accept_hCounter (rest : List Input) (env : Env) : (s.accept rest env).hCounter = s.hCounter := rfl
@[simp] theorem State.accept_vCounter (rest : List Input) (env : Env) : (s.accept rest env).vCounter = s.vCounter := rfl
@[simp] theorem State.accept_prevSection (rest : List Input) (env : Env) : (s.accept rest env).prevSection = s.prevSection := rfl
@[simp] theorem State.accept_waitTarget (rest : List Input) (env : Env) : (s.accept rest env).waitTarget = s.waitTarget := rfl
@[simp] theorem State.accept_halted (rest : List Input) (env : Env) : (s.accept rest env).halted = s.halted := rfl
@[simp] theorem State.accept_haltCause (rest : List Input) (env : Env) : (s.accept rest env).haltCause = s.haltCause := rfl
@[simp] theorem State.accept_mem (rest : List Input) (env : Env) : (s.accept rest env).mem = s.mem := rfl
@[simp] theorem State.accept_cpu (rest : List Input) (env : Env) : (s.accept rest env).cpu = s.cpu := rfl
@[simp] theorem State.accept_ppu (rest : List Input) (env : Env) : (s.accept rest env).ppu = s.ppu := rfl
@[simp] theorem State.accept_rsp (rest : List Input) (env : Env) : (s.accept rest env).rsp = .idle := rfl
@[simp] theorem State.accept_calls (rest : List Input) (env : Env) : (s.accept rest env).calls = [] := rfl
@[simp] theorem State.accept_out (rest : List Input) (env : Env) : (s.accept rest env).out = s.out := rfl
@[simp] theorem State.accept_inbox (rest : List Input) (env : Env) : (s.accept rest env).inbox = rest := rfl
@[simp] theorem State.accept_env (rest : List Input) (env : Env) : (s.accept rest env).env = env := rfl
@[simp] theorem State.accept_ramEpoch (rest : List Input) (env : Env) : (s.accept rest env).ramEpoch = s.ramEpoch := rfl
@[simp] theorem State.accept_freeCount (rest : List Input) (env : Env) : (s.accept rest env).freeCount = s.freeCount := rfl
@[simp] theorem State.accept_proc (rest : List Input) (env : Env) (p : Proc) : (s.accept rest env).proc p = s.proc p := by cases p <;> rfl

/-! ### `State.turnAway` -/

@[simp] theorem State.turnAway_cfg (r : Refusal) : (s.turnAway r).cfg = s.cfg := rfl
@[simp] theorem State.turnAway_sect (r : Refusal) : (s.turnAway r).sect = s.sect := rfl
@[simp] theorem State.turnAway_hCounter (r : Refusal) : (s.turnAway r).hCounter = s.hCounter := rfl
@[simp] theorem State.turnAway_vCounter (r : Refusal) : (s.turnAway r).vCounter = s.vCounter := rfl
@[simp] theorem State.turnAway_prevSection (r : Refusal) : (s.turnAway r).prevSection = s.prevSection := rfl
@[simp] theorem State.turnAway_waitTarget (r : Refusal) : (s.turnAway r).waitTarget = s.waitTarget := rfl
@[simp] theorem State.turnAway_halted (r : Refusal) : (s.turnAway r).halted = s.halted := rfl
@[simp] theorem State.turnAway_haltCause (r : Refusal) : (s.turnAway r).haltCause = s.haltCause := rfl
@[simp] theorem State.turnAway_mem (r : Refusal) : (s.turnAway r).mem = s.mem := rfl
@[simp] theorem State.turnAway_cpu (r : Refusal) : (s.turnAway r).cpu = s.cpu := rfl
@[simp] theorem State.turnAway_ppu (r : Refusal) : (s.turnAway r).ppu = s.ppu := rfl
@[simp] theorem State.turnAway_rsp (r : Refusal) : (s.turnAway r).rsp = .refused r := rfl
@[simp] theorem State.turnAway_calls (r : Refusal) : (s.turnAway r).calls = s.calls := rfl
@[simp] theorem State.turnAway_out (r : Refusal) : (s.turnAway r).out = s.out := rfl
@[simp] theorem State.turnAway_inbox (r : Refusal) : (s.turnAway r).inbox = s.inbox := rfl
@[simp] theorem State.turnAway_env (r : Refusal) : (s.turnAway r).env = s.env := rfl
@[simp] theorem State.turnAway_ramEpoch (r : Refusal) : (s.turnAway r).ramEpoch = s.ramEpoch := rfl
@[simp] theorem State.turnAway_freeCount (r : Refusal) : (s.turnAway r).freeCount = s.freeCount := rfl
@[simp] theorem State.turnAway_proc (r : Refusal) (p : Proc) : (s.turnAway r).proc p = s.proc p := by cases p <;> rfl

/-! ### `State.setProc` -/

@[simp] theorem State.setProc_cfg (p : Proc) (x : ProcState) : (s.setProc p x).cfg = s.cfg := by cases p <;> rfl
@[simp] theorem State.setProc_sect (p : Proc) (x : ProcState) : (s.setProc p x).sect = s.sect := by cases p <;> rfl
@[simp] theorem State.setProc_hCounter (p : Proc) (x : ProcState) : (s.setProc p x).hCounter = s.hCounter := by cases p <;> rfl
@[simp] theorem State.setProc_vCounter (p : Proc) (x : ProcState) : (s.setProc p x).vCounter = s.vCounter := by cases p <;> rfl
@[simp] theorem State.setProc_prevSection (p : Proc) (x : ProcState) : (s.setProc p x).prevSection = s.prevSection := by cases p <;> rfl
@[simp] theorem State.setProc_waitTarget (p : Proc) (x : ProcState) : (s.setProc p x).waitTarget = s.waitTarget := by cases p <;> rfl
@[simp] theorem State.setProc_halted (p : Proc) (x : ProcState) : (s.setProc p x).halted = s.halted := by cases p <;> rfl
@[simp] theorem State.setProc_haltCause (p : Proc) (x : ProcState) : (s.setProc p x).haltCause = s.haltCause := by cases p <;> rfl
@[simp] theorem State.setProc_mem (p : Proc) (x : ProcState) : (s.setProc p x).mem = s.mem := by cases p <;> rfl
@[simp] theorem State.setProc_rsp (p : Proc) (x : ProcState) : (s.setProc p x).rsp = s.rsp := by cases p <;> rfl
@[simp] theorem State.setProc_calls (p : Proc) (x : ProcState) : (s.setProc p x).calls = s.calls := by cases p <;> rfl
@[simp] theorem State.setProc_out (p : Proc) (x : ProcState) : (s.setProc p x).out = s.out := by cases p <;> rfl
@[simp] theorem State.setProc_inbox (p : Proc) (x : ProcState) : (s.setProc p x).inbox = s.inbox := by cases p <;> rfl
@[simp] theorem State.setProc_env (p : Proc) (x : ProcState) : (s.setProc p x).env = s.env := by cases p <;> rfl
@[simp] theorem State.setProc_ramEpoch (p : Proc) (x : ProcState) : (s.setProc p x).ramEpoch = s.ramEpoch := by cases p <;> rfl
@[simp] theorem State.setProc_freeCount (p : Proc) (x : ProcState) : (s.setProc p x).freeCount = s.freeCount := by cases p <;> rfl
@[simp] theorem State.setProc_cpu_cpu (x : ProcState) : (s.setProc .cpu x).cpu = x := rfl
@[simp] theorem State.setProc_cpu_ppu (x : ProcState) : (s.setProc .cpu x).ppu = s.ppu := rfl
@[simp] theorem State.setProc_ppu_cpu (x : ProcState) : (s.setProc .ppu x).cpu = s.cpu := rfl
@[simp] theorem State.setProc_ppu_ppu (x : ProcState) : (s.setProc .ppu x).ppu = x := rfl
@[simp] theorem State.proc_setProc_self (p : Proc) (x : ProcState) : (s.setProc p x).proc p = x := by cases p <;> rfl
theorem State.proc_setProc (p q : Proc) (x : ProcState) :
    (s.setProc p x).proc q = if q = p then x else s.proc q := by cases p <;> cases q <;> rfl
@[simp] theorem State.setProc_proc_self (p : Proc) : s.setProc p (s.proc p) = s := by cases p <;> rfl
@[simp] theorem State.setProc_setProc (p : Proc) (x y : ProcState) : (s.setProc p x).setProc p y = s.setProc p y := by
  cases p <;> rfl
@[simp] theorem State.proc_cpu : s.proc .cpu = s.cpu := rfl
@[simp] theorem State.proc_ppu : s.proc .ppu = s.ppu := rfl

end Sys2Proof.Machine
end

