-- ==== Sys2Proof/Laws/Ops.lean ====
section
/-! SUPPORT. One lemma for each shared operation: everything it can do. -/

namespace Sys2Proof.Machine

/-! ### Sequencing -/

@[simp] theorem andThen_next (s : State) (f : State → Result) : andThen (.next s) f = f s := rfl
@[simp] theorem andThen_fault (e : Fault) (f : State → Result) : andThen (.fault e) f = .fault e := rfl
@[simp] theorem andThen_refused (e : Refusal) (f : State → Result) :
    andThen (.refused e) f = .refused e := rfl

theorem andThen_eq_next {r : Result} {f : State → Result} {t : State} :
    andThen r f = .next t ↔ ∃ s, r = .next s ∧ f s = .next t := by
  cases r <;> simp

theorem andThen_eq_fault {r : Result} {f : State → Result} {e : Fault} :
    andThen r f = .fault e ↔ r = .fault e ∨ ∃ s, r = .next s ∧ f s = .fault e := by
  cases r <;> simp

theorem andThen_eq_refused {r : Result} {f : State → Result} {e : Refusal} :
    andThen r f = .refused e ↔ r = .refused e ∨ ∃ s, r = .next s ∧ f s = .refused e := by
  cases r <;> simp

/-! ### Reads -/

theorem resolvePpu_off_lt (c : Config) (a : Addr) : (resolvePpu c a).off < 65536 := by
  have := a.isLt
  unfold resolvePpu
  repeat' split
  all_goals simp only; omega

theorem findRegion_off_lt {a : Addr} {k : Nat} {es : List MapEntry} {l : Loc}
    (h : findRegion a k es = some l) : l.off < 65536 := by
  have := a.isLt
  induction es generalizing k with
  | nil => cases h
  | cons e es ih =>
    unfold findRegion at h
    split at h
    · obtain rfl := Option.some.inj h
      simp only
      omega
    · exact ih h

theorem fallbackWindow_off_lt {c : Config} {a : Addr} {l : Loc}
    (h : fallbackWindow c a = some l) : l.off < 65536 := by
  unfold fallbackWindow at h
  simp only at h
  split at h
  · obtain rfl := Option.some.inj h
    exact (a - c.cpuSharedBase).isLt
  · cases h

theorem resolveCpu_off_lt {c : Config} {a : Addr} {l : Loc} (h : resolveCpu c a = some l) :
    l.off < 65536 := by
  unfold resolveCpu at h
  split at h
  · rename_i hf
    exact findRegion_off_lt (Option.some.inj h ▸ hf)
  · exact fallbackWindow_off_lt h

/-- A read changes at most the count of free values. -/
theorem State.read_state (s : State) (p : Proc) (a : Addr) :
    (s.read p a).2 = { s with freeCount := (s.read p a).2.freeCount } := by
  cases p with
  | ppu => rfl
  | cpu =>
    simp only [State.read, State.cpuRead]
    split <;> rfl

theorem State.opcodePair_state (s : State) (p : Proc) :
    (s.opcodePair p).2 = { s with freeCount := (s.opcodePair p).2.freeCount } := by
  simp only [State.opcodePair]
  rw [State.read_state, State.read_state]

theorem State.stackTop_state (s : State) (p : Proc) :
    (s.stackTop p).2 = { s with freeCount := (s.stackTop p).2.freeCount } := by
  simp only [State.stackTop]
  rw [State.read_state, State.read_state]

/-! ### Writes -/

/-- In RAM a program-origin write is the write of a byte. -/
theorem State.progWrite_ram {s : State} {p : Proc} {a : Addr} {l : Loc} {d : Byte}
    (h : l.store.memClass s.cfg = .ram) : s.progWrite p a l d = s.setByte l d := by
  simp only [State.progWrite, h]

/-- In ROM a program-origin write logs the anomaly and stores as the profile says. -/
theorem State.progWrite_rom {s : State} {p : Proc} {a : Addr} {l : Loc} {d : Byte}
    (h : l.store.memClass s.cfg = .rom) :
    s.progWrite p a l d =
      if s.cfg.romWriteStores then (s.diag .writeToRom (.write p a d)).setByte l d
      else s.diag .writeToRom (.write p a d) := by
  unfold State.progWrite
  rw [h]

/-- A program-origin write changes memory and the output stream only. -/
theorem State.progWrite_state (s : State) (p : Proc) (a : Addr) (l : Loc) (d : Byte) :
    s.progWrite p a l d =
      { s with mem := (s.progWrite p a l d).mem, out := (s.progWrite p a l d).out } := by
  cases hc : l.store.memClass s.cfg with
  | ram => rw [State.progWrite_ram hc]; rfl
  | rom => rw [State.progWrite_rom hc]; split <;> rfl

/-- A program-origin write leaves every byte but its own alone. -/
theorem State.byteAt_progWrite_other (s : State) (p : Proc) (a : Addr) {l l' : Loc} (d : Byte)
    (h : l.off < 65536) (h' : l'.off < 65536) (hne : l' ≠ l) :
    (s.progWrite p a l d).byteAt l' = s.byteAt l' := by
  cases hc : l.store.memClass s.cfg with
  | ram => rw [State.progWrite_ram hc, State.byteAt_setByte_other _ _ h h' hne]
  | rom =>
    rw [State.progWrite_rom hc]
    split
    · rw [State.byteAt_setByte_other _ _ h h' hne]
      rfl
    · rfl

/-- A main-CPU write changes memory and the output stream only. -/
theorem State.cpuWrite_state (s : State) (a : Addr) (d : Byte) :
    s.cpuWrite a d = { s with mem := (s.cpuWrite a d).mem, out := (s.cpuWrite a d).out } := by
  unfold State.cpuWrite
  split
  · exact State.progWrite_state _ _ _ _ _
  · rfl

/-- The events an operation appends are at the end of the stream. -/
theorem State.progWrite_out (s : State) (p : Proc) (a : Addr) (l : Loc) (d : Byte) :
    (s.progWrite p a l d).out =
      s.out ++ if l.store.memClass s.cfg = .rom then [.diag .writeToRom (.write p a d)] else [] := by
  cases hc : l.store.memClass s.cfg with
  | ram => simp [State.progWrite_ram hc]
  | rom =>
    rw [State.progWrite_rom hc]
    split <;> simp

theorem State.cpuWrite_out (s : State) (a : Addr) (d : Byte) :
    ∃ es, (s.cpuWrite a d).out = s.out ++ es := by
  unfold State.cpuWrite
  split
  · exact ⟨_, State.progWrite_out _ _ _ _ _⟩
  · exact ⟨_, rfl⟩

/-! ### The instrumentation -/

theorem dropOldest_length_le {α : Type} {cap : Nat} {xs : List α} (h : xs.length ≤ cap + 1) :
    (dropOldest cap xs).length ≤ cap := by
  unfold dropOldest
  split
  · rw [List.length_tail]; omega
  · omega

/-- What observing an opcode of a class other than RETI does. -/
theorem State.observeClass_push (s : State) (p : Proc) :
    s.observeClass p .push =
      s.setProc p { s.proc p with
        trace := dropOldest s.cfg.traceCap ((s.proc p).trace ++ [(s.proc p).view.pc])
        shadow := dropOldest s.cfg.shadowCap
          (dropOldest s.cfg.shadowCap ((s.proc p).shadow ++ [⟨(s.proc p).view.pc, false⟩])
            ++ [⟨(s.proc p).view.pc, true⟩]) } := by
  cases p <;> rfl

theorem State.observeClass_pop (s : State) (p : Proc) :
    s.observeClass p .pop =
      s.setProc p { s.proc p with
        trace := dropOldest s.cfg.traceCap ((s.proc p).trace ++ [(s.proc p).view.pc])
        shadow := (s.proc p).shadow.dropLast.dropLast } := by
  cases p <;> rfl

theorem State.observeClass_other (s : State) (p : Proc) :
    s.observeClass p .other =
      s.setProc p { s.proc p with
        trace := dropOldest s.cfg.traceCap ((s.proc p).trace ++ [(s.proc p).view.pc]) } := by
  cases p <;> rfl

/-- The check of class RETI adds at most one anomaly and draws free values at most. -/
theorem State.observeReturn_state (s : State) (p : Proc) :
    ∃ n es, s.observeReturn p = { s with freeCount := n, out := s.out ++ es } ∧
      (es = [] ∨ ∃ ra, es =
        [.diag .suspiciousInterruptReturn (.interruptReturn p (s.proc p).view.pc ra)]) := by
  simp only [State.observeReturn]
  rw [State.stackTop_state]
  refine ⟨(s.stackTop p).2.freeCount, _, rfl, ?_⟩
  split
  · exact .inr ⟨(s.stackTop p).1, by cases p <;> rfl⟩
  · exact .inl rfl

/-- Observing an opcode of any class: the trace takes the PC; the shadow stack, the output stream and the count of free values are all that may change besides. -/
theorem State.observeClass_state (s : State) (p : Proc) (k : OpClass) :
    ∃ sh n es, s.observeClass p k =
        { s.setProc p { s.proc p with
            trace := dropOldest s.cfg.traceCap ((s.proc p).trace ++ [(s.proc p).view.pc])
            shadow := sh } with freeCount := n, out := s.out ++ es } ∧
      (sh = (s.proc p).shadow ∨ sh = (s.proc p).shadow.dropLast.dropLast ∨
        ∃ x y, sh = dropOldest s.cfg.shadowCap
          (dropOldest s.cfg.shadowCap ((s.proc p).shadow ++ [x]) ++ [y])) ∧
      (es = [] ∨ ∃ ra, es =
        [.diag .suspiciousInterruptReturn (.interruptReturn p (s.proc p).view.pc ra)]) := by
  cases k with
  | push =>
    refine ⟨_, s.freeCount, [], ?_, .inr (.inr ⟨⟨(s.proc p).view.pc, false⟩, ⟨(s.proc p).view.pc, true⟩, rfl⟩), .inl rfl⟩
    rw [State.observeClass_push]
    cases p <;> simp [State.setProc, State.proc]
  | pop =>
    refine ⟨_, s.freeCount, [], ?_, .inr (.inl rfl), .inl rfl⟩
    rw [State.observeClass_pop]
    cases p <;> simp [State.setProc, State.proc]
  | other =>
    refine ⟨_, s.freeCount, [], ?_, .inl rfl, .inl rfl⟩
    rw [State.observeClass_other]
    cases p <;> simp [State.setProc, State.proc]
  | reti =>
    obtain ⟨n, es, h, hes⟩ := (s.recordPc p).observeReturn_state p
    refine ⟨(s.proc p).shadow, n, es, ?_, .inl rfl, ?_⟩
    · change (s.recordPc p).observeReturn p = _
      rw [h]
      cases p <;> rfl
    · cases p <;> exact hes

/-- OBSERVE, whatever it finds. -/
theorem State.observe_state (s : State) (p : Proc) :
    ∃ sh n es, s.observe p =
        { s.setProc p { s.proc p with
            trace := dropOldest s.cfg.traceCap ((s.proc p).trace ++ [(s.proc p).view.pc])
            shadow := sh } with freeCount := n, out := s.out ++ es } ∧
      (sh = (s.proc p).shadow ∨ sh = (s.proc p).shadow.dropLast.dropLast ∨
        ∃ x y, sh = dropOldest s.cfg.shadowCap
          (dropOldest s.cfg.shadowCap ((s.proc p).shadow ++ [x]) ++ [y])) ∧
      (es = [] ∨ ∃ ra, es =
        [.diag .suspiciousInterruptReturn (.interruptReturn p (s.proc p).view.pc ra)]) := by
  obtain ⟨sh, n, es, h, hsh, hes⟩ :=
    (s.opcodePair p).2.observeClass_state p (opClass (s.opcodePair p).1.1 (s.opcodePair p).1.2)
  rw [State.opcodePair_state] at h hsh hes
  refine ⟨sh, n, es, ?_, ?_, ?_⟩
  · change (s.opcodePair p).2.observeClass p _ = _
    rw [State.opcodePair_state, h]
    cases p <;> rfl
  · cases p <;> exact hsh
  · cases p <;> exact hes

/-! ### The exception entry -/

/-- Everything `raise Fatal` does. -/
theorem State.raiseFatal_eq (s : State) (code : FatalCause) (p : Proc) (sp : Addr) :
    s.raiseFatal code p sp =
      { s with
        halted := true
        haltCause := if s.halted then s.haltCause else code.code
        out := s.out ++ ([.fatal code p sp, s.regDumpOf .cpu, s.regDumpOf .ppu]
          ++ s.traceLines .cpu ++ s.traceLines .ppu) } := by
  simp only [State.raiseFatal, State.emit, State.traceDump, State.emitAll, State.traceLines,
    State.regDumpOf, State.proc, List.append_assoc, List.cons_append, List.nil_append]

/-- SPCHK: nothing, or the fatal. -/
theorem State.spCheck_cases (s : State) (p : Proc) :
    (s.cfg.spLow p ≤ (s.proc p).view.sp ∧ s.spCheck p = s) ∨
    ((s.proc p).view.sp < s.cfg.spLow p ∧
      s.spCheck p = s.raiseFatal .stackUnderflow p (s.proc p).view.sp) := by
  simp only [State.spCheck]
  split
  · exact .inr ⟨‹_›, rfl⟩
  · exact .inl ⟨BitVec.not_lt.1 ‹_›, rfl⟩

theorem State.setView_eq (s : State) (p : Proc) (v : Option ExecView) :
    s.setView p v = s.setProc p { s.proc p with view := v.getD (s.proc p).view } := by
  cases v <;> cases p <;> rfl

/-! ### The beam -/

/-- In range a beam-step is the row of the transition table. -/
theorem beamStep_eq {s : State} (hb : s.beamOk = true) : beamStep s = beamRow s := if_pos hb

/-- Out of range a beam-step faults. -/
theorem beamStep_fault {s : State} (hb : s.beamOk = false) :
    beamStep s = .fault .beamStateUnspecified := by
  simp only [beamStep, hb, Bool.false_eq_true, if_false]

/-- Only a state in range has a beam-step. -/
theorem beamStep_inRange {s t : State} (h : beamStep s = .next t) : s.beamOk = true := by
  cases hb : s.beamOk with
  | true => rfl
  | false => rw [beamStep_fault hb] at h; cases h

/-- A beam-step that has a next state took one row of the transition table. -/
theorem beamStep_cases {s t : State} (h : beamStep s = .next t) :
    (s.sect = .display ∧ s.hCounter.toNat < s.cfg.w ∧
      t = { s with hCounter := s.hCounter + 1, out := s.streamPixel.out }) ∨
    (s.sect = .display ∧ s.hCounter.toNat = s.cfg.w ∧ t = { s with sect := .hblank }) ∨
    ((s.sect = .hblank ∨ s.sect = .vblank) ∧ s.hCounter.toNat < s.cfg.wTotal ∧
      t = { s with hCounter := s.hCounter + 1 }) ∨
    (s.sect = .hblank ∧ s.hCounter.toNat = s.cfg.wTotal ∧
      t = { s with
        hCounter := 0
        vCounter := s.vCounter + 1
        sect := if s.vCounter.toNat = s.cfg.h - 1 then .vblank else .display }) ∨
    (s.sect = .vblank ∧ s.hCounter.toNat = s.cfg.wTotal ∧ s.vCounter.toNat = s.cfg.hTotal - 1 ∧
      t = { s with hCounter := 0, vCounter := 0, sect := .display }) ∨
    (s.sect = .vblank ∧ s.hCounter.toNat = s.cfg.wTotal ∧ s.vCounter.toNat ≠ s.cfg.hTotal - 1 ∧
      t = { s with hCounter := 0, vCounter := s.vCounter + 1 }) := by
  rw [beamStep_eq (beamStep_inRange h)] at h
  unfold beamRow at h
  cases hs : s.sect <;> simp only [hs] at h
  · cases h
  · split at h
    · refine .inl ⟨rfl, ‹_›, ?_⟩
      cases h
      simp only [State.streamPixel]
      split <;> simp [hs]
    · split at h
      · exact .inr (.inl ⟨rfl, ‹_›, by cases h; rfl⟩)
      · cases h
  · split at h
    · exact .inr (.inr (.inl ⟨.inl rfl, ‹_›, by cases h; rfl⟩))
    · split at h
      · exact .inr (.inr (.inr (.inl ⟨rfl, ‹_›, by cases h; rfl⟩)))
      · cases h
  · split at h
    · exact .inr (.inr (.inl ⟨.inr rfl, ‹_›, by cases h; rfl⟩))
    · split at h
      · split at h
        · exact .inr (.inr (.inr (.inr (.inl ⟨rfl, ‹_›, ‹_›, by cases h; rfl⟩))))
        · exact .inr (.inr (.inr (.inr (.inr ⟨rfl, ‹_›, ‹_›, by cases h; rfl⟩))))
      · cases h

/-- A pixel event at most is what streaming adds. -/
theorem State.streamPixel_out (s : State) :
    s.streamPixel.out = s.out ++
      if s.cfg.sinkPixel then
        [.setPixel s.hCounter s.vCounter (s.pixelAt s.hCounter.toNat s.vCounter.toNat)]
      else [] := by
  simp only [State.streamPixel]
  split <;> simp

/-! ### The scheduler -/

/-- The events of the actions of an edge. -/
def edgeEvents (s : State) (source target : BeamSection) : List Event :=
  match target with
  | .hblank => s.cfg.edgeHblank.map actionEvent ++
      if s.cfg.sinkFrame = true ∧ s.vCounter.toNat = s.cfg.h - 1 then [.presentFrame] else []
  | .display =>
    if s.cfg.displayScope = .everyEntry ∨ source = .vblank then s.cfg.edgeDisplay.map actionEvent else []
  | .vblank => s.cfg.edgeVblank.map actionEvent
  | .none => []

theorem State.edgeActions_eq (s : State) (source target : BeamSection) :
    s.edgeActions source target = s.emitAll (edgeEvents s source target) := by
  unfold State.edgeActions edgeEvents
  cases target with
  | none => simp [State.emitAll]
  | display => simp only; split <;> simp [State.fireAll, State.emitAll]
  | hblank =>
    simp only [State.fireAll]
    split <;> simp [State.emitAll, State.emit]
  | vblank => rfl

theorem State.completeWait_eq (s : State) (target : BeamSection) :
    s.completeWait target =
      { s with
        waitTarget := if s.waitTarget = target then .none else s.waitTarget
        out := s.out ++ if s.waitTarget = target then [.waitDone target] else [] } := by
  unfold State.completeWait
  split <;> simp [State.emit]

/-- An edge check that has a next state: nothing, or everything an edge does. -/
theorem edgeCheck_cases {s t : State} (h : edgeCheck s = .next t) :
    (s.sect = s.prevSection ∧ t = s) ∨
    (s.sect ≠ s.prevSection ∧ s.sect ≠ .none ∧
      t = { s with
        prevSection := s.sect
        waitTarget := if s.waitTarget = s.sect then .none else s.waitTarget
        out := s.out ++ .sectionChange s.prevSection s.sect ::
          (edgeEvents s s.prevSection s.sect ++
            if s.waitTarget = s.sect then [.waitDone s.sect] else []) }) := by
  unfold edgeCheck at h
  split at h
  · exact .inl ⟨‹_›, by cases h; rfl⟩
  · split at h
    · cases h
    · refine .inr ⟨‹_›, ‹_›, ?_⟩
      cases h
      rw [State.edgeActions_eq, State.completeWait_eq]
      rw [show edgeEvents (s.emit (.sectionChange s.prevSection s.sect)) s.prevSection s.sect =
        edgeEvents s s.prevSection s.sect from rfl]
      simp [State.emitAll, State.emit]

/-- The edge check faults only on an entry into the sentinel. -/
theorem edgeCheck_next {s : State} (h : s.sect ≠ .none) : ∃ t, edgeCheck s = .next t := by
  unfold edgeCheck
  by_cases hp : s.sect = s.prevSection
  · exact ⟨_, if_pos hp⟩
  · exact ⟨_, by rw [if_neg hp, if_neg h]⟩

/-! ### The render pass -/

/-- A render pass that has a next state changes memory only. -/
theorem renderPass_cases {s t : State} (h : renderPass s = .next t) :
    ∃ m, renderSlots s.cfg s.ramEpoch (List.range s.cfg.slots) s.mem = some m ∧
      t = { s with mem := m } := by
  unfold renderPass at h
  split at h
  · exact ⟨_, ‹_›, by cases h; rfl⟩
  · cases h

/-- With CLIP true or a roomy framebuffer a render pass has a next state. -/
theorem renderSlots_some {c : Config} (ep : Nat) (is : List Nat) (m : List Host.Cell)
    (h : c.clip = true ∨ roomy c = true) : ∃ m', renderSlots c ep is m = some m' := by
  induction is generalizing m with
  | nil => exact ⟨m, rfl⟩
  | cons i is ih =>
    unfold renderSlots
    rw [if_pos (by rcases h with h | h <;> simp [h])]
    exact ih _

/-! ### The Executors' steps -/

/-- The bus operations of a main-CPU step change memory, the answer, the output stream and the count of free values only. -/
theorem State.cpuOp_state (s : State) (op : CpuOp) :
    ∃ m r es n, s.cpuOp op = { s with mem := m, rsp := r, out := s.out ++ es, freeCount := n } := by
  cases op with
  | read a =>
    refine ⟨s.mem, .data (s.cpuRead a).1, [], (s.cpuRead a).2.freeCount, ?_⟩
    have h := State.read_state s .cpu a
    simp only [State.read] at h
    simp only [State.cpuOp, State.cpuReadOp, List.append_nil]
    rw [h]
    rfl
  | write a d =>
    obtain ⟨es, h⟩ := s.cpuWrite_out a d
    refine ⟨(s.cpuWrite a d).mem, s.rsp, es, s.freeCount, ?_⟩
    simp only [State.cpuOp]
    rw [State.cpuWrite_state, h]

theorem State.cpuOps_state (ops : List CpuOp) (s : State) :
    ∃ m r es n, ops.foldl State.cpuOp s =
      { s with mem := m, rsp := r, out := s.out ++ es, freeCount := n } := by
  induction ops generalizing s with
  | nil => exact ⟨s.mem, s.rsp, [], s.freeCount, by simp⟩
  | cons op ops ih =>
    obtain ⟨m, r, es, n, h⟩ := s.cpuOp_state op
    obtain ⟨m', r', es', n', h'⟩ := ih (s.cpuOp op)
    refine ⟨m', r', es ++ es', n', ?_⟩
    rw [List.foldl_cons, h', h]
    simp

/-- The operations of a PPU step that have a next state change memory, the answer and the output stream only. -/
theorem ppuOp_state {op : PpuOp} {s t : State} (h : ppuOp op s = .next t) :
    ∃ m r es, t = { s with mem := m, rsp := r, out := s.out ++ es } := by
  cases op with
  | read a => 
    cases h
    exact ⟨s.mem, .data (s.ppuByte a), [], by simp [State.ppuReadOp, State.respond]⟩
  | write a d =>
    cases h
    refine ⟨(s.ppuWrite a d).mem, s.rsp, if (resolvePpu s.cfg a).store.memClass s.cfg = .rom then
      [.diag .writeToRom (.write .ppu a d)] else [], ?_⟩
    rw [← State.progWrite_out]
    exact State.progWrite_state _ _ _ _ _
  | render =>
    obtain ⟨m, _, rfl⟩ := renderPass_cases h
    exact ⟨m, s.rsp, [], by simp⟩

theorem ppuOps_state {ops : List PpuOp} {s t : State} (h : ppuOps ops s = .next t) :
    ∃ m r es, t = { s with mem := m, rsp := r, out := s.out ++ es } := by
  induction ops generalizing s with
  | nil =>
    obtain rfl : s = t := by cases h; rfl
    exact ⟨s.mem, s.rsp, [], by simp⟩
  | cons op ops ih =>
    obtain ⟨u, hu, ht⟩ := andThen_eq_next.1 h
    obtain ⟨m, r, es, rfl⟩ := ppuOp_state hu
    obtain ⟨m', r', es', rfl⟩ := ih ht
    exact ⟨m', r', es ++ es', by simp⟩

/-! ### The step -/

/-- A step that has a next state: an idle edge, a pulse on rst, a refused word, or an operation. -/
theorem step_cases {s t : State} (h : step s = .next t) :
    s.cfg.valid = true ∧
    ((s.inbox = [] ∧ t = s.idleEdge) ∨
      (∃ env rest, s.inbox = .rst env :: rest ∧ t = (s.accept rest env).resetBlock) ∨
      ∃ w env rest, s.inbox = .cmd w env :: rest ∧
        ((∃ r, t = (s.accept rest env).turnAway r) ∨
          ∃ i, decodeCmd w = .ok i ∧ exec i (s.accept rest env) = .next t)) := by
  unfold step at h
  split at h
  · refine ⟨‹_›, ?_⟩
    unfold runInput at h
    split at h
    · exact .inl ⟨‹_›, by cases h; rfl⟩
    · rename_i w env rest hin
      refine .inr (.inr ⟨w, env, rest, hin, ?_⟩)
      unfold runCmd at h
      split at h
      · rename_i i hi
        cases he : exec i (s.accept rest env) with
        | next u =>
          rw [he] at h
          cases h
          exact .inr ⟨i, hi, he⟩
        | fault e => rw [he] at h; cases h
        | refused r =>
          rw [he] at h
          simp only [settle] at h
          split at h
          · exact .inl ⟨r, by cases h; rfl⟩
          · cases h
      · exact .inl ⟨_, by cases h; rfl⟩
    · rename_i env rest hin
      exact .inr (.inl ⟨env, rest, hin, by cases h; rfl⟩)
  · cases h

end Sys2Proof.Machine
end

