-- ==== Sys2Proof/Laws/Beam.lean ====
section
/-! SUPPORT. The beam constraints, and beam-steps in range and in sequence. -/

namespace Sys2Proof.Machine

/-- What the beam constraints of a configuration say. -/
theorem Config.beamValid_iff (c : Config) : c.beamValid = true ↔
    1 ≤ c.w ∧ c.w < c.wTotal ∧ c.wTotal ≤ 65535 ∧ 1 ≤ c.h ∧ c.h < c.hTotal ∧ c.hTotal ≤ 65535 := by
  simp [Config.beamValid, and_assoc]

/-- In range a beam-step has a next state. -/
theorem beamStep_next {s : State} (hb : s.beamOk = true) : ∃ t, beamStep s = .next t := by
  rw [beamStep_eq hb]
  unfold beamRow
  unfold State.beamOk at hb
  cases hs : s.sect <;> simp only [hs] at hb ⊢
  · cases hb
  · simp only [Bool.and_eq_true, decide_eq_true_eq] at hb
    split
    · exact ⟨_, rfl⟩
    · rw [if_pos (by omega)]
      exact ⟨_, rfl⟩
  · simp only [Bool.and_eq_true, decide_eq_true_eq] at hb
    split
    · exact ⟨_, rfl⟩
    · rw [if_pos (by omega)]
      exact ⟨_, rfl⟩
  · simp only [Bool.and_eq_true, decide_eq_true_eq] at hb
    split
    · exact ⟨_, rfl⟩
    · rw [if_pos (by omega)]
      split <;> exact ⟨_, rfl⟩

/-- A beam-step keeps the configuration. -/
theorem beamStep_cfg {s t : State} (h : beamStep s = .next t) : t.cfg = s.cfg := by
  rcases beamStep_cases h with ⟨-, -, rfl⟩ | ⟨-, -, rfl⟩ | ⟨-, -, rfl⟩ | ⟨-, -, rfl⟩ |
    ⟨-, -, -, rfl⟩ | ⟨-, -, -, rfl⟩ <;> rfl

/-- Beam-steps in two parts. -/
theorem beamSteps_add (m n : Nat) (s : State) :
    beamSteps (m + n) s = andThen (beamSteps m s) (beamSteps n) := by
  induction m generalizing s with
  | zero => simp [beamSteps]
  | succ m ih =>
    rw [show m + 1 + n = (m + n) + 1 by omega]
    simp only [beamSteps]
    cases beamStep s <;> simp [ih]

/-- The section changes of a run in two parts. -/
theorem sectionChanges_add {m n : Nat} {s t : State} (h : beamSteps m s = .next t) :
    sectionChanges (m + n) s = sectionChanges m s ++ sectionChanges n t := by
  induction m generalizing s with
  | zero =>
    obtain rfl : s = t := by cases h; rfl
    simp [sectionChanges]
  | succ m ih =>
    rw [show m + 1 + n = (m + n) + 1 by omega]
    obtain ⟨u, hu, hn⟩ := andThen_eq_next.1 h
    simp [sectionChanges, hu, ih hn]

end Sys2Proof.Machine
end

