-- ==== Sys2Proof/Laws/Bounds.lean ====
section
/-! SUPPORT. Where the stores, the tables and the framebuffer end. -/

namespace Sys2Proof.Machine

/-- What the PPU constraints of a configuration say. -/
theorem Config.ppuMapValid_iff (c : Config) : c.ppuMapValid = true ↔
    0 < c.ppuTableBase ∧ c.ppuTableBase < c.ppuDefBase ∧ c.ppuDefBase < c.ppuPixelBase ∧
      c.ppuPixelBase ≤ 0xFFFF := by
  simp [Config.ppuMapValid, and_assoc]

/-- An entry of a valid CPU_MAP. -/
theorem Config.entry_valid {c : Config} (hv : c.valid = true) {e : MapEntry} (he : e ∈ c.cpuMap) :
    e.first ≤ e.last ∧ e.last ≤ 0xFFFF := by
  obtain ⟨-, -, hm, -, -, -⟩ := (Config.valid_iff c).1 hv
  simp only [Config.cpuMapValid, Bool.and_eq_true, List.all_eq_true] at hm
  simpa [MapEntry.valid] using hm.1.2 e he

/-- No store is longer than an address space. -/
theorem Store.length_le {c : Config} (hv : c.valid = true) (st : Store) : st.length c ≤ 65536 := by
  have hp := (Config.ppuMapValid_iff c).1 ((Config.valid_iff c).1 hv).2.1
  cases st with
  | codeRom => simp only [Store.length]; omega
  | defRom => simp only [Store.length, Config.defLen]; omega
  | tableRam => simp only [Store.length, Config.tableLen]; omega
  | pixelRam => simp only [Store.length, Config.pixelLen]; omega
  | cpuRegion k =>
    simp only [Store.length]
    cases hk : (cpuRegions c)[k]? with
    | none => simp
    | some e =>
      have := Config.entry_valid hv ((cpuRegions_perm c).mem_iff.1 (List.mem_of_getElem? hk))
      simp only [Option.map_some, Option.getD_some]
      omega

/-- A PPU address lies inside its store. -/
theorem resolvePpu_inside {c : Config} (hv : c.valid = true) (a : Addr) :
    (resolvePpu c a).off < (resolvePpu c a).store.length c := by
  have ha := a.isLt
  have hp := (Config.ppuMapValid_iff c).1 ((Config.valid_iff c).1 hv).2.1
  unfold resolvePpu
  repeat' split
  all_goals simp only [Store.length, Config.tableLen, Config.defLen, Config.pixelLen]
  all_goals omega

theorem findRegion_inside {c : Config} {a : Addr} {k : Nat} {es : List MapEntry} {l : Loc}
    (hes : ∀ i e, es[i]? = some e → (cpuRegions c)[k + i]? = some e)
    (h : findRegion a k es = some l) : l.off < l.store.length c := by
  induction es generalizing k with
  | nil => cases h
  | cons e es ih =>
    unfold findRegion at h
    split at h
    · obtain rfl := Option.some.inj h
      have he := hes 0 e (by simp)
      rw [Nat.add_zero] at he
      simp only [Store.length, he, Option.map_some, Option.getD_some]
      omega
    · refine ih (k := k + 1) (fun i f hf => ?_) h
      rw [show k + 1 + i = k + (i + 1) by omega]
      exact hes (i + 1) f (by simpa using hf)

/-- A main-CPU address that resolves lies inside its store. -/
theorem resolveCpu_inside {c : Config} {a : Addr} {l : Loc} (h : resolveCpu c a = some l) :
    l.off < l.store.length c := by
  unfold resolveCpu at h
  split at h
  · rename_i hf
    obtain rfl := Option.some.inj h
    exact findRegion_inside (fun i e he => by simpa using he) hf
  · unfold fallbackWindow at h
    simp only at h
    split at h
    · obtain rfl := Option.some.inj h
      simpa [Store.length]
    · cases h

/-- Both tables fit in table RAM and do not overlap (`20_memory.md` R72). -/
theorem Config.tables_fit {c : Config} (hv : c.valid = true) :
    c.spriteTableOff + 2 * c.slots ≤ c.tableLen ∧
      c.animTableOff + 256 * c.animDefSize ≤ c.tableLen ∧
      (c.spriteTableOff + 2 * c.slots ≤ c.animTableOff ∨
        c.animTableOff + 256 * c.animDefSize ≤ c.spriteTableOff) ∧ c.tableLen ≤ 65536 := by
  have hl := Store.length_le hv .tableRam
  obtain ⟨-, -, -, ht, -, -⟩ := (Config.valid_iff c).1 hv
  simp only [Config.tablesValid, Bool.and_eq_true, Bool.or_eq_true, decide_eq_true_eq] at ht
  simp only [Store.length] at hl
  tauto

/-- The pixel index as a tile number and a position in the tile. -/
theorem pixIdx_eq (c : Config) (x y : Nat) :
    pixIdx c x y = (y / 8 * c.fbTx + x / 8) * 64 + (y % 8 * 8 + x % 8) := by
  unfold pixIdx
  ring

/-- The byte of a framebuffer pixel lies in pixel RAM. -/
theorem pixelLoc_inside {c : Config} {x y : Nat} (hv : c.valid = true) (h : inFramebuffer c x y) :
    (pixelLoc c x y).off < c.pixelLen := by
  obtain ⟨hx, hy⟩ := h
  obtain ⟨-, -, -, -, hf, -⟩ := (Config.valid_iff c).1 hv
  simp only [Config.framebufferValid, Bool.and_eq_true, decide_eq_true_eq] at hf
  have hlen := hf.1.1.1.1.2
  have hi : pixIdx c x y < c.fbTx * c.fbTy * 64 := by
    have h1 : (y / 8 + 1) * c.fbTx ≤ c.fbTy * c.fbTx := Nat.mul_le_mul_right _ (by omega)
    rw [pixIdx_eq, Nat.mul_comm c.fbTx]
    rw [Nat.add_mul] at h1
    omega
  simp only [pixelLoc]
  cases hb : c.ppb <;> simp only [hb, PixelPacking.count] at hlen ⊢ <;> omega

/-- The bytes of the framebuffer have keys of their own. -/
theorem pixelLoc_off_lt {c : Config} {x y : Nat} (hv : c.valid = true) (h : inFramebuffer c x y) :
    (pixelLoc c x y).off < 65536 := by
  have h1 := pixelLoc_inside hv h
  have h2 := Store.length_le hv .pixelRam
  simp only [Store.length] at h2
  omega

end Sys2Proof.Machine
end

