-- ==== Sys2Proof/Laws/Decode.lean ====
section
/-! SUPPORT. The fields of a command word, and decoding one by its selector. -/

namespace Sys2Proof

/-- A word put together from its fields, as a number. -/
theorem cmd_toNat (sel : Byte) (a : BitVec 16) (d : Byte) :
    (sel ++ a ++ d).toNat = sel.toNat * 16777216 + a.toNat * 256 + d.toNat := by
  have ha := a.isLt
  have hd := d.isLt
  rw [BitVec.toNat_append, BitVec.toNat_append, ← Nat.shiftLeft_add_eq_or_of_lt hd,
    ← Nat.shiftLeft_add_eq_or_of_lt ha, Nat.shiftLeft_eq, Nat.shiftLeft_eq]
  omega

/-- The selector field. -/
@[simp] theorem cmdSel_append (sel : Byte) (a : BitVec 16) (d : Byte) :
    cmdSel (sel ++ a ++ d) = sel := by
  have := a.isLt
  have := d.isLt
  have := sel.isLt
  apply BitVec.eq_of_toNat_eq
  rw [cmdSel, BitVec.extractLsb'_toNat, cmd_toNat, Nat.shiftRight_eq_div_pow]
  omega

/-- The address field. -/
@[simp] theorem cmdA_append (sel : Byte) (a : BitVec 16) (d : Byte) :
    cmdA (sel ++ a ++ d) = a := by
  have := a.isLt
  have := d.isLt
  apply BitVec.eq_of_toNat_eq
  rw [cmdA, BitVec.extractLsb'_toNat, cmd_toNat, Nat.shiftRight_eq_div_pow]
  omega

/-- The data field. -/
@[simp] theorem cmdD_append (sel : Byte) (a : BitVec 16) (d : Byte) :
    cmdD (sel ++ a ++ d) = d := by
  have := d.isLt
  apply BitVec.eq_of_toNat_eq
  rw [cmdD, BitVec.extractLsb'_toNat, cmd_toNat, Nat.shiftRight_eq_div_pow]
  omega

/-- The processor of a word put together from its fields. -/
@[simp] theorem cmdP_append (sel : Byte) (a : BitVec 16) (d : Byte) :
    cmdP (sel ++ a ++ d) = Proc.ofBit (d.extractLsb' 0 1) := by
  rw [cmdP, cmdD_append]

/-- The section of a word put together from its fields. -/
@[simp] theorem cmdS_append (sel : Byte) (a : BitVec 16) (d : Byte) :
    cmdS (sel ++ a ++ d) = BeamSection.ofCode (d.extractLsb' 0 2) := by
  rw [cmdS, cmdD_append]

/-- The region id of a word put together from its fields. -/
@[simp] theorem cmdR_append (sel : Byte) (a : BitVec 16) (d : Byte) :
    cmdR (sel ++ a ++ d) = d.extractLsb' 0 3 := by
  rw [cmdR, cmdD_append]

end Sys2Proof
end

