-- ==== Sys2Proof/Laws/Render.lean ====
section
/-! SUPPORT. What a render pass and its parts leave alone. -/

namespace Sys2Proof.Machine

variable {c : Config} {ep : Nat}

/-- A write of one byte leaves every other byte alone. -/
theorem byteOf_put_other (m : List Host.Cell) {l l' : Loc} (v : Byte) (h : l.off < 65536)
    (h' : l'.off < 65536) (hne : l' ≠ l) :
    byteOf c ep (cellsPut c l.key v m) l' = byteOf c ep m l' := by
  rw [byteOf_put, if_neg fun hk => hne (Loc.key_injective h' h hk)]

/-- Writing a framebuffer pixel leaves the other stores, and the other bytes of pixel RAM, alone. -/
theorem byteOf_fbSet_other (hv : c.valid = true) {x y : Nat} (hin : inFramebuffer c x y) (v : Byte)
    (m : List Host.Cell) {l : Loc} (hl : l.off < 65536) (hne : l ≠ pixelLoc c x y) :
    byteOf c ep (fbSet c ep x y v m) l = byteOf c ep m l := by
  have ho := pixelLoc_off_lt hv hin
  unfold fbSet
  cases c.ppb <;> exact byteOf_put_other _ _ ho hl hne

/-- A drawn pixel leaves every byte alone that is not a framebuffer byte under it. -/
theorem byteOf_drawPixel_other (hv : c.valid = true) (e : Byte) (x0 y0 : Nat) (m : List Host.Cell)
    (rc : Nat × Nat) {l : Loc} (hl : l.off < 65536)
    (hne : inFramebuffer c (x0 + rc.2) (y0 + rc.1) → l ≠ pixelLoc c (x0 + rc.2) (y0 + rc.1)) :
    byteOf c ep (drawPixel c ep e x0 y0 m rc) l = byteOf c ep m l := by
  unfold drawPixel
  split
  · exact byteOf_fbSet_other hv ‹_› _ _ hl (hne ‹_›)
  · rfl

/-- The pixels of a tile are those of eight rows and eight columns. -/
theorem mem_tileCoords {rc : Nat × Nat} : rc ∈ tileCoords ↔ rc.1 < 8 ∧ rc.2 < 8 := by
  obtain ⟨r, col⟩ := rc
  simp only [tileCoords, List.mem_flatMap, List.mem_map, List.mem_range, Prod.mk.injEq]
  constructor
  · rintro ⟨a, ha, b, hb, rfl, rfl⟩
    exact ⟨ha, hb⟩
  · rintro ⟨ha, hb⟩
    exact ⟨r, ha, col, hb, rfl, rfl⟩

/-- A drawn tile leaves every byte alone that is not a framebuffer byte under it. -/
theorem byteOf_drawTile_other (hv : c.valid = true) (e : Byte) (x0 y0 : Nat) (m : List Host.Cell)
    {l : Loc} (hl : l.off < 65536)
    (hne : ∀ r col, r < 8 → col < 8 → inFramebuffer c (x0 + col) (y0 + r) →
      l ≠ pixelLoc c (x0 + col) (y0 + r)) :
    byteOf c ep (drawTile c ep e x0 y0 m) l = byteOf c ep m l := by
  unfold drawTile
  have key : ∀ (rcs : List (Nat × Nat)), (∀ rc ∈ rcs, rc.1 < 8 ∧ rc.2 < 8) → ∀ m,
      byteOf c ep (rcs.foldl (drawPixel c ep e x0 y0) m) l = byteOf c ep m l := by
    intro rcs
    induction rcs with
    | nil => intro _ m; rfl
    | cons rc rcs ih =>
      intro h m
      rw [List.foldl_cons, ih fun rc' h' => h rc' (List.mem_cons_of_mem _ h')]
      have := h rc (List.mem_cons_self ..)
      exact byteOf_drawPixel_other hv _ _ _ _ _ hl (hne rc.1 rc.2 this.1 this.2)
  exact key _ (fun _ h => mem_tileCoords.1 h) m

/-- The `animIndex` byte of an entry lies in table RAM. -/
theorem animIndexLoc_off_lt (hv : c.valid = true) {i : Nat} (hi : i < c.slots) :
    (animIndexLoc c i).off < 65536 := by
  have := Config.tables_fit hv
  simp only [animIndexLoc]
  omega

/-- The bytes of an AnimationDef lie in the animation table. -/
theorem animDefLoc_range (c : Config) (j : Byte) {b : Nat} (hb : b < c.animDefSize) :
    c.animTableOff ≤ (animDefLoc c j.toNat b).off ∧
      (animDefLoc c j.toNat b).off < c.animTableOff + 256 * c.animDefSize := by
  have h2 := j.isLt
  have h3 : (j.toNat + 1) * c.animDefSize ≤ 256 * c.animDefSize := Nat.mul_le_mul_right _ (by omega)
  simp only [animDefLoc]
  rw [Nat.add_mul, Nat.mul_comm j.toNat] at h3
  omega

/-- The bytes of an AnimationDef lie in table RAM. -/
theorem animDefLoc_off_lt (hv : c.valid = true) (j : Byte) {b : Nat} (hb : b < c.animDefSize) :
    (animDefLoc c j.toNat b).off < 65536 := by
  have h1 := Config.tables_fit hv
  have h2 := animDefLoc_range c j hb
  omega

/-- An AnimationDef has at least two bytes. -/
theorem Config.two_le_animDefSize (c : Config) : 2 ≤ c.animDefSize := by
  unfold Config.animDefSize
  split <;> omega

/-- A gated AnimationDef has four bytes. -/
theorem Config.animDefSize_gated (hg : c.animGated = true) : c.animDefSize = 4 := by
  rw [Config.animDefSize, if_pos hg]

/-- The two tables share no byte. -/
theorem animDefLoc_ne_entry (hv : c.valid = true) (j : Byte) {b i : Nat} (hb : b < c.animDefSize)
    (hi : i < c.slots) :
    animDefLoc c j.toNat b ≠ animIndexLoc c i ∧ animDefLoc c j.toNat b ≠ spriteIndexLoc c i := by
  have h1 := Config.tables_fit hv
  have h2 := animDefLoc_range c j hb
  constructor
  · intro he
    rw [he] at h2
    simp only [animIndexLoc] at h2
    omega
  · intro he
    rw [he] at h2
    simp only [spriteIndexLoc] at h2
    omega

/-- In the gated profile a frame counter is no other byte of any definition. -/
theorem animDefLoc_ne_counter (hg : c.animGated = true) (j j' : Byte) {b : Nat} (hb : b < 3) :
    animDefLoc c j.toNat b ≠ animDefLoc c j'.toNat 3 := by
  simp only [animDefLoc, Config.animDefSize_gated hg, ne_eq, Loc.mk.injEq, true_and]
  omega

/-- An animation advance leaves every byte alone but the entry's `animIndex` and, in the gated profile, the frame counter of its definition. -/
theorem byteOf_advanceAnim_other (hv : c.valid = true) {i : Nat} (hi : i < c.slots)
    (info : SlotInfo) (m : List Host.Cell) {l : Loc} (hl : l.off < 65536)
    (h1 : l ≠ animIndexLoc c i)
    (h2 : c.animGated = true → l ≠ animDefLoc c info.anim.toNat 3) :
    byteOf c ep (advanceAnim c ep i info m) l = byteOf c ep m l := by
  have ho := animIndexLoc_off_lt hv hi
  unfold advanceAnim
  simp only
  split
  · rename_i hg
    have hc : (animDefLoc c info.anim.toNat 3).off < 65536 :=
      animDefLoc_off_lt hv _ (by simp [Config.animDefSize, hg])
    split
    · rw [byteOf_put_other _ _ hc hl (h2 hg), byteOf_put_other _ _ ho hl h1]
    · rw [byteOf_put_other _ _ hc hl (h2 hg)]
  · rw [byteOf_put_other _ _ ho hl h1]

/-- A rendered slot leaves alone every byte that is neither its `animIndex`, nor the frame counter of its definition in the gated profile, nor in pixel RAM. -/
theorem byteOf_renderSlot_other (hv : c.valid = true) {i : Nat} (hi : i < c.slots)
    (m : List Host.Cell) {l : Loc} (hl : l.off < 65536) (hp : l.store ≠ .pixelRam)
    (h1 : l ≠ animIndexLoc c i)
    (h2 : c.animGated = true → l ≠ animDefLoc c (slotInfo c ep m i).anim.toNat 3) :
    byteOf c ep (renderSlot c ep m i) l = byteOf c ep m l := by
  unfold renderSlot
  simp only
  rw [byteOf_drawTile_other hv _ _ _ _ hl (fun _ _ _ _ _ he => hp (by rw [he]; rfl)),
    byteOf_advanceAnim_other hv hi _ _ hl h1 h2]

/-- Rendering one slot does not change what the pass reads of another. -/
theorem slotInfo_renderSlot (hv : c.valid = true) {i k : Nat} (hi : i < c.slots) (hk : k < c.slots)
    (hne : k ≠ i) (m : List Host.Cell) :
    slotInfo c ep (renderSlot c ep m i) k = slotInfo c ep m k := by
  have h2 := Config.two_le_animDefSize c
  have h3 : c.animGated = true → 3 < c.animDefSize := fun hg => by
    rw [Config.animDefSize_gated hg]
    omega
  have anim : byteOf c ep (renderSlot c ep m i) (animIndexLoc c k) = byteOf c ep m (animIndexLoc c k) :=
    byteOf_renderSlot_other hv hi m (animIndexLoc_off_lt hv hk) (by simp [animIndexLoc])
      (by simp only [animIndexLoc, ne_eq, Loc.mk.injEq, true_and]; omega)
      fun hg => (animDefLoc_ne_entry hv _ (h3 hg) hk).1.symm
  have spr : byteOf c ep (renderSlot c ep m i) (spriteIndexLoc c k) = byteOf c ep m (spriteIndexLoc c k) := by
    have hf := Config.tables_fit hv
    exact byteOf_renderSlot_other hv hi m (by simp only [spriteIndexLoc]; omega) (by simp [spriteIndexLoc])
      (by simp only [spriteIndexLoc, animIndexLoc, ne_eq, Loc.mk.injEq, true_and]; omega)
      fun hg => (animDefLoc_ne_entry hv _ (h3 hg) hk).2.symm
  have defs : ∀ (j : Byte) b, b < 2 →
      byteOf c ep (renderSlot c ep m i) (animDefLoc c j.toNat b) =
        byteOf c ep m (animDefLoc c j.toNat b) := fun j b hb =>
    byteOf_renderSlot_other hv hi m (animDefLoc_off_lt hv j (by omega)) (by simp [animDefLoc])
      (animDefLoc_ne_entry hv j (by omega) hi).1 fun hg => animDefLoc_ne_counter hg j _ (by omega)
  simp only [slotInfo, anim, spr, defs _ 0 (by omega), defs _ 1 (by omega)]

/-- A render pass in two parts. -/
theorem renderSlots_append {is js : List Nat} {m m' : List Host.Cell}
    (h : renderSlots c ep (is ++ js) m = some m') :
    ∃ u, renderSlots c ep is m = some u ∧ renderSlots c ep js u = some m' := by
  induction is generalizing m with
  | nil => exact ⟨m, rfl, h⟩
  | cons i is ih =>
    simp only [List.cons_append, renderSlots] at h ⊢
    split at h
    · rw [if_pos ‹_›]
      exact ih h
    · cases h

/-- Rendering some slots does not change what the pass reads of another. -/
theorem slotInfo_renderSlots (hv : c.valid = true) {is : List Nat} {m m' : List Host.Cell}
    (his : ∀ i ∈ is, i < c.slots) (h : renderSlots c ep is m = some m') {k : Nat} (hk : k < c.slots)
    (hki : k ∉ is) : slotInfo c ep m' k = slotInfo c ep m k := by
  induction is generalizing m with
  | nil => cases h; rfl
  | cons i is ih =>
    simp only [List.mem_cons, not_or] at hki
    unfold renderSlots at h
    split at h
    · rw [ih (fun j hj => his j (List.mem_cons_of_mem _ hj)) h hki.2,
        slotInfo_renderSlot hv (his i (List.mem_cons_self ..)) hk hki.1]
    · cases h

/-- Rendering some slots leaves alone every byte that is neither an `animIndex` of one of them, nor a frame counter of a definition in the gated profile, nor in pixel RAM. -/
theorem byteOf_renderSlots_other (hv : c.valid = true) {is : List Nat} {m m' : List Host.Cell}
    (his : ∀ i ∈ is, i < c.slots) (h : renderSlots c ep is m = some m') {l : Loc} (hl : l.off < 65536)
    (hp : l.store ≠ .pixelRam) (h1 : ∀ i ∈ is, l ≠ animIndexLoc c i)
    (h2 : c.animGated = true → ∀ j : Byte, l ≠ animDefLoc c j.toNat 3) :
    byteOf c ep m' l = byteOf c ep m l := by
  induction is generalizing m with
  | nil => cases h; rfl
  | cons i is ih =>
    unfold renderSlots at h
    split at h
    · rw [ih (fun j hj => his j (List.mem_cons_of_mem _ hj)) h
          fun j hj => h1 j (List.mem_cons_of_mem _ hj),
        byteOf_renderSlot_other hv (his i (List.mem_cons_self ..)) m hl hp
          (h1 i (List.mem_cons_self ..)) fun hg => h2 hg _]
    · cases h

/-- The uses of a frame counter in two parts. -/
theorem counterAfter_add (speed a b fc : Nat) :
    counterAfter speed (a + b) fc = counterAfter speed b (counterAfter speed a fc) := by
  induction a generalizing fc with
  | zero => rw [Nat.zero_add]; rfl
  | succ a ih =>
    rw [Nat.succ_add]
    exact ih _

end Sys2Proof.Machine
end

