-- ==== Sys2Proof/Laws/Tick.lean ====
section
/-! SUPPORT. A tick taken apart, and what each Executor's step can do. -/

namespace Sys2Proof.Machine

/-- The step of Executor[CPU] changes memory, the answer, the output stream, the count of free values, the calls and its own accessors. -/
theorem cpuStep_cases {s t : State} (h : cpuStep s = .next t) :
    ∃ m r es n, t =
      { s with
        mem := m
        rsp := r
        out := s.out ++ es
        freeCount := n
        calls := s.calls ++ [.step .cpu]
        cpu := { s.cpu with view := s.env.cpuView.getD s.cpu.view } } := by
  obtain ⟨m, r, es, n, ho⟩ := State.cpuOps_state s.env.cpuOps (s.call (.step .cpu))
  simp only [cpuStep] at h
  rw [ho, State.setView_eq] at h
  cases h
  exact ⟨m, r, es, n, rfl⟩

/-- The step of Executor[CPU] always completes. -/
theorem cpuStep_next (s : State) : ∃ t, cpuStep s = .next t := ⟨_, rfl⟩

/-- The step of Executor[PPU] changes memory, the answer, the output stream, the calls and its own accessors. -/
theorem ppuStep_cases {s t : State} (h : ppuStep s = .next t) :
    ∃ m r es, t =
      { s with
        mem := m
        rsp := r
        out := s.out ++ es
        calls := s.calls ++ [.step .ppu]
        ppu := { s.ppu with view := s.env.ppuView.getD s.ppu.view } } := by
  obtain ⟨u, hu, ht⟩ := andThen_eq_next.1 h
  obtain ⟨m, r, es, rfl⟩ := ppuOps_state hu
  rw [State.setView_eq] at ht
  cases ht
  exact ⟨m, r, es, rfl⟩

/-- Operations of the PPU's Executor complete when no RENDER among them can leave the framebuffer. -/
theorem ppuOps_next {ops : List PpuOp} {s : State}
    (h : s.cfg.clip = true ∨ roomy s.cfg = true ∨ PpuOp.render ∉ ops) :
    ∃ t, ppuOps ops s = .next t := by
  induction ops generalizing s with
  | nil => exact ⟨s, rfl⟩
  | cons op ops ih =>
    have hop : ∃ u, ppuOp op s = .next u := by
      cases op with
      | read a => exact ⟨_, rfl⟩
      | write a d => exact ⟨_, rfl⟩
      | render =>
        have hc : s.cfg.clip = true ∨ roomy s.cfg = true := by
          rcases h with h | h | h
          · exact .inl h
          · exact .inr h
          · exact absurd (List.mem_cons_self ..) h
        obtain ⟨m, hm⟩ := renderSlots_some s.ramEpoch (List.range s.cfg.slots) s.mem hc
        exact ⟨{ s with mem := m }, by simp only [ppuOp, renderPass, hm]⟩
    obtain ⟨u, hu⟩ := hop
    obtain ⟨m, r, es, rfl⟩ := ppuOp_state hu
    obtain ⟨t, ht⟩ := ih (s := { s with mem := m, rsp := r, out := s.out ++ es })
      (by rcases h with h | h | h
          · exact .inl h
          · exact .inr (.inl h)
          · exact .inr (.inr fun hm => h (List.mem_cons_of_mem _ hm)))
    exact ⟨t, by simp only [ppuOps, hu, andThen_next, ht]⟩

/-! ### The operations of the Executors' steps -/

/-- A bus operation of Executor[CPU] is the operation of the block. -/
theorem CpuOp.exec_instr (op : CpuOp) (s : State) : exec op.instr s = .next (s.cpuOp op) := by
  cases op <;> rfl

/-- An operation of Executor[PPU] is the operation of the block. -/
theorem PpuOp.exec_instr (op : PpuOp) (s : State) : exec op.instr s = ppuOp op s := by
  cases op <;> rfl

/-! ### The events of the Executors' steps -/

/-- A bus operation of Executor[CPU] appends its anomaly, if it has one. -/
theorem State.cpuOp_out (s : State) (op : CpuOp) : (s.cpuOp op).out = s.out ++ op.events s.cfg := by
  cases op with
  | read a =>
    have h := State.read_state s .cpu a
    simp only [State.read] at h
    simp only [State.cpuOp, State.cpuReadOp, State.respond, CpuOp.events, List.append_nil]
    rw [h]
  | write a d =>
    cases hl : resolveCpu s.cfg a with
    | some l =>
      simp only [State.cpuOp, State.cpuWrite, CpuOp.events, hl]
      exact State.progWrite_out _ _ _ _ _
    | none => simp only [State.cpuOp, State.cpuWrite, CpuOp.events, hl, State.diag_out]

theorem State.cpuOps_out (ops : List CpuOp) (s : State) :
    (ops.foldl State.cpuOp s).out = s.out ++ ops.flatMap (CpuOp.events s.cfg) := by
  induction ops generalizing s with
  | nil => simp
  | cons op ops ih =>
    obtain ⟨m, r, es, n, h⟩ := s.cpuOp_state op
    rw [List.foldl_cons, ih, State.cpuOp_out, show (s.cpuOp op).cfg = s.cfg by rw [h]]
    simp

/-- The step of Executor[CPU] appends the anomalies of its operations, in order. -/
theorem cpuStep_out {s t : State} (h : cpuStep s = .next t) :
    t.out = s.out ++ s.env.cpuOps.flatMap (CpuOp.events s.cfg) := by
  simp only [cpuStep, State.setView_eq] at h
  cases h
  simpa [State.call] using State.cpuOps_out s.env.cpuOps (s.call (.step .cpu))

/-- An operation of Executor[PPU] appends its anomaly, if it has one. -/
theorem ppuOp_out {op : PpuOp} {s t : State} (h : ppuOp op s = .next t) :
    t.out = s.out ++ op.events s.cfg := by
  cases op with
  | read a => cases h; simp [State.ppuReadOp, State.respond, PpuOp.events]
  | write a d => cases h; exact State.progWrite_out _ _ _ _ _
  | render =>
    obtain ⟨m, _, rfl⟩ := renderPass_cases h
    simp [PpuOp.events]

theorem ppuOps_out {ops : List PpuOp} {s t : State} (h : ppuOps ops s = .next t) :
    t.out = s.out ++ ops.flatMap (PpuOp.events s.cfg) := by
  induction ops generalizing s with
  | nil => cases h; simp
  | cons op ops ih =>
    obtain ⟨u, hu, ht⟩ := andThen_eq_next.1 h
    have hc : u.cfg = s.cfg := by obtain ⟨m, r, es, rfl⟩ := ppuOp_state hu; rfl
    rw [ih ht, ppuOp_out hu, hc]
    simp

/-- The step of Executor[PPU] appends the anomalies of its operations, in order. -/
theorem ppuStep_out {s t : State} (h : ppuStep s = .next t) :
    t.out = s.out ++ s.env.ppuOps.flatMap (PpuOp.events s.cfg) := by
  obtain ⟨u, hu, ht⟩ := andThen_eq_next.1 h
  rw [State.setView_eq] at ht
  cases ht
  simpa [State.call] using ppuOps_out hu

/-! ### The tick -/

/-- A tick that has a next state: its nine sub-steps. -/
theorem execTick_cases {s t : State} (h : execTick s = .next t) :
    s.halted = false ∧ ∃ s2 s4 s5 s6 s7,
      cpuStep (s.observe .cpu) = .next s2 ∧ ppuStep (s2.observe .ppu) = .next s4 ∧
      beamStep s4 = .next s5 ∧ beamStep s5 = .next s6 ∧ edgeCheck s6 = .next s7 ∧
      t = (s7.spCheck .cpu).spCheck .ppu := by
  unfold execTick at h
  split at h
  · cases h
  · rename_i hh
    simp only [tickSubsteps, runSubsteps, andThen_next] at h
    obtain ⟨s2, h2, h⟩ := andThen_eq_next.1 h
    obtain ⟨s4, h4, h⟩ := andThen_eq_next.1 h
    obtain ⟨s5, h5, h⟩ := andThen_eq_next.1 h
    obtain ⟨s6, h6, h⟩ := andThen_eq_next.1 h
    obtain ⟨s7, h7, h⟩ := andThen_eq_next.1 h
    exact ⟨by simpa using hh, s2, s4, s5, s6, s7, h2, h4, h5, h6, h7, by cases h; rfl⟩

/-- A tick completes when its sub-steps do. -/
theorem execTick_of {s s2 s4 s5 s6 s7 : State} (hh : s.halted = false)
    (h2 : cpuStep (s.observe .cpu) = .next s2) (h4 : ppuStep (s2.observe .ppu) = .next s4)
    (h5 : beamStep s4 = .next s5) (h6 : beamStep s5 = .next s6) (h7 : edgeCheck s6 = .next s7) :
    execTick s = .next ((s7.spCheck .cpu).spCheck .ppu) := by
  unfold execTick
  rw [hh]
  simp only [Bool.false_eq_true, if_false, tickSubsteps, runSubsteps, andThen_next, h2, h4, h5, h6, h7]

end Sys2Proof.Machine
end

