-- ==== Sys2Proof/Tests/Slice0.lean ====
section
/-! SUPPORT. Tests: the words of the opcode table, the checks of WellFormed, small cases of `95_test_vectors.md`, and a witness for the hypotheses of each statement. -/

open Sys2Proof Sys2Proof.Machine

namespace Sys2Proof.Tests

/-! ### Helpers -/

/-- The outcome is a next state that satisfies `p`. -/
def after (r : Result) (p : State → Bool) : Bool :=
  match r with
  | .next t => p t
  | _ => false

/-- The outcome is a refusal of this name. -/
def refusedAs (r : Result) (e : Refusal) : Bool :=
  match r with
  | .refused e' => e' = e
  | _ => false

/-- The outcome is a fault of this name. -/
def faultedAs (r : Result) (e : Fault) : Bool :=
  match r with
  | .fault e' => e' = e
  | _ => false

/-- The reference configuration of `95_test_vectors.md` section 2. -/
abbrev ref : Config := Config.profileRef

/-- `PROFILE_ONE`: one sprite entry. -/
def one : Config := { ref with gridW := 1, gridH := 1 }

/-- Two pixels per byte. -/
def packed : Config := { ref with ppb := .twoPerByte }

/-- A framebuffer with no room for offsets. -/
def tight : Config := { ref with fbTx := 2, fbTy := 2 }

/-- The gated animation profile. -/
def gated : Config := { ref with animGated := true }

/-- The power-on state of a configuration. -/
abbrev fresh (c : Config) : State := State.powerOn c

/-- A state of the reference configuration with the beam at (section, h, v). -/
def beamAt (sec : BeamSection) (h v : BitVec 16) : State :=
  { fresh ref with sect := sec, hCounter := h, vCounter := v }

/-- The same with the edge check done for another section. -/
def edgeAt (prev sec : BeamSection) (h v : BitVec 16) : State :=
  { beamAt sec h v with prevSection := prev }

/-- One listed byte. -/
def cell (st : Store) (off : Nat) (b : Byte) : Host.Cell := (st.index * 65536 + off, b)

/-- Both tables written: each entry (animIndex `a i`, spriteIndex 0), definitions 0 to 3 all (`next`, `packed`). -/
def tables (a : Nat → Byte) (next k : Byte) : List Host.Cell :=
  (List.range 4).flatMap (fun i => [cell .tableRam (2 * i) (a i), cell .tableRam (2 * i + 1) 0])
    ++ (List.range 4).flatMap fun j => [cell .tableRam (0x200 + 2 * j) next, cell .tableRam (0x201 + 2 * j) k]

/-- The PPU's Executor at a PC and an SP, with code in CODE_ROM from 0 on and `top` on its stack. -/
def ppuAt (pc sp : Addr) (code : List Byte) (lo : Byte) : State :=
  let s := fresh ref
  { s with
    mem := code.zipIdx.map (fun x => cell .codeRom x.2 x.1) ++
      [cell .tableRam 0x3FFE lo, cell .tableRam 0x3FFF 0]
    ppu := { s.ppu with codeRomLen := 6, view := ⟨pc, sp, 0⟩ } }

/-- A tight framebuffer, with no offsets in the tables. -/
def fitting : State := { fresh tight with mem := tables (fun _ => 0) 0 0x00 }

/-- Vector GS: four gated entries share definition 0, of speed 2, which leads to definition 1. -/
def sharing : State :=
  { fresh gated with
    mem := (List.range 8).map (fun i => cell .tableRam i 0) ++
      [cell .tableRam 0x200 1, cell .tableRam 0x201 0, cell .tableRam 0x202 2, cell .tableRam 0x203 0,
        cell .tableRam 0x204 1, cell .tableRam 0x205 0, cell .tableRam 0x206 0xFF, cell .tableRam 0x207 0] }

/-! ### The words of the opcode table, written out from `30_encoding.md` R101 and R120 -/

theorem test_decode_control :
    decodeTableWord 32 0x00000000 = some .reset ∧ decodeTableWord 32 0x01000000 = some .tick ∧
    decodeTableWord 32 0x02000000 = some .bstep ∧ decodeTableWord 32 0x03000000 = some .edgechk ∧
    decodeTableWord 32 0x04000003 = some (.waitset .vblank) ∧
    decodeTableWord 32 0x04000001 = some (.waitset .display) ∧
    decodeTableWord 32 0x05000000 = some .resume ∧ decodeTableWord 32 0x09000000 = some .render := by
  decide

theorem test_decode_instrumentation :
    decodeTableWord 32 0x06000000 = some (.observe .cpu) ∧
    decodeTableWord 32 0x07000001 = some (.spchk .ppu) ∧
    decodeTableWord 32 0x08000001 = some (.tracedump .ppu) := by
  decide

theorem test_decode_bus :
    decodeTableWord 32 0x10001000 = some (.prdP 0x0010) ∧
    decodeTableWord 32 0x110010AA = some (.pwrP 0x0010 0xAA) ∧
    decodeTableWord 32 0x12C00000 = some (.prdE 0xC000) ∧
    decodeTableWord 32 0x13C0005A = some (.pwrE 0xC000 0x5A) ∧
    decodeTableWord 32 0x14C00100 = some (.crd 0xC001) ∧
    decodeTableWord 32 0x15500009 = some (.cwr 0x5000 0x09) ∧
    decodeTableWord 32 0x20000300 = some (.loadrom 0 3) ∧
    decodeTableWord 32 0x20400102 = some (.loadrom 2 0x4001) := by
  decide

theorem test_decode_opcodes :
    decodeTableWord 16 0xC500 = some (.z80PushQq .ppu .bc) ∧
    decodeTableWord 16 0xF500 = some (.z80PushQq .ppu .af) ∧
    decodeTableWord 16 0xDDE5 = some (.z80PushIx .ppu) ∧
    decodeTableWord 16 0xFDE5 = some (.z80PushIy .ppu) ∧
    decodeTableWord 16 0xE1ED = some (.z80PopQq .ppu .hl) ∧
    decodeTableWord 16 0xDDE1 = some (.z80PopIx .ppu) ∧
    decodeTableWord 16 0xFDE1 = some (.z80PopIy .ppu) ∧
    decodeTableWord 16 0xED4D = some (.z80Reti .ppu) ∧
    decodeTableWord 16 0xED45 = some (.z80Retn .ppu) := by
  decide

/-- Reserved selectors and pairs of class OTHER (section 7 of the vectors). -/
theorem test_decode_refuses :
    decodeTableWord 32 0x0A000000 = none ∧ decodeTableWord 32 0x16000000 = none ∧
    decodeTableWord 32 0x21000000 = none ∧ decodeTableWord 16 0xED5D = none ∧
    decodeTableWord 16 0xDD21 = none ∧ decodeTableWord 16 0xC400 = none ∧
    decodeTableWord 16 0xCDC5 = none := by
  decide

/-- A word placed by withFetchWord is what the first step after reset runs. -/
theorem test_fetch_words :
    after (step (State.reset.withFetchWord 32 0x04000003)) (fun t => t.waitTarget = .vblank) ∧
    after (step (State.reset.withFetchWord 32 0x09000000)) (fun t => t.halted = false) ∧
    after (step (State.reset.withFetchWord 32 0x20000300)) (fun t => t.out = [.loadReport 0 3]) ∧
    after (step (State.reset.withFetchWord 16 0xC500)) (fun t => t.ppu.shadow = [⟨0, false⟩, ⟨0, true⟩]) ∧
    after (step (State.reset.withFetchWord 16 0xED4D)) (fun _ => true) := by
  decide +kernel

/-! ### WellFormed -/

theorem test_profiles_valid :
    ref.valid = true ∧ one.valid = true ∧ packed.valid = true ∧ tight.valid = true ∧
      gated.valid = true := by
  decide

theorem test_beam_constraints :
    Config.valid { ref with w := 0 } = false ∧ Config.valid { ref with w := 4 } = false ∧
    Config.valid { ref with wTotal := 65536 } = false ∧ Config.valid { ref with h := 0 } = false ∧
    Config.valid { ref with h := 3 } = false ∧ Config.valid { ref with hTotal := 65536 } = false := by
  decide

theorem test_ppu_map_constraints :
    Config.valid { ref with ppuTableBase := 0 } = false ∧
    Config.valid { ref with ppuDefBase := 0x4000 } = false ∧
    Config.valid { ref with ppuPixelBase := 0x8000 } = false ∧
    Config.valid { ref with ppuPixelBase := 0x10000 } = false := by
  decide

theorem test_cpu_map_constraints :
    Config.valid { ref with cpuMap := [] } = false ∧ Config.valid { ref with mapMax := 1 } = false ∧
    Config.valid { ref with cpuMap := [⟨1, 0, .ram⟩] } = false ∧
    Config.valid { ref with cpuMap := [⟨0, 0x10000, .ram⟩] } = false ∧
    Config.valid { ref with cpuMap := [⟨0, 0x10, .ram⟩, ⟨0x10, 0x20, .rom⟩] } = false := by
  decide

theorem test_table_constraints :
    Config.valid { ref with gridW := 0 } = false ∧ Config.valid { ref with gridH := 0 } = false ∧
    Config.valid { ref with spriteTableOff := 0x3FF9 } = false ∧
    Config.valid { ref with animTableOff := 0x3E01 } = false ∧
    Config.valid { ref with animTableOff := 7 } = false ∧
    Config.valid { ref with ppuDefBase := 0x8001 } = false := by
  decide

theorem test_framebuffer_constraints :
    Config.valid { ref with gridW := 4 } = false ∧ Config.valid { ref with gridH := 4 } = false ∧
    Config.valid { ref with fbTx := 86 } = false ∧ Config.valid { ref with sx := 0 } = false ∧
    Config.valid { ref with sy := 0 } = false ∧
    Config.valid { ref with w := 25, wTotal := 30 } = false ∧
    Config.valid { ref with h := 25, hTotal := 30 } = false := by
  decide

theorem test_cap_constraints :
    Config.valid { ref with shadowCap := 1 } = false ∧ Config.valid { ref with traceCap := 0 } = false := by
  decide

theorem test_instruction_checks :
    (Instr.waitset .none).wellFormed ref = false ∧ (Instr.waitset .hblank).wellFormed ref = true ∧
    (Instr.loadrom 3 1).wellFormed ref = false ∧ (Instr.loadrom 2 1).wellFormed ref = true := by
  decide

/-! ### Small cases of `95_test_vectors.md` -/

/-- Vectors B1, B3. -/
theorem test_bstep_display :
    after (exec .bstep { fresh ref with mem := [cell .pixelRam 0 0x11] })
      (fun t => t.beam = (.display, 1, 0) ∧ t.out = [.setPixel 0 0 0x11]) ∧
    after (exec .bstep (beamAt .display 2 0)) (fun t => t.beam = (.hblank, 2, 0) ∧ t.out = []) := by
  decide

/-- Vectors B5, B6, B8. -/
theorem test_bstep_line_ends :
    after (exec .bstep (beamAt .hblank 4 0)) (fun t => t.beam = (.display, 0, 1)) ∧
    after (exec .bstep (beamAt .hblank 4 1)) (fun t => t.beam = (.vblank, 0, 2)) ∧
    after (exec .bstep (beamAt .vblank 4 2)) (fun t => t.beam = (.display, 0, 0)) := by
  decide

/-- Vectors E3, E5. -/
theorem test_edgechk_events :
    after (exec .edgechk (edgeAt .display .hblank 3 1))
      (fun t => t.out = [.sectionChange .display .hblank, .raiseInt .ppu 0, .presentFrame]) ∧
    after (exec .edgechk (edgeAt .hblank .vblank 0 2))
      (fun t => t.out = [.sectionChange .hblank .vblank] ∧ t.prevSection = .vblank) := by
  decide

/-- Vectors E7, E8. -/
theorem test_edgechk_wait :
    after (exec .edgechk { edgeAt .hblank .display 0 1 with waitTarget := .display })
      (fun t => t.out = [.sectionChange .hblank .display, .raiseNmi .ppu, .waitDone .display] ∧
        t.waitTarget = .none) ∧
    after (exec .edgechk { edgeAt .hblank .display 0 1 with waitTarget := .vblank })
      (fun t => t.waitTarget = .vblank) := by
  decide

/-- Vectors W4, W6. -/
theorem test_waitset :
    after (exec (.waitset .hblank) { fresh ref with waitTarget := .vblank })
      (fun t => t.waitTarget = .hblank) ∧
    refusedAs (exec (.waitset .none) (fresh ref)) .waitsetNone := by
  decide

/-- Vector W5. -/
theorem test_resume :
    after (exec .resume { fresh ref with waitTarget := .vblank })
      (fun t => t.waitTarget = .none ∧ t.out = []) := by
  decide

/-- Program P1, tick 2: the HBLANK edge and its interrupt. -/
theorem test_tick :
    after (exec .tick (beamAt .display 2 0))
      (fun t => t.beam = (.hblank, 3, 0) ∧ t.prevSection = .hblank ∧
        t.out = [.sectionChange .display .hblank, .raiseInt .ppu 0] ∧ t.ppu.trace = [0]) := by
  decide +kernel

/-- Program P4, tick 2: the Executor's step takes SP below the mark, and the tick completes. -/
theorem test_tick_halts :
    after (exec .tick { beamAt .display 2 0 with env := { Env.idle with ppuView := some ⟨2, 0x7E80, 0⟩ } })
      (fun t => t.halted = true ∧ t.haltCause = 0x81 ∧ t.beam = (.hblank, 3, 0) ∧
        t.out.getLast? = some (.traceLine .ppu 0 1)) := by
  decide +kernel

/-- `RUNTO HBLANK` from reset: two of the three ticks, the pulses of the last one alone on the ports. -/
theorem test_runto :
    after (runTo .hblank [.idle, .idle, .idle] (fresh ref))
      (fun t => t.beam = (.hblank, 3, 0) ∧ t.waitTarget = .none ∧ t.calls = [.step .cpu, .step .ppu] ∧
        t.out.getLast? = some (.waitDone .hblank)) := by
  decide +kernel

/-- `TICKS 2` with an Executor that works in the second tick. -/
theorem test_ticks_inputs :
    ticksInputs [.idle, { Env.idle with ppuOps := [.render] }] =
      [.cmd 0x01000000 .idle, .cmd 0x01000000 { Env.idle with ppuOps := [.render] }] := by
  decide

/-- Vectors I1 (one push), I2 (a pop on one entry pair). -/
theorem test_observe_push_pop :
    after (exec (.observe .ppu) (ppuAt 0 0x7FFE [0xC5] 0))
      (fun t => t.ppu.shadow = [⟨0, false⟩, ⟨0, true⟩] ∧ t.ppu.trace = [0]) ∧
    after (exec (.z80PopQq .ppu .bc)
        { fresh ref with ppu := { (fresh ref).ppu with shadow := [⟨0, false⟩, ⟨0, true⟩, ⟨1, false⟩] } })
      (fun t => t.ppu.shadow = [⟨0, false⟩]) := by
  decide +kernel

/-- Vectors I3, I4. -/
theorem test_observe_return :
    after (exec (.observe .ppu) (ppuAt 0 0x7FFE [0xED, 0x4D] 0x06))
      (fun t => t.out = [.diag .suspiciousInterruptReturn (.interruptReturn .ppu 0 6)]) ∧
    after (exec (.observe .ppu) (ppuAt 0 0x7FFE [0xED, 0x4D] 0x05)) (fun t => t.out = []) := by
  decide +kernel

/-- Vectors I5, I6. -/
theorem test_observe_retn_other :
    after (exec (.observe .ppu) (ppuAt 0 0x7FFE [0xED, 0x45] 0x66))
      (fun t => t.out = [.diag .suspiciousInterruptReturn (.interruptReturn .ppu 0 0x66)]) ∧
    after (exec (.observe .ppu) (ppuAt 0 0x7FFE [0xED, 0x5D] 0x66)) (fun t => t.out = []) := by
  decide +kernel

/-- The ring of vector I1: the fifth push drops the oldest pair. -/
theorem test_push_overflow :
    after (exec (.z80PushIx .ppu)
        { fresh ref with
          ppu := { (fresh ref).ppu with
            view := ⟨4, 0, 0⟩
            shadow := [⟨0, false⟩, ⟨0, true⟩, ⟨1, false⟩, ⟨1, true⟩, ⟨2, false⟩, ⟨2, true⟩, ⟨3, false⟩, ⟨3, true⟩] } })
      (fun t => t.ppu.shadow =
        [⟨1, false⟩, ⟨1, true⟩, ⟨2, false⟩, ⟨2, true⟩, ⟨3, false⟩, ⟨3, true⟩, ⟨4, false⟩, ⟨4, true⟩]) := by
  decide

/-- Vectors I8, I9. -/
theorem test_spchk :
    after (exec (.spchk .ppu) (ppuAt 0 0x7F00 [] 0)) (fun t => t.halted = false ∧ t.out = []) ∧
    after (exec (.spchk .ppu) (ppuAt 0 0x7EFF [] 0))
      (fun t => t.halted = true ∧ t.haltCause = 0x81 ∧
        t.out.head? = some (.fatal .stackUnderflow .ppu 0x7EFF)) := by
  decide

/-- Vectors I10, I11. -/
theorem test_tracedump :
    after (exec (.tracedump .ppu)
        { fresh ref with ppu := { (fresh ref).ppu with trace := [0x10, 0x20, 0x20, 0x20] } })
      (fun t => t.out = [.traceLine .ppu 0x20 3, .traceLine .ppu 0x10 1]) ∧
    after (exec (.tracedump .ppu) { fresh ref with ppu := { (fresh ref).ppu with trace := [5, 7, 5] } })
      (fun t => t.out = [.traceLine .ppu 5 1, .traceLine .ppu 7 1, .traceLine .ppu 5 1]) := by
  decide

/-- Vectors M1 to M3. -/
theorem test_ppu_read_write :
    after (exec (.prdP 0) (fresh ref)) (fun t => t.rsp = .data 0) ∧
    after (exec (.pwrE 0xC000 0x5A) (fresh ref)) (fun t => t.mem = [cell .pixelRam 0 0x5A] ∧ t.out = []) ∧
    after (exec (.prdE 0xC000) { fresh ref with mem := [cell .pixelRam 0 0x5A] })
      (fun t => t.rsp = .data 0x5A) := by
  decide

/-- Vectors M4, M10. -/
theorem test_ppu_program_write :
    after (exec (.pwrP 0x0010 0xAA) (fresh ref))
      (fun t => t.mem = [cell .codeRom 0x10 0xAA] ∧ t.out = [.diag .writeToRom (.write .ppu 0x0010 0xAA)]) ∧
    after (exec (.pwrP 0x4001 0x09) (fresh ref))
      (fun t => t.mem = [cell .tableRam 1 0x09] ∧ t.out = []) := by
  decide

/-- Vectors M8, M11 to M13. -/
theorem test_cpu_read_write :
    after (exec (.cwr 0xC000 0x07) (fresh ref)) (fun t => t.mem = [cell .tableRam 0 0x07]) ∧
    after (exec (.crd 0xC001) { fresh ref with mem := [cell .tableRam 1 0x09] })
      (fun t => t.rsp = .data 0x09) ∧
    after (exec (.cwr 0x0100 0x01) (fresh ref))
      (fun t => t.mem = [cell (.cpuRegion 0) 0x100 0x01] ∧
        t.out = [.diag .writeToRom (.write .cpu 0x0100 0x01)]) ∧
    after (exec (.cwr 0x5000 0x09) (fresh ref))
      (fun t => t.mem = [] ∧ t.out = [.diag .writeToUnmappedRegion (.write .cpu 0x5000 0x09)]) := by
  decide

/-- Vectors M17, M20. -/
theorem test_loadrom :
    after (exec (.loadrom 0 3) { fresh ref with env := { Env.idle with img := [0xC5, 0xC1, 0xED] } })
      (fun t => t.mem = [cell .codeRom 0 0xC5, cell .codeRom 1 0xC1, cell .codeRom 2 0xED] ∧
        t.out = [.loadReport 0 3] ∧ t.ppu.codeRomLen = 3 ∧ t.cpu.codeRomLen = 0x4000) ∧
    refusedAs (exec (.loadrom 3 1) (fresh ref)) (.loadromNoRegion 3) := by
  decide +kernel

/-- Vector Z1. -/
theorem test_reset :
    after (exec .reset { beamAt .hblank 3 1 with halted := true, haltCause := 0x81, waitTarget := .vblank })
      (fun t => t.beam = (.display, 0, 0) ∧ t.prevSection = .display ∧ t.waitTarget = .none ∧
        t.halted = false ∧ t.haltCause = 0 ∧ t.out = [] ∧ t.calls = [.reset .cpu, .reset .ppu]) := by
  decide

/-- Vector CL: a clipped tile. -/
theorem test_render_clipped :
    after (exec .render
        { fresh { one with fbTx := 1, fbTy := 1, clip := true } with
          mem := [cell .tableRam 0 0, cell .tableRam 1 0, cell .tableRam 0x200 0, cell .tableRam 0x201 0x0A]
            ++ (List.range 64).map fun i => cell .defRom i (BitVec.ofNat 8 (i + 1)) })
      (fun t => t.byteAt ⟨.pixelRam, 10⟩ = 1 ∧ t.byteAt ⟨.pixelRam, 63⟩ = 54) := by
  decide +kernel

/-- Vector GS: gated entries that share a definition share its frame counter. -/
theorem test_render_shared_counter :
    after (exec .render sharing)
      (fun t => (List.range 4).map (fun i => t.byteAt (animIndexLoc t.cfg i)) = [0, 0, 1, 0] ∧
        t.byteAt (animDefLoc t.cfg 0 3) = 1 ∧ t.byteAt (animDefLoc t.cfg 1 3) = 0) := by
  decide +kernel

/-- Vector WR: the effective sprite index wraps. -/
theorem test_render_wraps : effectiveTile ⟨0, 0xFE, 0, 0xC0⟩ = 0x01 := by decide

/-! ### Witnesses: concrete states and operands that meet the hypotheses of the statements -/

theorem witness_CommandWordsDecode : ∀ sel ∈ [0x0A#8, 0x0F#8, 0x16#8, 0x1F#8, 0x21#8, 0xFF#8],
    0x09 < sel ∧ (sel < 0x10 ∨ 0x15 < sel) ∧ sel ≠ 0x20 := by
  decide

/-- The first and last address of each range of the PPU space. -/
theorem witness_PpuDecoderPartitions :
    ref.valid = true ∧ resolvePpu ref 0x3FFF = ⟨.codeRom, 0x3FFF⟩ ∧
    resolvePpu ref 0x4000 = ⟨.tableRam, 0⟩ ∧ resolvePpu ref 0x7FFF = ⟨.tableRam, 0x3FFF⟩ ∧
    resolvePpu ref 0x8000 = ⟨.defRom, 0⟩ ∧ resolvePpu ref 0xBFFF = ⟨.defRom, 0x3FFF⟩ ∧
    resolvePpu ref 0xC000 = ⟨.pixelRam, 0⟩ ∧ resolvePpu ref 0xFFFF = ⟨.pixelRam, 0x3FFF⟩ := by
  decide

/-- The first and last address of each range of the main-CPU space. -/
theorem witness_CpuDecoderRegionsThenWindow :
    ref.valid = true ∧ resolveCpu ref 0x0000 = some ⟨.cpuRegion 0, 0⟩ ∧
    resolveCpu ref 0x3FFF = some ⟨.cpuRegion 0, 0x3FFF⟩ ∧ resolveCpu ref 0x4000 = none ∧
    resolveCpu ref 0x7FFF = none ∧ resolveCpu ref 0x8000 = some ⟨.cpuRegion 1, 0⟩ ∧
    resolveCpu ref 0xBFFF = some ⟨.cpuRegion 1, 0x3FFF⟩ ∧
    resolveCpu ref 0xC000 = some ⟨.tableRam, 0⟩ ∧ resolveCpu ref 0xFFFF = some ⟨.tableRam, 0x3FFF⟩ := by
  decide

theorem witness_RegionIdsNameRomStores :
    2 ≤ (2 : BitVec 3).toNat ∧ regionStore ref 2 = some (.cpuRegion 0) ∧
    1 + ref.romCount < (3 : BitVec 3).toNat ∧ regionStore ref 3 = none := by
  decide

theorem witness_PixelIndexInjective :
    inFramebuffer ref 0 0 ∧ inFramebuffer ref 23 23 ∧ pixIdx ref 23 23 = 575 ∧ ¬inFramebuffer ref 24 0 := by
  simp only [inFramebuffer]
  decide

/-- One pixel in a byte; the even and the odd pixel of a byte of two. -/
theorem witness_FramebufferPixelAccess :
    (fresh ref).cfg.valid = true ∧ inFramebuffer ref 23 23 ∧ ref.ppb = .onePerByte ∧
    (fresh packed).cfg.valid = true ∧ inFramebuffer packed 0 0 ∧ packed.ppb = .twoPerByte ∧
    pixIdx packed 0 0 % 2 = 0 ∧ inFramebuffer packed 23 23 ∧ pixIdx packed 23 23 % 2 = 1 := by
  simp only [inFramebuffer]
  decide

/-- A PPU address in each class of store. -/
theorem witness_PpuProgramWriteResult :
    (resolvePpu ref 0x4000).store.memClass ref = .ram ∧ (resolvePpu ref 0x3FFF).store.memClass ref = .rom := by
  decide

/-- A main-CPU address that resolves, in each class of store, and one that does not. -/
theorem witness_CpuReadWriteResults :
    resolveCpu ref 0x0100 = some ⟨.cpuRegion 0, 0x100⟩ ∧ (Store.cpuRegion 0).memClass ref = .rom ∧
    resolveCpu ref 0x8000 = some ⟨.cpuRegion 1, 0⟩ ∧ (Store.cpuRegion 1).memClass ref = .ram ∧
    resolveCpu ref 0xC000 = some ⟨.tableRam, 0⟩ ∧ resolveCpu ref 0x5000 = none := by
  decide

/-- The first and the last byte of the shared table RAM. -/
theorem witness_SharedTableRamIsOneStore :
    ref.valid = true ∧ 0 < ref.tableLen ∧ 0x3FFF < ref.tableLen ∧
    (∀ e ∈ ref.cpuMap, ¬(e.first ≤ (0xC000 : Addr).toNat ∧ (0xC000 : Addr).toNat ≤ e.last)) ∧
    ∀ e ∈ ref.cpuMap, ¬(e.first ≤ (0xFFFF : Addr).toNat ∧ (0xFFFF : Addr).toNat ≤ e.last) := by
  decide

/-- A count the image covers, and a count above the length of the store. -/
theorem witness_LoadromResult :
    ref.valid = true ∧ regionStore ref 0 = some .codeRom ∧ (3 : BitVec 16).toNat ≤ [0xC5#8, 0xC1#8, 0xED#8].length ∧
    regionStore ref 2 = some (.cpuRegion 0) ∧ (Store.cpuRegion 0).length ref < (0x4001 : BitVec 16).toNat := by
  decide

/-- A state in range for each row of the transition table, at the ends of its range. -/
theorem witness_BstepTransitionTable :
    let five : State := { beamAt .vblank 4 3 with cfg := { ref with hTotal := 5 } }
    (∀ s ∈ [beamAt .display 1 1, beamAt .display 2 1, beamAt .hblank 3 0, beamAt .hblank 4 1,
      beamAt .hblank 4 0, beamAt .vblank 3 2, beamAt .vblank 4 2, five], s.beamOk = true) ∧
    (beamAt .display 1 1).hCounter.toNat < ref.w ∧ (beamAt .display 2 1).hCounter.toNat = ref.w ∧
    (beamAt .hblank 3 0).hCounter.toNat < ref.wTotal ∧ (beamAt .hblank 4 1).hCounter.toNat = ref.wTotal ∧
    (beamAt .hblank 4 1).vCounter.toNat = ref.h - 1 ∧ (beamAt .hblank 4 0).vCounter.toNat ≠ ref.h - 1 ∧
    (beamAt .vblank 3 2).hCounter.toNat < ref.wTotal ∧
    (beamAt .vblank 4 2).vCounter.toNat = ref.hTotal - 1 ∧
    five.cfg.valid = true ∧ five.vCounter.toNat ≠ five.cfg.hTotal - 1 := by
  decide

/-- One beyond each bound of the invariant, and an entry into NONE. -/
theorem witness_BeamStatesWithoutRowFault :
    (∀ s ∈ [beamAt .none 0 0, beamAt .display 3 0, beamAt .display 0 2, beamAt .hblank 1 0,
      beamAt .hblank 5 0, beamAt .hblank 4 2, beamAt .vblank 5 2, beamAt .vblank 0 1, beamAt .vblank 0 3],
      faultedAs (exec .bstep s) .beamStateUnspecified = true) ∧
    (edgeAt .display .none 0 0).prevSection ≠ .none := by
  decide

/-- In range, at the ends: the beam of each section. -/
theorem witness_BstepKeepsBeamInRange :
    ref.valid = true ∧ (beamAt .display 0 0).beamOk = true ∧ (beamAt .display 2 1).beamOk = true ∧
    (beamAt .hblank 2 0).beamOk = true ∧ (beamAt .hblank 4 1).beamOk = true ∧
    (beamAt .vblank 0 2).beamOk = true ∧ (beamAt .vblank 4 2).beamOk = true := by
  decide

/-- The first and the last line of each kind, and the frame start. -/
theorem witness_FramePeriodIsExact :
    ref.valid = true ∧ (0 : BitVec 16).toNat < ref.h ∧ (1 : BitVec 16).toNat = ref.h - 1 ∧
    (beamAt .display 0 0).beam = (.display, 0, 0) ∧ (beamAt .display 0 1).beam = (.display, 0, 1) ∧
    ref.h ≤ (2 : BitVec 16).toNat ∧ (2 : BitVec 16).toNat = ref.hTotal - 1 ∧
    (beamAt .vblank 0 2).beam = (.vblank, 0, 2) ∧
    Config.framePeriod { ref with w := 800, wTotal := 1056, h := 600, hTotal := 629 } = 665453 := by
  decide

/-- Two beam-steps of which the first changes the section. -/
theorem witness_SectionChangesPerFrame :
    (beamAt .display 0 0).beam = (.display, 0, 0) ∧ (beamAt .display 2 0).beamOk = true ∧
    after (beamStep (beamAt .display 2 0)) (fun t => t.sect = .hblank ∧
      after (beamStep t) fun u => u.sect = .hblank) := by
  decide

/-- An edge into each section, and none. -/
theorem witness_EdgechkResult :
    (edgeAt .display .display 0 0).sect = (edgeAt .display .display 0 0).prevSection ∧
    (edgeAt .display .hblank 3 1).sect ≠ (edgeAt .display .hblank 3 1).prevSection ∧
    (edgeAt .vblank .display 1 0).sect ≠ (edgeAt .vblank .display 1 0).prevSection ∧
    (edgeAt .hblank .vblank 0 2).sect ≠ (edgeAt .hblank .vblank 0 2).prevSection := by
  decide

theorem witness_WaitsetReplacesTarget : BeamSection.display ≠ .none := by decide

/-- The first region id that names nothing, and a halted state. -/
theorem witness_ReservedFormsRefused :
    1 + ref.romCount < (3 : BitVec 3).toNat ∧
    refusedAs (exec .tick { fresh ref with halted := true }) .tickWhileHalted := by
  decide

theorem witness_ResumeClearsWait : (fresh ref).waitTarget = .none := rfl

/-- An edge check that ends a wait. -/
theorem witness_WaitDoneOnlyFromEdgeCheck :
    after (exec .edgechk { edgeAt .hblank .display 0 1 with waitTarget := .display })
      (fun t => Event.waitDone .display ∈ t.out.drop 0) := by
  decide

/-- A running state in which the CPU writes the shared table RAM and the PPU reads the byte, then renders. -/
theorem witness_TickRunsSubstepsInOrder :
    let s : State := { fresh ref with
      env := ⟨[], [.write 0xC000 5], none, [.read 0x4000, .render], some ⟨2, 0x7FFE, 0⟩⟩ }
    s.halted = false ∧
    after (cpuStep s) fun a => a.byteAt ⟨.tableRam, 0⟩ = 5 ∧
      after (ppuStep a) fun b => b.rsp = .data 5 ∧ b.ppu.view.pc = 2 := by
  decide +kernel

/-- A running state in range, in a roomy framebuffer, in a clipped one, in a tight one without RENDER, and in a tight one with a RENDER that fits. -/
theorem witness_TickCompletes :
    ref.valid = true ∧ (fresh ref).beamOk = true ∧ (fresh ref).halted = false ∧ roomy ref = true ∧
    Config.valid { tight with clip := true } = true ∧ tight.valid = true ∧ roomy tight = false ∧
    (fresh tight).beamOk = true ∧ PpuOp.render ∉ (fresh tight).env.ppuOps ∧
    let s : State := { fitting with env := { Env.idle with ppuOps := [.render] } }
    s.beamOk = true ∧ s.halted = false ∧
    after (exec (.observe .cpu) s) fun a => after (cpuStep a) fun b =>
      after (exec (.observe .ppu) b) fun c => after (ppuStep c) fun _ => true := by
  decide +kernel

/-- A tick with a section change and one without. -/
theorem witness_TickReportsItsSectionChange :
    (edgeAt .display .display 2 0).prevSection = (edgeAt .display .display 2 0).sect ∧
    after (exec .tick (edgeAt .display .display 2 0)) (fun t => t.sect ≠ .display) ∧
    after (exec .tick (edgeAt .vblank .vblank 0 2)) (fun t => t.sect = .vblank) := by
  decide +kernel

theorem witness_EffectiveSpriteIndexWraps :
    (⟨0, 0xFE, 0, 0xC0⟩ : SlotInfo).spr = 0xFE ∧ (spriteOffset 0xC0).toNat = 3 := by
  decide

/-- In a roomy framebuffer a pass completes. -/
theorem render_completes (s : State) (h : roomy s.cfg = true) : ∃ t, exec .render s = .next t := by
  obtain ⟨m, hm⟩ := renderSlots_some s.ramEpoch (List.range s.cfg.slots) s.mem (.inr h)
  exact ⟨{ s with mem := m }, by simp only [exec, execRender, renderPass, hm]⟩

/-- A tight framebuffer, with tiles one pixel to the right. -/
def leaving : State := { fresh tight with mem := tables (fun _ => 0) 0 0x01 }

/-- Every pixel of every tile of `fitting` is in the framebuffer, which is neither roomy nor clipped. -/
theorem witness_RenderCompletesWithFrame :
    fitting.cfg.valid = true ∧ fitting.cfg.clip = false ∧ roomy fitting.cfg = false ∧
    (∀ i r col x y, i < fitting.cfg.slots → fitting.covers i r col x y → inFramebuffer fitting.cfg x y) ∧
    roomy (fresh ref).cfg = true := by
  have hi : ∀ i < 4, xOffset (fitting.slot i).packed = 0 ∧ yOffset (fitting.slot i).packed = 0 := by
    decide +kernel
  refine ⟨by decide, rfl, by decide, ?_, by decide⟩
  rintro i r col x y hs ⟨hr, hc, rfl, rfl⟩
  have hs : i < 4 := hs
  obtain ⟨h1, h2⟩ := hi i hs
  rw [h1, h2]
  have hw : fitting.cfg.gridW = 2 := rfl
  have hx : fitting.cfg.fbTx = 2 := rfl
  have hy : fitting.cfg.fbTy = 2 := rfl
  simp only [inFramebuffer, hw, hx, hy]
  omega

/-- The last column of slot 1 is one pixel outside. -/
theorem witness_RenderOutOfBoundsFaults :
    leaving.cfg.valid = true ∧ leaving.cfg.clip = false ∧ 1 < leaving.cfg.slots ∧
    leaving.covers 1 0 7 16 0 ∧ ¬inFramebuffer leaving.cfg 16 0 := by
  simp only [State.covers, inFramebuffer]
  decide +kernel

/-- A pass that completes, a pixel under the last tile, and a pixel under none. -/
theorem witness_RenderedFramebuffer :
    (fresh ref).cfg.valid = true ∧ (∃ t, exec .render (fresh ref) = .next t) ∧
    ({ fresh ref with mem := tables (fun _ => 0) 0 0 } : State).covers 3 7 7 15 15 ∧ inFramebuffer ref 15 15 ∧
    inFramebuffer ref 23 23 ∧
    ∀ i r col, i < ref.slots →
      ¬({ fresh ref with mem := tables (fun _ => 0) 0 0 } : State).covers i r col 23 23 := by
  have hi : ∀ i < 4, xOffset (({ fresh ref with mem := tables (fun _ => 0) 0 0 } : State).slot i).packed = 0 := by
    decide +kernel
  refine ⟨by decide, render_completes _ (by decide), ?_, ?_, ?_, ?_⟩
  · simp only [State.covers]
    decide +kernel
  · simp only [inFramebuffer]
    decide
  · simp only [inFramebuffer]
    decide
  · rintro i r col hs ⟨hr, hc, hx, hy⟩
    have hs : i < 4 := hs
    rw [hi i hs] at hx
    have hw : ({ fresh ref with mem := tables (fun _ => 0) 0 0 } : State).cfg.gridW = 2 := rfl
    rw [hw] at hx
    omega

/-- Gated entries 0 to 3 use definitions 0 to 3; definition 0 is due (speed 0), definition 1 is not (speed 2, counter 1). -/
def paced : State :=
  { fresh gated with
    mem := (List.range 4).map (fun i => cell .tableRam (2 * i) (BitVec.ofNat 8 i)) ++
      [cell .tableRam 0x202 0, cell .tableRam 0x203 0, cell .tableRam 0x206 2, cell .tableRam 0x207 1] }

/-- Entries alone with their definition, due and not due; and four that share one, of which the third is due. -/
theorem witness_RenderAdvancesAnimation :
    paced.cfg.valid = true ∧ (∃ t, exec .render paced = .next t) ∧
    (∃ t, exec .render sharing = .next t) ∧ 1 < paced.cfg.slots ∧ 3 < sharing.cfg.slots ∧
    paced.cfg.animGated = true ∧ (fresh ref).cfg.animGated = false ∧
    paced.entriesUsing 0 4 = 1 ∧ paced.entriesUsing 1 1 = 0 ∧ paced.entriesUsing 1 4 = 1 ∧
    sharing.entriesUsing 0 2 = 2 ∧ sharing.entriesUsing 0 4 = 4 ∧
    counterAfter 2 1 0 = 1 ∧ counterAfter 2 2 0 = 2 ∧ counterAfter 2 4 0 = 1 := by
  refine ⟨by decide, render_completes _ (by decide), render_completes _ (by decide), by decide,
    by decide, rfl, rfl, ?_⟩
  decide +kernel

/-- Self-loops without sprite offsets. -/
theorem witness_RenderTwiceSameFramebuffer :
    ({ fresh ref with mem := tables (fun _ => 0) 0 0x0A } : State).cfg.valid = true ∧
    (∀ i, i < ref.slots →
      (({ fresh ref with mem := tables (fun _ => 0) 0 0x0A } : State).slot i).next =
        (({ fresh ref with mem := tables (fun _ => 0) 0 0x0A } : State).slot i).anim ∧
      spriteOffset (({ fresh ref with mem := tables (fun _ => 0) 0 0x0A } : State).slot i).packed = 0) ∧
    ∃ t, exec .render { fresh ref with mem := tables (fun _ => 0) 0 0x0A } = .next t :=
  ⟨by decide, by decide +kernel, render_completes _ (by decide)⟩

/-- Vectors X0 and X2: a tile at x = 0, and the same tile once its definition says x = 2. -/
theorem witness_RenderOffsetShiftsTile :
    let s : State := { fresh one with mem := tables (fun _ => 1) 1 0x00 }
    let s' : State := s.setByte ⟨.tableRam, 0x203⟩ 0x02
    s.cfg.valid = true ∧ s.cfg.slots = 1 ∧ s'.cfg = s.cfg ∧
    (∀ o, o < 65536 → s'.byteAt ⟨.defRom, o⟩ = s.byteAt ⟨.defRom, o⟩) ∧
    (s'.slot 0).spr = (s.slot 0).spr ∧
    spriteOffset (s'.slot 0).packed = spriteOffset (s.slot 0).packed ∧
    yOffset (s'.slot 0).packed = yOffset (s.slot 0).packed ∧
    xOffset (s.slot 0).packed = 0 ∧ xOffset (s'.slot 0).packed = 2 ∧
    (∃ t, exec .render s = .next t) ∧ (∃ t', exec .render s' = .next t') ∧ inFramebuffer s.cfg 9 7 := by
  refine ⟨by decide +kernel, rfl, rfl, ?_, by decide +kernel, by decide +kernel, by decide +kernel,
    by decide +kernel, by decide +kernel, render_completes _ (by decide), render_completes _ (by decide),
    by simp only [inFramebuffer]; decide⟩
  intro o ho
  exact State.byteAt_setByte_other _ _ (by decide) ho (by simp)

/-- A PC on an opcode of each class, on mapped addresses; and an address that is not mapped. -/
theorem witness_ObserveResultByClass :
    (∀ x ∈ [([0xC5#8, 0xFF#8], OpClass.push), ([0xDD#8, 0xE1#8], .pop), ([0xED#8, 0x4D#8], .reti),
        ([0xED#8, 0x5D#8], .other)],
      let s := ppuAt 0 0x7FFE x.1 0
      mapped s.cfg .ppu (s.proc .ppu).view.pc = true ∧ mapped s.cfg .ppu ((s.proc .ppu).view.pc + 1) = true ∧
      opClass (s.read .ppu (s.proc .ppu).view.pc).1 (s.read .ppu ((s.proc .ppu).view.pc + 1)).1 = x.2 ∧
      mapped s.cfg .ppu (s.proc .ppu).view.sp = true ∧ mapped s.cfg .ppu ((s.proc .ppu).view.sp + 1) = true) ∧
    mapped ref .cpu 0x3FFF = true ∧ mapped ref .cpu 0x4000 = false := by
  decide +kernel

/-- A stack on mapped addresses, up to the wrap of SP + 1. -/
theorem witness_ReturnOpcodesCheckAddress :
    mapped ref .ppu 0xFFFF = true ∧ mapped ref .ppu (0xFFFF + 1) = true ∧
    mapped ref .cpu 0x3FFE = true ∧ mapped ref .cpu (0x3FFE + 1) = true := by
  decide

theorem witness_ObserveRunsTheOpcodeFound :
    (ppuAt 0 0x7FFE [0xC5] 0).opcodePair .ppu = ((0xC5, 0), ppuAt 0 0x7FFE [0xC5] 0) ∧
    decodeSniff .ppu 0xC5 0 = .ok (.z80PushQq .ppu .bc) ∧
    decodeSniff .ppu 0xED 0x5D = .error ⟨0xED, 0x5D⟩ := by
  refine ⟨?_, rfl, rfl⟩
  decide +kernel

/-- Pushes up to the capacity, then a pop: the condition holds with equality. -/
theorem witness_ShadowDepthCountsPushesMinusPops :
    ((fresh ref).proc .ppu).shadow = [] ∧
    let v : ExecView := ⟨0, 0, 0⟩
    let ks := [(v, OpClass.push), (v, .push), (v, .push), (v, .push), (v, .pop)]
    ∀ n, observedCount .pop (ks.take n) ≤ observedCount .push (ks.take n) ∧
      2 * (observedCount .push (ks.take n) - observedCount .pop (ks.take n)) ≤ (fresh ref).cfg.shadowCap := by
  refine ⟨rfl, ?_⟩
  intro v ks n
  by_cases h : n ≤ 5
  · revert n
    decide
  · rw [List.take_of_length_le (show ks.length ≤ n by simp only [ks, List.length_cons, List.length_nil]; omega)]
    decide

/-- The mark itself, and one below it. -/
theorem witness_SpchkGuardsTheMark :
    (ref.spLow .ppu).toNat ≤ ((ppuAt 0 0x7F00 [] 0).proc .ppu).view.sp.toNat ∧
    ((ppuAt 0 0x7EFF [] 0).proc .ppu).view.sp.toNat < (ref.spLow .ppu).toNat := by
  decide

/-- A map with a rom entry, and one without. -/
theorem witness_CodeRomRegionLength :
    ref.valid = true ∧ (⟨0x0000, 0x3FFF, .rom⟩ : MapEntry) ∈ ref.cpuMap ∧
    (∀ f ∈ ref.cpuMap, f.kind = .rom → 0x0000 ≤ f.first) ∧
    Config.valid { ref with cpuMap := [⟨0x8000, 0xBFFF, .ram⟩] } = true := by
  decide

/-- A word whose operation goes on, one whose operation faults, and one whose operation is refused. -/
theorem witness_StepRunsTheCommand :
    ref.valid = true ∧
    (∀ (s : State) (w : Cmd), (s.withCmd w).inbox = .cmd w .idle :: s.inbox) ∧
    decodeCmd 0x05000000 = .ok .resume ∧ after (exec .resume (fresh ref)) (fun _ => true) ∧
    decodeCmd 0x02000000 = .ok .bstep ∧
    faultedAs (exec .bstep (beamAt .none 0 0)) .beamStateUnspecified ∧
    decodeCmd 0x04000000 = .ok (.waitset .none) ∧
    refusedAs (exec (.waitset .none) (fresh ref)) .waitsetNone ∧ Refusal.waitsetNone.dropsTheWord = true := by
  refine ⟨by decide, fun _ _ => rfl, rfl, by decide, rfl, by decide, rfl, by decide, rfl⟩

/-- A reserved selector, a pulse on rst, no input, and no configuration of this hardware. -/
theorem witness_StepWithoutOperation :
    ref.valid = true ∧ decodeCmd 0x0A000000 = .error ⟨0x0A⟩ ∧
    ({ fresh ref with inbox := [.rst .idle] } : State).inbox = .rst .idle :: [] ∧ (fresh ref).inbox = [] ∧
    (fresh { ref with w := 0 }).cfg.valid = false := by
  refine ⟨by decide, rfl, rfl, rfl, by decide⟩

theorem witness_FetchedWordRuns :
    State.reset.cfg.valid = true ∧ decodeTableWord 32 0x01000000 = some .tick ∧
    decodeTableWord 16 0xDDE5 = some (.z80PushIx .ppu) := by
  decide

/-- Two good states, one with a word in the queue; each step has a next state. -/
theorem witness_StepKeepsStateGood :
    State.reset.good = true ∧ (∃ t, step State.reset = .next t) ∧
    ((fresh ref).withCmd 0x01000000).good = true ∧
    after (step ((fresh ref).withCmd 0x01000000)) (fun t => t.hCounter = 2) := by
  refine ⟨by decide +kernel, ⟨_, rfl⟩, by decide +kernel, by decide +kernel⟩

/-- An operation that is none of the three completes. -/
theorem witness_BeamChangedOnlyByBstepTickReset :
    after (exec .resume (fresh ref)) (fun t => t.beam = (.display, 0, 0)) ∧ Instr.resume ≠ .bstep ∧
    Instr.resume ≠ .tick ∧ Instr.resume ≠ .reset := by
  decide

/-- A second fatal in a halted state. -/
theorem witness_HaltLeftOnlyByReset :
    ({ ppuAt 0 0x7EFF [] 0 with halted := true, haltCause := 0x81 } : State).halted = true ∧
    after (exec (.spchk .ppu) { ppuAt 0 0x7EFF [] 0 with halted := true, haltCause := 0x81 })
      (fun t => t.haltCause = 0x81) ∧ Instr.spchk .ppu ≠ .reset := by
  decide

/-- Two states that differ in a shadow stack, a trace and a printed line. -/
theorem witness_InstrumentationIsOutOfBand :
    State.withoutInstrumentation
        { fresh ref with
          ppu := { (fresh ref).ppu with trace := [1], shadow := [⟨1, false⟩] }
          out := [.traceLine .ppu 1 1] } =
      State.withoutInstrumentation (fresh ref) := by
  decide

end Sys2Proof.Tests
end

section
/-! O57: no step changes the configuration, and the output stream only grows at its end. One relation between a state and a later one, its rule for each shared operation, then for every instruction and for the step. -/

namespace Sys2Proof.Machine

/-! ### A state with the same configuration and a longer stream -/

/-- `t` has the configuration of `s`, and its output stream begins with that of `s` (`00_scope.md` R6, `10_state.md` R36). -/
structure State.Extends (s t : State) : Prop where
  cfg : t.cfg = s.cfg
  out : s.out <+: t.out

theorem State.extends_iff {s t : State} :
    s.Extends t ↔ t.cfg = s.cfg ∧ ∃ es, t.out = s.out ++ es :=
  ⟨fun ⟨hcfg, es, hout⟩ => ⟨hcfg, es, hout.symm⟩, fun ⟨hcfg, es, hout⟩ => ⟨hcfg, es, hout.symm⟩⟩

theorem State.Extends.of_append {s t : State} {es : List Event} (hcfg : t.cfg = s.cfg)
    (hout : t.out = s.out ++ es) : s.Extends t :=
  State.extends_iff.2 ⟨hcfg, es, hout⟩

theorem State.Extends.of_same {s t : State} (hcfg : t.cfg = s.cfg) (hout : t.out = s.out) :
    s.Extends t :=
  .of_append (es := []) hcfg (by rw [hout, List.append_nil])

theorem State.Extends.trans {s t u : State} (hst : s.Extends t) (htu : t.Extends u) : s.Extends u :=
  ⟨htu.cfg.trans hst.cfg, hst.out.trans htu.out⟩

/-- An operation that completes with `u` has no other next state. -/
theorem State.Extends.of_next {s t u : State} (hu : s.Extends u) (h : (.next u : Result) = .next t) :
    s.Extends t := by
  cases h
  exact hu

/-! ### The shared operations -/

theorem State.emit_extends (s : State) (e : Event) : s.Extends (s.emit e) := .of_append rfl rfl

theorem State.emitAll_extends (s : State) (es : List Event) : s.Extends (s.emitAll es) :=
  .of_append rfl rfl

theorem State.setRomLen_extends (s : State) (r : BitVec 3) (m : Nat) :
    s.Extends (s.setRomLen r m) := by
  unfold State.setRomLen
  split
  · exact .of_same (State.setProc_cfg ..) (State.setProc_out ..)
  · exact .of_same rfl rfl

/-- LOADROM reports at the end of the stream, after bytes that do not touch it. -/
theorem State.loadRom_extends (s : State) (r : BitVec 3) (st : Store) (m : Nat) :
    s.Extends (s.loadRom r st m) := by
  have hbytes : s.Extends (s.storeBytes st 0 (s.imageBytes m)) := by
    rw [State.storeBytes_eq]
    exact .of_same rfl rfl
  have hlen := (hbytes.trans (State.emit_extends _ (.loadReport r m))).trans
    (State.setRomLen_extends _ r m)
  simp only [State.loadRom]
  split
  · exact hlen.trans (.of_same rfl rfl)
  · exact hlen

theorem State.observeClass_extends (s : State) (p : Proc) (k : OpClass) :
    s.Extends (s.observeClass p k) := by
  obtain ⟨sh, n, es, h, -, -⟩ := s.observeClass_state p k
  rw [h]
  exact .of_append (State.setProc_cfg ..) rfl

theorem State.observe_extends (s : State) (p : Proc) : s.Extends (s.observe p) := by
  obtain ⟨sh, n, es, h, -, -⟩ := s.observe_state p
  rw [h]
  exact .of_append (State.setProc_cfg ..) rfl

theorem State.spCheck_extends (s : State) (p : Proc) : s.Extends (s.spCheck p) := by
  rcases s.spCheck_cases p with ⟨-, h⟩ | ⟨-, h⟩
  · rw [h]
    exact .of_same rfl rfl
  · rw [h, State.raiseFatal_eq]
    exact .of_append rfl rfl

theorem State.cpuOp_extends (s : State) (op : CpuOp) : s.Extends (s.cpuOp op) := by
  obtain ⟨m, r, es, n, h⟩ := s.cpuOp_state op
  rw [h]
  exact .of_append rfl rfl

theorem ppuOp_extends {op : PpuOp} {s t : State} (h : ppuOp op s = .next t) : s.Extends t := by
  obtain ⟨m, r, es, rfl⟩ := ppuOp_state h
  exact .of_append rfl rfl

theorem beamStep_extends {s t : State} (h : beamStep s = .next t) : s.Extends t := by
  rcases beamStep_cases h with ⟨-, -, rfl⟩ | ⟨-, -, rfl⟩ | ⟨-, -, rfl⟩ | ⟨-, -, rfl⟩ |
    ⟨-, -, -, rfl⟩ | ⟨-, -, -, rfl⟩
  · exact .of_append rfl s.streamPixel_out
  all_goals exact .of_same rfl rfl

theorem edgeCheck_extends {s t : State} (h : edgeCheck s = .next t) : s.Extends t := by
  rcases edgeCheck_cases h with ⟨-, rfl⟩ | ⟨-, -, rfl⟩
  · exact .of_same rfl rfl
  · exact .of_append rfl rfl

/-! ### The tick -/

theorem cpuStep_extends {s t : State} (h : cpuStep s = .next t) : s.Extends t := by
  obtain ⟨m, r, es, n, rfl⟩ := cpuStep_cases h
  exact .of_append rfl rfl

theorem ppuStep_extends {s t : State} (h : ppuStep s = .next t) : s.Extends t := by
  obtain ⟨m, r, es, rfl⟩ := ppuStep_cases h
  exact .of_append rfl rfl

/-- A tick extends the stream because each of its nine sub-steps does. -/
theorem execTick_extends {s t : State} (h : execTick s = .next t) : s.Extends t := by
  obtain ⟨-, s2, s4, s5, s6, s7, h2, h4, h5, h6, h7, rfl⟩ := execTick_cases h
  have hcpu : s.Extends s2 := (s.observe_extends .cpu).trans (cpuStep_extends h2)
  have hppu : s2.Extends s4 := (s2.observe_extends .ppu).trans (ppuStep_extends h4)
  have hbeam : s4.Extends s7 :=
    ((beamStep_extends h5).trans (beamStep_extends h6)).trans (edgeCheck_extends h7)
  have hguard : s7.Extends ((s7.spCheck .cpu).spCheck .ppu) :=
    (s7.spCheck_extends .cpu).trans (State.spCheck_extends _ .ppu)
  exact ((hcpu.trans hppu).trans hbeam).trans hguard

/-! ### Every instruction -/

theorem execWaitset_extends {sec : BeamSection} {s t : State} (h : execWaitset sec s = .next t) :
    s.Extends t := by
  unfold execWaitset at h
  split at h
  · cases h
  · cases h
    exact .of_same rfl rfl

theorem execLoadrom_extends {r : BitVec 3} {n : BitVec 16} {s t : State}
    (h : execLoadrom r n s = .next t) : s.Extends t := by
  unfold execLoadrom at h
  split at h
  · exact (s.loadRom_extends r _ _).of_next h
  · cases h

/-- RESET keeps the configuration and erases no event (log 24). -/
theorem State.resetBlock_extends (s : State) : s.Extends s.resetBlock := .of_same rfl rfl

/-- No instruction changes the configuration or rewrites an event. -/
theorem exec_extends {i : Instr} {s t : State} (h : exec i s = .next t) : s.Extends t := by
  cases i with
  | reset => exact s.resetBlock_extends.of_next h
  | tick => exact execTick_extends h
  | bstep => exact beamStep_extends h
  | edgechk => exact edgeCheck_extends h
  | waitset sec => exact execWaitset_extends h
  | resume => cases h; exact .of_same rfl rfl
  | observe p => exact (s.observe_extends p).of_next h
  | spchk p => exact (s.spCheck_extends p).of_next h
  | tracedump p => exact (s.emitAll_extends (s.traceLines p)).of_next h
  | render => exact ppuOp_extends (op := .render) h
  | prdP a | prdE a => exact ppuOp_extends (op := .read a) h
  | pwrP a d => exact ppuOp_extends (op := .write a d) h
  | pwrE a d => cases h; exact .of_same rfl rfl
  | crd a => exact (s.cpuOp_extends (.read a)).of_next h
  | cwr a d => exact (s.cpuOp_extends (.write a d)).of_next h
  | loadrom r n => exact execLoadrom_extends h
  | z80PushQq p _ | z80PushIx p | z80PushIy p => exact (s.observeClass_extends p .push).of_next h
  | z80PopQq p _ | z80PopIx p | z80PopIy p => exact (s.observeClass_extends p .pop).of_next h
  | z80Reti p | z80Retn p => exact (s.observeClass_extends p .reti).of_next h

/-! ### The step -/

theorem State.accept_extends (s : State) (rest : List Input) (env : Env) :
    s.Extends (s.accept rest env) := .of_same rfl rfl

theorem step_extends {s t : State} (h : step s = .next t) : s.Extends t := by
  obtain ⟨-, ⟨-, rfl⟩ | ⟨env, rest, -, rfl⟩ | ⟨w, env, rest, -, ⟨r, rfl⟩ | ⟨i, -, hexec⟩⟩⟩ :=
    step_cases h
  case inl => exact .of_same rfl rfl
  case inr.inl => exact (s.accept_extends rest env).trans (State.resetBlock_extends _)
  case inr.inr.inl => exact (s.accept_extends rest env).trans (.of_same rfl rfl)
  case inr.inr.inr => exact (s.accept_extends rest env).trans (exec_extends hexec)

/-- Settles O57: every step extends the state it starts from. -/
theorem configurationConstantOutputAppendOnly :
    Obligations.ConfigurationConstantOutputAppendOnly :=
  fun _ _ h => State.extends_iff.1 (step_extends h)

end Sys2Proof.Machine
end

section
/-! The beam timer from a state in range and from one outside: O21 and O22. The invariant of `10_state.md` R23 as a statement about the counters, what a beam-step makes of it, and where a counter returns to 0. -/

namespace Sys2Proof.Machine

/-! ### The invariant of the beam -/

/-- The bounds of `10_state.md` R23, section by section. -/
theorem State.beamOk_iff (s : State) : s.beamOk = true ↔
    (s.sect = .display ∧ s.hCounter.toNat ≤ s.cfg.w ∧ s.vCounter.toNat ≤ s.cfg.h - 1) ∨
    (s.sect = .hblank ∧ s.cfg.w ≤ s.hCounter.toNat ∧ s.hCounter.toNat ≤ s.cfg.wTotal ∧
      s.vCounter.toNat ≤ s.cfg.h - 1) ∨
    (s.sect = .vblank ∧ s.hCounter.toNat ≤ s.cfg.wTotal ∧ s.cfg.h ≤ s.vCounter.toNat ∧
      s.vCounter.toNat ≤ s.cfg.hTotal - 1) := by
  unfold State.beamOk
  cases s.sect <;> simp [and_assoc]

/-- In range the beam is in one of the three sections. -/
theorem State.sect_ne_none {s : State} (hb : s.beamOk = true) : s.sect ≠ .none := by
  rcases s.beamOk_iff.1 hb with ⟨hs, -⟩ | ⟨hs, -⟩ | ⟨hs, -⟩ <;> simp [hs]

/-! ### A beam-step -/

/-- A beam-step changes the beam and the output stream only. -/
theorem beamStep_frame {s t : State} (h : beamStep s = .next t) :
    t = { s with sect := t.sect, hCounter := t.hCounter, vCounter := t.vCounter, out := t.out } := by
  rcases beamStep_cases h with ⟨-, -, rfl⟩ | ⟨-, -, rfl⟩ | ⟨-, -, rfl⟩ | ⟨-, -, rfl⟩ |
    ⟨-, -, -, rfl⟩ | ⟨-, -, -, rfl⟩ <;> rfl

/-- A counter below a bound of 16 bits takes one more without wrapping. -/
theorem counter_succ {x : BitVec 16} {n : Nat} (hx : x.toNat < n) (hn : n ≤ 65535) :
    (x + 1).toNat = x.toNat + 1 := by
  bv_omega

/-- A beam-step keeps the beam in range. -/
theorem beamStep_beamOk {s t : State} (hv : s.cfg.valid = true) (h : beamStep s = .next t) :
    t.beamOk = true := by
  obtain ⟨-, hw, hwT, hh1, hh, hhT⟩ := (Config.beamValid_iff _).1 ((Config.valid_iff _).1 hv).1
  have hb := s.beamOk_iff.1 (beamStep_inRange h)
  rw [State.beamOk_iff]
  rcases beamStep_cases h with ⟨hs, hc, rfl⟩ | ⟨hs, hc, rfl⟩ | ⟨hs | hs, hc, rfl⟩ | ⟨hs, hc, rfl⟩ |
    ⟨hs, hc, hlast, rfl⟩ | ⟨hs, hc, hlast, rfl⟩ <;>
    simp only [hs, reduceCtorEq, false_and, false_or, or_false, true_and] at hb ⊢
  · rw [counter_succ hc (by omega)]
    exact ⟨hc, hb.2⟩
  · exact ⟨by omega, by omega, hb.2⟩
  · rw [counter_succ hc hwT]
    exact ⟨by omega, hc, hb.2.2⟩
  · rw [counter_succ hc hwT]
    exact ⟨hc, hb.2⟩
  · rw [counter_succ (n := s.cfg.h) (by omega) (by omega)]
    by_cases hlast : s.vCounter.toNat = s.cfg.h - 1 <;> simp [hlast] <;> omega
  · exact ⟨Nat.zero_le _, Nat.zero_le _⟩
  · rw [counter_succ (n := s.cfg.hTotal) (by omega) hhT]
    exact ⟨Nat.zero_le _, by omega, by omega⟩

/-- The horizontal counter takes one more, stays, or returns to 0 from W_TOTAL. -/
theorem beamStep_hCounter {s t : State} (hv : s.cfg.valid = true) (h : beamStep s = .next t) :
    t.hCounter.toNat = s.hCounter.toNat + 1 ∨ t.hCounter = s.hCounter ∨
      (t.hCounter = 0 ∧ s.hCounter.toNat = s.cfg.wTotal) := by
  obtain ⟨-, hw, hwT, -⟩ := (Config.beamValid_iff _).1 ((Config.valid_iff _).1 hv).1
  rcases beamStep_cases h with ⟨-, hc, rfl⟩ | ⟨-, -, rfl⟩ | ⟨-, hc, rfl⟩ | ⟨-, hc, rfl⟩ |
    ⟨-, hc, -, rfl⟩ | ⟨-, hc, -, rfl⟩
  · exact .inl (counter_succ hc (by omega))
  · exact .inr (.inl rfl)
  · exact .inl (counter_succ hc hwT)
  all_goals exact .inr (.inr ⟨rfl, hc⟩)

/-- The vertical counter takes one more, stays, or returns to 0 from H_TOTAL - 1. -/
theorem beamStep_vCounter {s t : State} (hv : s.cfg.valid = true) (h : beamStep s = .next t) :
    t.vCounter.toNat = s.vCounter.toNat + 1 ∨ t.vCounter = s.vCounter ∨
      (t.vCounter = 0 ∧ s.vCounter.toNat = s.cfg.hTotal - 1) := by
  obtain ⟨-, -, -, -, hh, hhT⟩ := (Config.beamValid_iff _).1 ((Config.valid_iff _).1 hv).1
  have hlt : s.vCounter.toNat < s.cfg.hTotal := by
    rcases s.beamOk_iff.1 (beamStep_inRange h) with ⟨-, -, hb⟩ | ⟨-, -, -, hb⟩ | ⟨-, -, -, hb⟩ <;>
      omega
  rcases beamStep_cases h with ⟨-, -, rfl⟩ | ⟨-, -, rfl⟩ | ⟨-, -, rfl⟩ | ⟨-, -, rfl⟩ |
    ⟨-, -, hlast, rfl⟩ | ⟨-, -, -, rfl⟩
  case inr.inr.inr.inl => exact .inl (counter_succ hlt hhT)
  case inr.inr.inr.inr.inl => exact .inr (.inr ⟨rfl, hlast⟩)
  case inr.inr.inr.inr.inr => exact .inl (counter_succ hlt hhT)
  all_goals exact .inr (.inl rfl)

/-- Settles O22: a state in range has a beam-step, and each row of the transition table keeps its bounds. -/
theorem bstepKeepsBeamInRange : Obligations.BstepKeepsBeamInRange := by
  intro s hv hb
  obtain ⟨t, ht⟩ := beamStep_next hb
  exact ⟨t, ht, beamStep_beamOk hv ht, beamStep_hCounter hv ht, beamStep_vCounter hv ht⟩

/-! ### The states without a row -/

/-- An entry into the sentinel NONE faults (log 14). -/
theorem edgeCheck_fault {s : State} (hs : s.sect = .none) (hp : s.prevSection ≠ .none) :
    edgeCheck s = .fault .beamStateUnspecified := by
  unfold edgeCheck
  rw [if_neg (by rw [hs]; exact hp.symm), if_pos hs]

/-- Settles O21: outside the bounds of R23 there is no beam-step, and an entry into NONE has no edge check. -/
theorem beamStatesWithoutRowFault : Obligations.BeamStatesWithoutRowFault :=
  fun s => ⟨fun hout => beamStep_fault (Bool.eq_false_iff.2 (mt s.beamOk_iff.1 hout)), edgeCheck_fault⟩

end Sys2Proof.Machine
end

section
/-! The code ROM region of each processor: O50. The length register of `10_state.md` R33 holds the length of a store without loss, and the first rom entry found is the one with the lowest start. -/

namespace Sys2Proof.Machine

/-- A store's length fits the 17 bits of the length register. -/
theorem romLen_toNat {n : Nat} (h : n ≤ 65536) : (BitVec.ofNat 17 n).toNat = n := by
  rw [BitVec.toNat_ofNat]
  omega

/-- The length of a processor's code ROM region is the length of its store. -/
theorem codeRomLength_toNat {c : Config} (hv : c.valid = true) {p : Proc} {st : Store}
    (h : codeRomStore c p = some st) : (codeRomLength c p).toNat = st.length c := by
  rw [codeRomLength, h]
  exact romLen_toNat (Store.length_le hv st)

/-- Without a rom entry in CPU_MAP the main CPU has no code ROM. -/
theorem codeRomStore_cpu_none {c : Config} (h : ∀ e ∈ c.cpuMap, e.kind = .ram) :
    codeRomStore c .cpu = none := by
  have hroms : (cpuRegions c).filter (fun e => e.kind = .rom) = [] := by
    refine List.filter_eq_nil_iff.2 fun e he => ?_
    simp [h e ((cpuRegions_perm c).mem_iff.1 he)]
  simp only [codeRomStore, Option.map_eq_none_iff]
  exact findRom_eq_none.2 (by rw [hroms]; exact Nat.le_refl 0)

/-- With a rom entry in CPU_MAP the search for the first one finds it. -/
theorem findRom_zero_some {es : List MapEntry} {e : MapEntry} (he : e ∈ es) (hk : e.kind = .rom) :
    ∃ n, findRom 0 0 es = some n := by
  refine Option.ne_none_iff_exists'.1 fun hnone => ?_
  have hlen := findRom_eq_none.1 hnone
  have hmem : e ∈ es.filter fun f => f.kind = .rom := List.mem_filter.2 ⟨he, by simpa using hk⟩
  exact absurd (List.length_pos_of_mem hmem) (by omega)

/-- No rom entry stands before the first one found, so in a list with rising starts none starts lower. -/
theorem findRom_zero_first_le {es : List MapEntry} {n : Nat}
    (hs : es.Pairwise fun a b => a.first ≤ b.first) (h : findRom 0 0 es = some n) :
    ∃ e, es[n]? = some e ∧ e.kind = .rom ∧ ∀ f ∈ es, f.kind = .rom → e.first ≤ f.first := by
  obtain ⟨i, e, rfl, he, hk, hlen⟩ := findRom_eq_some h
  rw [Nat.zero_add]
  refine ⟨e, he, hk, fun f hf hfk => ?_⟩
  obtain ⟨j, hj, rfl⟩ := List.mem_iff_getElem.1 hf
  obtain ⟨hi, rfl⟩ := List.getElem?_eq_some_iff.1 he
  rcases Nat.lt_trichotomy j i with hlt | rfl | hlt
  · have hmem : es[j] ∈ (es.take i).filter fun f => f.kind = .rom :=
      List.mem_filter.2 ⟨List.mem_take_iff_getElem.2 ⟨j, by omega, rfl⟩, by simpa using hfk⟩
    exact absurd (List.length_pos_of_mem hmem) (by omega)
  · exact Nat.le_refl _
  · exact List.pairwise_iff_getElem.1 hs i j hi hj hlt

/-- Two entries of a valid CPU_MAP with the same start are the same entry. -/
theorem Config.entry_eq_of_first_eq {c : Config} (hv : c.valid = true) {e f : MapEntry}
    (he : e ∈ c.cpuMap) (hf : f ∈ c.cpuMap) (h : e.first = f.first) : e = f := by
  obtain ⟨-, -, hm, -⟩ := (Config.valid_iff c).1 hv
  simp only [Config.cpuMapValid, Bool.and_eq_true] at hm
  by_contra hne
  have : Std.Symm fun e f : MapEntry => e.last < f.first ∨ f.last < e.first := ⟨fun _ _ => Or.symm⟩
  have hdisj := ((pairwiseDisjoint_iff _).1 hm.2).forall he hf hne
  have := Config.entry_valid hv he
  have := Config.entry_valid hv hf
  omega

/-- The main CPU's code ROM is as long as the rom entry of CPU_MAP with the lowest start (log 20). -/
theorem codeRomLength_cpu {c : Config} (hv : c.valid = true) {e : MapEntry} (he : e ∈ c.cpuMap)
    (hk : e.kind = .rom) (hmin : ∀ f ∈ c.cpuMap, f.kind = .rom → e.first ≤ f.first) :
    (codeRomLength c .cpu).toNat = e.last - e.first + 1 := by
  have hperm := cpuRegions_perm c
  obtain ⟨n, hn⟩ := findRom_zero_some (hperm.mem_iff.2 he) hk
  obtain ⟨g, hg, hgk, hgmin⟩ := findRom_zero_first_le (cpuRegions_sorted c) hn
  have hgm : g ∈ c.cpuMap := hperm.mem_iff.1 (List.mem_of_getElem? hg)
  have hfirst : e.first = g.first :=
    Nat.le_antisymm (hmin g hgm hgk) (hgmin e (hperm.mem_iff.2 he) hk)
  obtain rfl := Config.entry_eq_of_first_eq hv he hgm hfirst
  rw [codeRomLength_toNat hv (st := .cpuRegion n) (by rw [codeRomStore, hn]; rfl)]
  simp only [Store.length, hg, Option.map_some, Option.getD_some]

/-- Settles O50: CODE_ROM for the PPU, the lowest rom entry or nothing for the main CPU. -/
theorem codeRomRegionLength : Obligations.CodeRomRegionLength :=
  fun c hv => ⟨codeRomLength_toNat hv (p := .ppu) rfl, fun _ he hk hmin => codeRomLength_cpu hv he hk hmin,
    fun hram => by rw [codeRomLength, codeRomStore_cpu_none hram]; rfl⟩

end Sys2Proof.Machine
end

section
/-! Memory that is canonical and inside its stores, and what keeps it so: the write of one byte, and a render pass. -/

namespace Sys2Proof.Machine

/-- Memory in canonical form, with no byte beyond the end of its store (`10_state.md` R20, log 16). -/
structure Memory.Good (c : Config) (m : List Host.Cell) : Prop where
  wf : Memory.wf c m = true
  inside : ∀ cell ∈ m, cell.1 % 65536 < (Store.ofIndex (cell.1 / 65536)).length c

/-- Memory that holds nothing. -/
theorem Memory.good_nil (c : Config) : Memory.Good c [] := ⟨rfl, by simp⟩

variable {c : Config} {m : List Host.Cell}

/-! ### One byte -/

/-- A write lists its own byte at most besides those listed before. -/
theorem mem_cellsPut {k : Nat} {v : Byte} {x : Host.Cell} (h : x ∈ cellsPut c k v m) :
    x = (k, v) ∨ x ∈ m := by
  unfold cellsPut at h
  split at h
  · exact .inr (List.mem_filter.1 h).1
  · exact mem_cellsInsert h

/-- The key of a byte inside its store says where in the store it is. -/
theorem Loc.key_inside (hv : c.valid = true) {l : Loc} (hl : l.off < l.store.length c) :
    l.key % 65536 < (Store.ofIndex (l.key / 65536)).length c := by
  have hoff : l.off < 65536 := hl.trans_le (Store.length_le hv _)
  have hkey : l.key % 65536 = l.off := by simp only [Loc.key]; omega
  rw [hkey, Loc.key_store hoff]
  exact hl

/-- Writing a byte of a store keeps memory good. -/
theorem Memory.good_put (h : Memory.Good c m) (hv : c.valid = true) {l : Loc}
    (hl : l.off < l.store.length c) (v : Byte) : Memory.Good c (cellsPut c l.key v m) := by
  refine ⟨Memory.wf_put _ _ h.wf, fun x hx => ?_⟩
  rcases mem_cellsPut hx with rfl | hx
  · exact Loc.key_inside hv hl
  · exact h.inside x hx

/-! ### A render pass -/

theorem Memory.good_fbSet (h : Memory.Good c m) (hv : c.valid = true) {x y : Nat}
    (hin : inFramebuffer c x y) (ep : Nat) (v : Byte) : Memory.Good c (fbSet c ep x y v m) := by
  unfold fbSet
  cases c.ppb <;> exact good_put h hv (pixelLoc_inside hv hin) _

/-- Of a tile only the pixels in the framebuffer are written. -/
theorem Memory.good_drawTile (h : Memory.Good c m) (hv : c.valid = true) (ep : Nat) (e : Byte)
    (x0 y0 : Nat) : Memory.Good c (drawTile c ep e x0 y0 m) := by
  refine List.foldlRecOn tileCoords _ h fun m hm rc _ => ?_
  unfold drawPixel
  split
  · exact good_fbSet hm hv ‹_› _ _
  · exact hm

/-- The animation advance writes the two tables only. -/
theorem Memory.good_advanceAnim (h : Memory.Good c m) (hv : c.valid = true) {i : Nat}
    (hi : i < c.slots) (ep : Nat) (info : SlotInfo) : Memory.Good c (advanceAnim c ep i info m) := by
  obtain ⟨hsprites, hanims, -, -⟩ := Config.tables_fit hv
  have hentry : (animIndexLoc c i).off < (animIndexLoc c i).store.length c := by
    simp only [animIndexLoc, Store.length]
    omega
  unfold advanceAnim
  simp only
  split
  · rename_i hg
    have hrange := animDefLoc_range c info.anim (b := 3) (by rw [Config.animDefSize_gated hg]; omega)
    have hcounter : (animDefLoc c info.anim.toNat 3).off <
        (animDefLoc c info.anim.toNat 3).store.length c := hrange.2.trans_le hanims
    split
    · exact good_put (good_put h hv hentry _) hv hcounter _
    · exact good_put h hv hcounter _
  · exact good_put h hv hentry _

theorem Memory.good_renderSlot (h : Memory.Good c m) (hv : c.valid = true) {i : Nat}
    (hi : i < c.slots) (ep : Nat) : Memory.Good c (renderSlot c ep m i) :=
  good_drawTile (good_advanceAnim h hv hi ep _) hv ep _ _ _

/-- A render pass over entries of the sprite table keeps memory good. -/
theorem Memory.good_renderSlots {ep : Nat} {is : List Nat} {m' : List Host.Cell}
    (h : Memory.Good c m) (hv : c.valid = true) (his : ∀ i ∈ is, i < c.slots)
    (hr : renderSlots c ep is m = some m') : Memory.Good c m' := by
  induction is generalizing m with
  | nil => exact Option.some.inj hr ▸ h
  | cons i is ih =>
    unfold renderSlots at hr
    split at hr
    · exact ih (good_renderSlot h hv (his i (List.mem_cons_self ..)) ep)
        (fun j hj => his j (List.mem_cons_of_mem _ hj)) hr
    · cases hr

end Sys2Proof.Machine
end

section
/-! Good states by parts: O54 and O48. The invariants of `State.good` as one statement with named parts, and the states after power-on and RESET. -/

namespace Sys2Proof.Machine

/-- What the invariants say of one processor: the rings within their capacities, the known code-ROM length within its region (`10_state.md` R31 to R33). -/
structure ProcState.Good (c : Config) (p : Proc) (x : ProcState) : Prop where
  shadow : x.shadow.length ≤ c.shadowCap
  trace : x.trace.length ≤ c.traceCap
  romLen : x.codeRomLen.toNat ≤ (codeRomLength c p).toNat

/-- The parts of a good state. -/
structure State.Good (s : State) : Prop where
  valid : s.cfg.valid = true
  beam : s.beamOk = true
  prev : s.prevSection ≠ .none
  mem : Memory.Good s.cfg s.mem
  cpu : s.cpu.Good s.cfg .cpu
  ppu : s.ppu.Good s.cfg .ppu
  halt : s.haltCause = if s.halted then 0x81 else 0

theorem State.romLenOk_iff (s : State) (p : Proc) : s.romLenOk p = true ↔
    (s.proc p).codeRomLen.toNat ≤ (codeRomLength s.cfg p).toNat := by
  rw [State.romLenOk, decide_eq_true_eq]

/-- A state is good when its parts are. -/
theorem State.good_iff (s : State) : s.good = true ↔ s.Good := by
  simp only [State.good, State.schedulerOk, State.memOk, State.insideStores, ProcState.ringsOk,
    State.haltOk, State.romLenOk_iff, Bool.and_eq_true, decide_eq_true_eq, List.all_eq_true]
  constructor
  · rintro ⟨⟨⟨⟨⟨⟨⟨⟨⟨hv, hb⟩, hp⟩, hwf⟩, hin⟩, hcs, hct⟩, hps, hpt⟩, hh⟩, hcr⟩, hpr⟩
    exact ⟨hv, hb, hp, ⟨hwf, hin⟩, ⟨hcs, hct, hcr⟩, ⟨hps, hpt, hpr⟩, hh⟩
  · rintro ⟨hv, hb, hp, ⟨hwf, hin⟩, ⟨hcs, hct, hcr⟩, ⟨hps, hpt, hpr⟩, hh⟩
    exact ⟨⟨⟨⟨⟨⟨⟨⟨⟨hv, hb⟩, hp⟩, hwf⟩, hin⟩, hcs, hct⟩, hps, hpt⟩, hh⟩, hcr⟩, hpr⟩

theorem State.Good.proc {s : State} (h : s.Good) (p : Proc) : (s.proc p).Good s.cfg p := by
  cases p
  · exact h.cpu
  · exact h.ppu

/-! ### What the invariants do not read -/

/-- A state without what no invariant reads: the wait target, the outputs, the queue, the supplied operations and the model's own counts. -/
def State.invariantPart (s : State) : State :=
  { s with
    waitTarget := .none
    rsp := .idle
    calls := []
    out := []
    inbox := []
    env := .idle
    ramEpoch := 0
    freeCount := 0 }

theorem State.invariantPart_good (s : State) : s.invariantPart.Good ↔ s.Good :=
  ⟨fun h => { h with }, fun h => { h with }⟩

/-- Two states that differ in the other fields only are good together. -/
theorem State.Good.of_invariantPart {s t : State} (hs : s.Good)
    (h : t.invariantPart = s.invariantPart) : t.Good :=
  t.invariantPart_good.1 (h ▸ s.invariantPart_good.2 hs)

/-! ### After power-on and RESET -/

/-- With empty rings and the length of its region a processor's part is good. -/
theorem ProcState.good_empty (c : Config) (p : Proc) (v : ExecView) :
    ProcState.Good c p ⟨[], [], codeRomLength c p, v⟩ := ⟨Nat.zero_le _, Nat.zero_le _, Nat.le_refl _⟩

/-- RESET of a valid configuration installs a good state, whatever was there. -/
theorem State.resetBlock_good {s : State} (hv : s.cfg.valid = true) : s.resetBlock.Good where
  valid := hv
  beam := (State.beamOk_iff _).2 (.inl ⟨rfl, Nat.zero_le _, Nat.zero_le _⟩)
  prev := by simp [State.resetBlock]
  mem := Memory.good_nil _
  cpu := ProcState.good_empty ..
  ppu := ProcState.good_empty ..
  halt := rfl

/-- The power-on state holds what RESET installs. -/
theorem State.powerOn_good {c : Config} (hv : c.valid = true) : (State.powerOn c).Good :=
  (State.resetBlock_good (s := State.powerOn c) hv).of_invariantPart rfl

/-- The configuration of the reset state is one of this hardware. -/
theorem Config.profileRef_valid : Config.profileRef.valid = true := by decide

/-- Settles O54: power-on gives a good state, and the reset state is one. -/
theorem powerOnStateIsGood : Obligations.PowerOnStateIsGood :=
  ⟨fun _ hv => (State.good_iff _).2 (State.powerOn_good hv),
    (State.good_iff _).2 (State.powerOn_good Config.profileRef_valid)⟩

/-- After power-on a byte of ROM holds 0 and a byte of RAM holds no value (`10_state.md` R30). -/
theorem State.powerOn_cell? (c : Config) {l : Loc} (hl : l.off < 65536) :
    (State.powerOn c).cell? l = if l.store.memClass c = .rom then some 0 else none :=
  unlisted_key c hl

/-- Settles O48: the reset state holds the values of power-on. -/
theorem resetStateValues : Obligations.ResetStateValues := by
  refine ⟨rfl, rfl, rfl, rfl, rfl, rfl, rfl, fun _ hl => State.powerOn_cell? _ hl, fun p => ?_⟩
  cases p <;> exact ⟨rfl, rfl, rfl⟩

end Sys2Proof.Machine
end

section
/-! O55, O58 and O59: what every step keeps. One relation between a state and a later one for the operations that leave the beam alone, its rule for each shared operation, then for every instruction; BSTEP, TICK and RESET, which move the beam, on their own; and the step. -/

namespace Sys2Proof.Machine

/-! ### A state with the same beam, the latch still set, and every invariant kept -/

/-- `t` has the beam of `s` (`10_state.md` R21, R22), is halted with the same cause if `s` is halted (R26), and is good if `s` is. -/
structure State.Keeps (s t : State) : Prop where
  beam : t.beam = s.beam
  latch : s.halted = true → t.halted = true ∧ t.haltCause = s.haltCause
  good : s.Good → t.Good

theorem State.Keeps.trans {s t u : State} (hst : s.Keeps t) (htu : t.Keeps u) : s.Keeps u where
  beam := htu.beam.trans hst.beam
  latch h := by
    obtain ⟨ht, hct⟩ := hst.latch h
    obtain ⟨hu, hcu⟩ := htu.latch ht
    exact ⟨hu, hcu.trans hct⟩
  good h := htu.good (hst.good h)

/-- An operation that completes with `u` has no other next state. -/
theorem State.Keeps.of_next {s t u : State} (hu : s.Keeps u) (h : (.next u : Result) = .next t) :
    s.Keeps t := by
  cases h
  exact hu

/-- A change of the other fields only. -/
theorem State.Keeps.of_invariantPart {s t : State} (h : t.invariantPart = s.invariantPart) :
    s.Keeps t where
  beam := (congrArg State.beam h :)
  latch hs := ⟨(congrArg State.halted h :).trans hs, (congrArg State.haltCause h :)⟩
  good hs := hs.of_invariantPart h

/-- A change of memory, to good memory. -/
theorem State.Keeps.of_mem {s : State} {m : List Host.Cell} (hm : s.Good → Memory.Good s.cfg m) :
    s.Keeps { s with mem := m } where
  beam := rfl
  latch h := ⟨h, rfl⟩
  good h := { h with mem := hm h }

/-- A change of one processor's part, within its bounds. -/
theorem State.Keeps.of_setProc {s : State} {p : Proc} {x : ProcState}
    (hx : s.Good → x.Good s.cfg p) : s.Keeps (s.setProc p x) where
  beam := by simp only [State.beam, State.setProc_sect, State.setProc_hCounter, State.setProc_vCounter]
  latch h := by simpa using h
  good h := by
    cases p
    · exact { h with cpu := hx h }
    · exact { h with ppu := hx h }

/-! ### Bus accesses -/

theorem State.respond_keeps (s : State) (b : Byte) : s.Keeps (s.respond b) := .of_invariantPart rfl

theorem State.emit_keeps (s : State) (e : Event) : s.Keeps (s.emit e) := .of_invariantPart rfl

theorem State.emitAll_keeps (s : State) (es : List Event) : s.Keeps (s.emitAll es) :=
  .of_invariantPart rfl

/-- The write of a byte inside its store. -/
theorem State.setByte_keeps {s : State} {l : Loc} (v : Byte)
    (hl : s.cfg.valid = true → l.off < l.store.length s.cfg) : s.Keeps (s.setByte l v) :=
  .of_mem fun h => Memory.good_put h.mem h.valid (hl h.valid) v

theorem State.progWrite_keeps {s : State} (p : Proc) (a : Addr) {l : Loc} (d : Byte)
    (hl : s.cfg.valid = true → l.off < l.store.length s.cfg) : s.Keeps (s.progWrite p a l d) := by
  have hdiag := s.emit_keeps (.diag .writeToRom (.write p a d))
  cases hc : l.store.memClass s.cfg with
  | ram =>
    rw [State.progWrite_ram hc]
    exact State.setByte_keeps d hl
  | rom =>
    rw [State.progWrite_rom hc]
    split
    · exact hdiag.trans (State.setByte_keeps d hl)
    · exact hdiag

theorem State.ppuWrite_keeps (s : State) (a : Addr) (d : Byte) : s.Keeps (s.ppuWrite a d) :=
  State.progWrite_keeps _ _ _ fun hv => resolvePpu_inside hv a

theorem State.ppuPoke_keeps (s : State) (a : Addr) (d : Byte) : s.Keeps (s.ppuPoke a d) :=
  State.setByte_keeps _ fun hv => resolvePpu_inside hv a

/-- A main-CPU operation; a write to an UNMAPPED address stores nothing. -/
theorem State.cpuOp_keeps (s : State) (op : CpuOp) : s.Keeps (s.cpuOp op) := by
  cases op with
  | read a =>
    have hread : s.Keeps (s.read .cpu a).2 := by
      rw [State.read_state]
      exact .of_invariantPart rfl
    exact hread.trans (State.respond_keeps _ _)
  | write a d =>
    simp only [State.cpuOp, State.cpuWrite]
    split
    · exact State.progWrite_keeps _ _ _ fun _ => resolveCpu_inside ‹_›
    · exact s.emit_keeps _

/-- A render pass writes inside the stores only. -/
theorem renderPass_keeps {s t : State} (h : renderPass s = .next t) : s.Keeps t := by
  obtain ⟨m, hm, rfl⟩ := renderPass_cases h
  exact .of_mem fun hg => Memory.good_renderSlots hg.mem hg.valid (fun _ hi => List.mem_range.1 hi) hm

theorem ppuOp_keeps {op : PpuOp} {s t : State} (h : ppuOp op s = .next t) : s.Keeps t := by
  cases op with
  | read a => exact (s.respond_keeps _).of_next h
  | write a d => exact (s.ppuWrite_keeps a d).of_next h
  | render => exact renderPass_keeps h

theorem ppuOps_keeps {ops : List PpuOp} {s t : State} (h : ppuOps ops s = .next t) : s.Keeps t := by
  induction ops generalizing s with
  | nil =>
    cases h
    exact .of_invariantPart rfl
  | cons op ops ih =>
    obtain ⟨u, hu, ht⟩ := andThen_eq_next.1 h
    exact (ppuOp_keeps hu).trans (ih ht)

/-! ### LOADROM -/

/-- A copy that fits its store. -/
theorem State.storeBytes_keeps {s : State} {st : Store} {off : Nat} {bs : List Byte}
    (hfit : off + bs.length ≤ st.length s.cfg) : s.Keeps (s.storeBytes st off bs) := by
  induction bs generalizing s off with
  | nil => exact .of_invariantPart rfl
  | cons b bs ih =>
    simp only [List.length_cons] at hfit
    exact (State.setByte_keeps b fun _ => by simp only; omega).trans
      (ih (by simp only [State.setByte_cfg]; omega))

/-- The region a LOADROM sets a length for is the code ROM of that processor (`30_encoding.md` R106, `10_state.md` R33). -/
theorem regionStore_eq_codeRomStore {r : BitVec 3} {p : Proc} (c : Config)
    (h : regionProc r = some p) : regionStore c r = codeRomStore c p := by
  unfold regionProc at h
  split at h
  · rename_i hr
    cases h
    rw [hr]
    rfl
  · split at h
    · rename_i hr
      cases h
      rw [hr]
      rfl
    · cases h

/-- The known code-ROM length stays within the region loaded. -/
theorem State.setRomLen_keeps {s : State} {r : BitVec 3} {st : Store} {m : Nat}
    (hst : regionStore s.cfg r = some st) (hm : m ≤ st.length s.cfg) : s.Keeps (s.setRomLen r m) := by
  unfold State.setRomLen
  split
  · rename_i p hp
    refine .of_setProc fun h => { h.proc p with romLen := ?_ }
    rw [codeRomLength_toNat h.valid ((regionStore_eq_codeRomStore _ hp).symm.trans hst),
      romLen_toNat (hm.trans (Store.length_le h.valid st))]
    exact hm
  · exact .of_invariantPart rfl

theorem State.loadRom_keeps {s : State} {r : BitVec 3} {st : Store} {m : Nat}
    (hst : regionStore s.cfg r = some st) (hm : m ≤ st.length s.cfg) : s.Keeps (s.loadRom r st m) := by
  have hbytes : s.Keeps (s.storeBytes st 0 (s.imageBytes m)) :=
    State.storeBytes_keeps (by simpa [State.imageBytes] using hm)
  have hcfg : (s.storeBytes st 0 (s.imageBytes m)).cfg = s.cfg := by rw [State.storeBytes_eq]
  have hlen := (hbytes.trans (State.emit_keeps _ (.loadReport r m))).trans
    (State.setRomLen_keeps (r := r) (st := st) (m := m) (by rw [State.emit_cfg, hcfg, hst])
      (by rw [State.emit_cfg, hcfg]; exact hm))
  simp only [State.loadRom]
  split
  · exact hlen.trans (.of_invariantPart rfl)
  · exact hlen

theorem execLoadrom_keeps {r : BitVec 3} {n : BitVec 16} {s t : State}
    (h : execLoadrom r n s = .next t) : s.Keeps t := by
  unfold execLoadrom at h
  split at h
  · exact (State.loadRom_keeps ‹_› (Nat.min_le_right ..)).of_next h
  · cases h

/-! ### The instrumentation -/

/-- One more element and one dropped when there are too many: the ring stays within its capacity. -/
theorem dropOldest_append_length_le {α : Type} {cap : Nat} {xs : List α} (h : xs.length ≤ cap) (x : α) :
    (dropOldest cap (xs ++ [x])).length ≤ cap :=
  dropOldest_length_le (by simpa using h)

/-- What observing an opcode leaves of a processor's part: the trace takes a PC, the shadow stack takes or loses up to two entries. -/
theorem ProcState.Good.observed {c : Config} {p : Proc} {x : ProcState} {sh : List ShadowEntry}
    (h : x.Good c p) (pc : Addr)
    (hsh : sh = x.shadow ∨ sh = x.shadow.dropLast.dropLast ∨
      ∃ e f, sh = dropOldest c.shadowCap (dropOldest c.shadowCap (x.shadow ++ [e]) ++ [f])) :
    ProcState.Good c p { x with trace := dropOldest c.traceCap (x.trace ++ [pc]), shadow := sh } where
  shadow := by
    rcases hsh with rfl | rfl | ⟨e, f, rfl⟩
    · exact h.shadow
    · have := h.shadow
      simp only [List.length_dropLast]
      omega
    · exact dropOldest_append_length_le (dropOldest_append_length_le h.shadow e) f
  trace := dropOldest_append_length_le h.trace pc
  romLen := h.romLen

theorem State.observeClass_keeps (s : State) (p : Proc) (k : OpClass) :
    s.Keeps (s.observeClass p k) := by
  obtain ⟨sh, n, es, h, hsh, -⟩ := s.observeClass_state p k
  rw [h]
  exact (State.Keeps.of_setProc fun hg => (hg.proc p).observed _ hsh).trans (.of_invariantPart rfl)

theorem State.observe_keeps (s : State) (p : Proc) : s.Keeps (s.observe p) := by
  have hfetch : s.Keeps (s.opcodePair p).2 := by
    rw [State.opcodePair_state]
    exact .of_invariantPart rfl
  exact hfetch.trans (State.observeClass_keeps _ p _)

/-- The stack fatal sets the latch and keeps an earlier cause (`60_exceptions.md` R304). -/
theorem State.raiseFatal_keeps (s : State) (p : Proc) (sp : Addr) :
    s.Keeps (s.raiseFatal .stackUnderflow p sp) := by
  rw [State.raiseFatal_eq]
  refine ⟨rfl, fun h => ⟨rfl, if_pos h⟩, fun h => { h with halt := ?_ }⟩
  cases hs : s.halted with
  | true => simpa [hs] using h.halt
  | false => rfl

theorem State.spCheck_keeps (s : State) (p : Proc) : s.Keeps (s.spCheck p) := by
  rcases s.spCheck_cases p with ⟨-, h⟩ | ⟨-, h⟩
  · rw [h]
    exact .of_invariantPart rfl
  · rw [h]
    exact s.raiseFatal_keeps p _

/-! ### The scheduler -/

/-- The section the edge check remembers is never the sentinel. -/
theorem edgeCheck_keeps {s t : State} (h : edgeCheck s = .next t) : s.Keeps t := by
  rcases edgeCheck_cases h with ⟨-, rfl⟩ | ⟨-, hs, rfl⟩
  · exact .of_invariantPart rfl
  · exact ⟨rfl, fun hh => ⟨hh, rfl⟩, fun hg => { hg with prev := hs }⟩

theorem execWaitset_keeps {sec : BeamSection} {s t : State} (h : execWaitset sec s = .next t) :
    s.Keeps t := by
  unfold execWaitset at h
  split at h
  · cases h
  · cases h
    exact .of_invariantPart rfl

/-! ### Every instruction but BSTEP, TICK and RESET -/

theorem exec_keeps {i : Instr} {s t : State} (h : exec i s = .next t) (hbstep : i ≠ .bstep)
    (htick : i ≠ .tick) (hreset : i ≠ .reset) : s.Keeps t := by
  cases i with
  | reset => exact absurd rfl hreset
  | tick => exact absurd rfl htick
  | bstep => exact absurd rfl hbstep
  | edgechk => exact edgeCheck_keeps h
  | waitset sec => exact execWaitset_keeps h
  | resume =>
    cases h
    exact .of_invariantPart rfl
  | observe p => exact (s.observe_keeps p).of_next h
  | spchk p => exact (s.spCheck_keeps p).of_next h
  | tracedump p => exact (s.emitAll_keeps (s.traceLines p)).of_next h
  | render => exact renderPass_keeps h
  | prdP a | prdE a => exact (s.respond_keeps (s.ppuByte a)).of_next h
  | pwrP a d => exact (s.ppuWrite_keeps a d).of_next h
  | pwrE a d => exact (s.ppuPoke_keeps a d).of_next h
  | crd a => exact (s.cpuOp_keeps (.read a)).of_next h
  | cwr a d => exact (s.cpuOp_keeps (.write a d)).of_next h
  | loadrom r n => exact execLoadrom_keeps h
  | z80PushQq p _ | z80PushIx p | z80PushIy p => exact (s.observeClass_keeps p .push).of_next h
  | z80PopQq p _ | z80PopIx p | z80PopIy p => exact (s.observeClass_keeps p .pop).of_next h
  | z80Reti p | z80Retn p => exact (s.observeClass_keeps p .reti).of_next h

/-- Settles O58: every other instruction keeps the beam. -/
theorem beamChangedOnlyByBstepTickReset : Obligations.BeamChangedOnlyByBstepTickReset :=
  fun _ _ _ h hbstep htick hreset => (exec_keeps h hbstep htick hreset).beam

/-! ### BSTEP and TICK -/

/-- A beam-step leaves the latch and its cause alone. -/
theorem beamStep_latch {s t : State} (h : beamStep s = .next t) :
    t.halted = s.halted ∧ t.haltCause = s.haltCause := by
  rw [beamStep_frame h]
  exact ⟨rfl, rfl⟩

theorem beamStep_good {s t : State} (hg : s.Good) (h : beamStep s = .next t) : t.Good := by
  have hb := beamStep_beamOk hg.valid h
  rw [beamStep_frame h] at hb ⊢
  exact { hg with beam := hb }

theorem State.setView_keeps (s : State) (p : Proc) (v : Option ExecView) : s.Keeps (s.setView p v) := by
  rw [State.setView_eq]
  exact .of_setProc fun h => { h.proc p with }

theorem cpuStep_keeps {s t : State} (h : cpuStep s = .next t) : s.Keeps t := by
  have hcall : s.Keeps (s.call (.step .cpu)) := .of_invariantPart rfl
  have hops : s.Keeps (s.env.cpuOps.foldl State.cpuOp (s.call (.step .cpu))) :=
    List.foldlRecOn _ _ hcall fun _ hu op _ => hu.trans (State.cpuOp_keeps _ op)
  exact (hops.trans (State.setView_keeps _ _ _)).of_next h

theorem ppuStep_keeps {s t : State} (h : ppuStep s = .next t) : s.Keeps t := by
  have hcall : s.Keeps (s.call (.step .ppu)) := .of_invariantPart rfl
  obtain ⟨u, hu, ht⟩ := andThen_eq_next.1 h
  exact ((hcall.trans (ppuOps_keeps hu)).trans (State.setView_keeps _ _ _)).of_next ht

/-- A tick: the two beam-steps stand between sub-steps that leave the beam alone. -/
theorem execTick_good {s t : State} (hg : s.Good) (h : execTick s = .next t) : t.Good := by
  obtain ⟨-, s2, s4, s5, s6, s7, h2, h4, h5, h6, h7, rfl⟩ := execTick_cases h
  have hcpu : s.Keeps s2 := (s.observe_keeps .cpu).trans (cpuStep_keeps h2)
  have hppu : s2.Keeps s4 := (s2.observe_keeps .ppu).trans (ppuStep_keeps h4)
  have hbeam : s6.Good := beamStep_good (beamStep_good ((hcpu.trans hppu).good hg) h5) h6
  have hguard : s7.Keeps ((s7.spCheck .cpu).spCheck .ppu) :=
    (s7.spCheck_keeps .cpu).trans (State.spCheck_keeps _ .ppu)
  exact ((edgeCheck_keeps h7).trans hguard).good hbeam

/-- Settles O59: a TICK is refused while halted, a beam-step does not touch the latch, and every other instruction keeps it. -/
theorem haltLeftOnlyByReset : Obligations.HaltLeftOnlyByReset := by
  intro i s t hhalt h hreset
  by_cases hbstep : i = .bstep
  · subst hbstep
    obtain ⟨hh, hc⟩ := beamStep_latch h
    exact ⟨hh.trans hhalt, hc⟩
  by_cases htick : i = .tick
  · subst htick
    obtain ⟨hrunning, -⟩ := execTick_cases h
    rw [hhalt] at hrunning
    cases hrunning
  exact (exec_keeps h hbstep htick hreset).latch hhalt

/-! ### The step -/

/-- Every instruction keeps a good state good. -/
theorem exec_good {i : Instr} {s t : State} (hg : s.Good) (h : exec i s = .next t) : t.Good := by
  by_cases hbstep : i = .bstep
  · subst hbstep
    exact beamStep_good hg h
  by_cases htick : i = .tick
  · subst htick
    exact execTick_good hg h
  by_cases hreset : i = .reset
  · subst hreset
    cases h
    exact State.resetBlock_good hg.valid
  exact (exec_keeps h hbstep htick hreset).good hg

theorem State.accept_keeps (s : State) (rest : List Input) (env : Env) :
    s.Keeps (s.accept rest env) := .of_invariantPart rfl

theorem State.idleEdge_keeps (s : State) : s.Keeps s.idleEdge := .of_invariantPart rfl

theorem State.turnAway_keeps (s : State) (r : Refusal) : s.Keeps (s.turnAway r) :=
  .of_invariantPart rfl

/-- Settles O55: an idle edge and a refused word leave what the invariants read, a pulse on rst installs it, and an operation keeps it. -/
theorem stepKeepsStateGood : Obligations.StepKeepsStateGood := by
  intro s t hs h
  have hg := s.good_iff.1 hs
  refine t.good_iff.2 ?_
  obtain ⟨hv, ⟨-, rfl⟩ | ⟨env, rest, -, rfl⟩ | ⟨w, env, rest, -, ⟨r, rfl⟩ | ⟨i, -, hexec⟩⟩⟩ :=
    step_cases h
  case inl => exact s.idleEdge_keeps.good hg
  case inr.inl => exact State.resetBlock_good hv
  case inr.inr.inl => exact ((s.accept_keeps rest env).trans (State.turnAway_keeps _ r)).good hg
  case inr.inr.inr => exact exec_good ((s.accept_keeps rest env).good hg) hexec

end Sys2Proof.Machine
end

section
/-! The two address decoders: O7 and O8. One equation for each range of the PPU space (`20_memory.md` R63) and for each stage of the main-CPU decoder (R65). -/

namespace Sys2Proof.Machine

variable {c : Config} {a b : Addr}

/-! ### The PPU decoder -/

theorem resolvePpu_codeRom (h : a.toNat < c.ppuTableBase) :
    resolvePpu c a = ⟨.codeRom, a.toNat⟩ := by
  simp [resolvePpu, h]

theorem resolvePpu_tableRam (ht : c.ppuTableBase ≤ a.toNat) (hd : a.toNat < c.ppuDefBase) :
    resolvePpu c a = ⟨.tableRam, a.toNat - c.ppuTableBase⟩ := by
  simp [resolvePpu, ht.not_gt, hd]

theorem resolvePpu_defRom (ht : c.ppuTableBase ≤ a.toNat) (hd : c.ppuDefBase ≤ a.toNat)
    (hp : a.toNat < c.ppuPixelBase) : resolvePpu c a = ⟨.defRom, a.toNat - c.ppuDefBase⟩ := by
  simp [resolvePpu, ht.not_gt, hd.not_gt, hp]

theorem resolvePpu_pixelRam (ht : c.ppuTableBase ≤ a.toNat) (hd : c.ppuDefBase ≤ a.toNat)
    (hp : c.ppuPixelBase ≤ a.toNat) : resolvePpu c a = ⟨.pixelRam, a.toNat - c.ppuPixelBase⟩ := by
  simp [resolvePpu, ht.not_gt, hd.not_gt, hp.not_gt]

/-- Where a store begins in the PPU space (`20_memory.md` R62); the main-CPU regions are not in it. -/
def Store.ppuBase (c : Config) : Store → Nat
  | .tableRam => c.ppuTableBase
  | .defRom => c.ppuDefBase
  | .pixelRam => c.ppuPixelBase
  | .codeRom | .cpuRegion _ => 0

/-- The byte an address selects says which address it was. -/
theorem resolvePpu_ppuBase_add_off (c : Config) (a : Addr) :
    (resolvePpu c a).store.ppuBase c + (resolvePpu c a).off = a.toNat := by
  unfold resolvePpu
  split
  · exact Nat.zero_add _
  next ht =>
    split
    · exact Nat.add_sub_of_le (Nat.not_lt.1 ht)
    next hd =>
      split
      · exact Nat.add_sub_of_le (Nat.not_lt.1 hd)
      next hp => exact Nat.add_sub_of_le (Nat.not_lt.1 hp)

theorem resolvePpu_injective (h : resolvePpu c a = resolvePpu c b) : a = b := by
  apply BitVec.eq_of_toNat_eq
  rw [← resolvePpu_ppuBase_add_off c a, h, resolvePpu_ppuBase_add_off]

/-- Settles O7: an equation for each range, and the address read back from the byte it selects. -/
theorem ppuDecoderPartitions : Obligations.PpuDecoderPartitions :=
  fun _ => ⟨fun _ => ⟨resolvePpu_codeRom, resolvePpu_tableRam, resolvePpu_defRom, resolvePpu_pixelRam⟩,
    fun _ _ => resolvePpu_injective, resolvePpu_inside, rfl, rfl, rfl, rfl⟩

/-! ### The main-CPU decoder -/

/-- Two different regions of a valid CPU_MAP share no address. -/
theorem cpuRegions_unique (hv : c.valid = true) {i j : Nat} {e f : MapEntry}
    (hi : (cpuRegions c)[i]? = some e) (hj : (cpuRegions c)[j]? = some f) (hlt : j < i)
    (he : e.first ≤ a.toNat ∧ a.toNat ≤ e.last) : ¬(f.first ≤ a.toNat ∧ a.toNat ≤ f.last) := by
  obtain ⟨-, -, hm, -⟩ := (Config.valid_iff c).1 hv
  simp only [Config.cpuMapValid, Bool.and_eq_true] at hm
  obtain ⟨hil, rfl⟩ := List.getElem?_eq_some_iff.1 hi
  obtain ⟨hjl, rfl⟩ := List.getElem?_eq_some_iff.1 hj
  have := List.pairwise_iff_getElem.1 (cpuRegions_disjoint hm.2) j i hjl hil hlt
  omega

/-- The declared region that contains an address wins. -/
theorem resolveCpu_region (hv : c.valid = true) {k : Nat} {e : MapEntry}
    (hk : (cpuRegions c)[k]? = some e) (ha : e.first ≤ a.toNat ∧ a.toNat ≤ e.last) :
    resolveCpu c a = some ⟨.cpuRegion k, a.toNat - e.first⟩ := by
  have hfind := findRegion_some (k := 0) hk ha fun j f hlt hj => cpuRegions_unique hv hk hj hlt ha
  rw [Nat.zero_add] at hfind
  simp [resolveCpu, hfind]

/-- Outside the declared regions the fallback window decides. -/
theorem resolveCpu_outside (h : ∀ e ∈ c.cpuMap, ¬(e.first ≤ a.toNat ∧ a.toNat ≤ e.last)) :
    resolveCpu c a = fallbackWindow c a := by
  have hfind : findRegion a 0 (cpuRegions c) = none :=
    findRegion_none fun e he => h e ((cpuRegions_perm c).mem_iff.1 he)
  simp [resolveCpu, hfind]

/-- The distance of an address from the start of the window, counted around the end of the space. -/
theorem addr_sub_toNat (a b : Addr) : (a - b).toNat = (a.toNat + 65536 - b.toNat) % 65536 := by
  bv_omega

/-- The class of a region is the kind of its entry. -/
theorem memClass_cpuRegion {k : Nat} {e : MapEntry} (hk : (cpuRegions c)[k]? = some e) :
    (Store.cpuRegion k).memClass c = e.kind := by
  simp [Store.memClass, hk]

/-- Settles O8: an entry keeps its addresses when CPU_MAP is sorted, and no other region claims them. -/
theorem cpuDecoderRegionsThenWindow : Obligations.CpuDecoderRegionsThenWindow := by
  refine fun c a hv => ⟨fun e he hfirst hlast => ?_, fun hout => ?_⟩
  · obtain ⟨k, hk⟩ := List.mem_iff_getElem?.1 ((cpuRegions_perm c).mem_iff.2 he)
    exact ⟨k, hk, memClass_cpuRegion hk, resolveCpu_region hv hk ⟨hfirst, hlast⟩⟩
  · rw [resolveCpu_outside hout, fallbackWindow, addr_sub_toNat]

end Sys2Proof.Machine
end

section
/-! The framebuffer: O10 and O11. A pixel index is a tile number and a position in the tile (`20_memory.md` R73), and a pixel is a byte or a nibble of one (R74). -/

namespace Sys2Proof.Machine

variable {c : Config} {x y : Nat}

/-! ### The pixel index -/

/-- The tile a pixel index lies in. -/
theorem pixIdx_div (c : Config) (x y : Nat) : pixIdx c x y / 64 = y / 8 * c.fbTx + x / 8 := by
  rw [pixIdx_eq]
  omega

/-- The position of a pixel index in its tile. -/
theorem pixIdx_mod (c : Config) (x y : Nat) : pixIdx c x y % 64 = y % 8 * 8 + x % 8 := by
  rw [pixIdx_eq]
  omega

/-- The row of tiles and the place in it, from the tile number. -/
theorem tileNumber_div_mod {n tx ty : Nat} (h : tx < n) :
    (ty * n + tx) / n = ty ∧ (ty * n + tx) % n = tx := by
  rw [Nat.mul_comm ty, Nat.mul_add_div (by omega), Nat.mul_add_mod, Nat.div_eq_of_lt h,
    Nat.mod_eq_of_lt h]
  exact ⟨rfl, rfl⟩

theorem pixIdx_lt (h : inFramebuffer c x y) : pixIdx c x y < c.fbTx * c.fbTy * 64 := by
  obtain ⟨hx, hy⟩ := h
  have hrow : (y / 8 + 1) * c.fbTx ≤ c.fbTy * c.fbTx := Nat.mul_le_mul_right _ (by omega)
  have htile : y / 8 * c.fbTx + x / 8 < c.fbTx * c.fbTy := by
    rw [Nat.mul_comm c.fbTx]
    rw [Nat.add_mul] at hrow
    omega
  exact (Nat.div_lt_iff_lt_mul (by decide)).1 (pixIdx_div c x y ▸ htile)

/-- Equal indices are in one tile and at one position of it, so they are one pixel. -/
theorem pixIdx_injective {x' y' : Nat} (hin : inFramebuffer c x y) (hin' : inFramebuffer c x' y')
    (h : pixIdx c x' y' = pixIdx c x y) : x' = x ∧ y' = y := by
  obtain ⟨hty, htx⟩ := tileNumber_div_mod (n := c.fbTx) (tx := x / 8) (ty := y / 8)
    (by have := hin.1; omega)
  obtain ⟨hty', htx'⟩ := tileNumber_div_mod (n := c.fbTx) (tx := x' / 8) (ty := y' / 8)
    (by have := hin'.1; omega)
  have htile : y' / 8 * c.fbTx + x' / 8 = y / 8 * c.fbTx + x / 8 := by
    rw [← pixIdx_div, h, pixIdx_div]
  rw [htile] at hty' htx'
  have hpos : y' % 8 * 8 + x' % 8 = y % 8 * 8 + x % 8 := by rw [← pixIdx_mod, h, pixIdx_mod]
  omega

/-- Settles O10: the tile number is below FB_TX * FB_TY, and an index gives back its tile and position. -/
theorem pixelIndexInjective : Obligations.PixelIndexInjective :=
  fun _ _ _ hin => ⟨rfl, pixIdx_lt hin, fun _ _ => pixIdx_injective hin⟩

/-! ### One pixel -/

/-- The byte of a pixel under the two packings. -/
theorem pixelLoc_eq (c : Config) (x y : Nat) :
    pixelLoc c x y =
      ⟨.pixelRam, if c.ppb = .onePerByte then pixIdx c x y else pixIdx c x y / 2⟩ := by
  cases h : c.ppb <;> simp [pixelLoc, h, PixelPacking.count]

theorem State.fbGet_onePerByte {s : State} (h : s.cfg.ppb = .onePerByte) :
    s.fbGet x y = s.byteAt (pixelLoc s.cfg x y) := by
  simp only [State.fbGet, h]

theorem State.fbGet_twoPerByte {s : State} (h : s.cfg.ppb = .twoPerByte) :
    s.fbGet x y = nibble (pixIdx s.cfg x y) (s.byteAt (pixelLoc s.cfg x y)) := by
  simp only [State.fbGet, h]

/-- With one pixel in a byte, writing the pixel stores the byte. -/
theorem byteOf_fbSet_onePerByte (h : c.ppb = .onePerByte) (ep : Nat) (v : Byte)
    (m : List Host.Cell) : byteOf c ep (fbSet c ep x y v m) (pixelLoc c x y) = v := by
  simp only [fbSet, h, byteOf_put, if_true]

/-- With two pixels in a byte, writing a pixel replaces its nibble. -/
theorem byteOf_fbSet_twoPerByte (h : c.ppb = .twoPerByte) (ep : Nat) (v : Byte)
    (m : List Host.Cell) :
    byteOf c ep (fbSet c ep x y v m) (pixelLoc c x y) =
      withNibble (pixIdx c x y) (byteOf c ep m (pixelLoc c x y)) v := by
  simp only [fbSet, h, byteOf_put, if_true]

theorem nibble_even {i : Nat} (h : i % 2 = 0) (b : Byte) :
    nibble i b = (b.extractLsb' 4 4).zeroExtend 8 := if_pos h

theorem nibble_odd {i : Nat} (h : i % 2 = 1) (b : Byte) :
    nibble i b = (b.extractLsb' 0 4).zeroExtend 8 := if_neg (by omega)

theorem withNibble_even {i : Nat} (h : i % 2 = 0) (b v : Byte) :
    withNibble i b v = v.extractLsb' 0 4 ++ b.extractLsb' 0 4 := if_pos h

theorem withNibble_odd {i : Nat} (h : i % 2 = 1) (b v : Byte) :
    withNibble i b v = b.extractLsb' 4 4 ++ v.extractLsb' 0 4 := if_neg (by omega)

/-- Settles O11: a case for each packing and, with two pixels in a byte, each nibble. -/
theorem framebufferPixelAccess : Obligations.FramebufferPixelAccess := by
  intro s x y v hv hin
  simp only [← pixelLoc_eq]
  refine ⟨fun hp => ?_, fun hp heven => ?_, fun hp hodd => ?_, fun l' hl' hne => ?_⟩
  · exact ⟨State.fbGet_onePerByte hp, byteOf_fbSet_onePerByte hp s.ramEpoch v s.mem⟩
  · rw [State.fbGet_twoPerByte hp, nibble_even heven, ← withNibble_even heven]
    exact ⟨rfl, byteOf_fbSet_twoPerByte hp s.ramEpoch v s.mem⟩
  · rw [State.fbGet_twoPerByte hp, nibble_odd hodd, ← withNibble_odd hodd]
    exact ⟨rfl, byteOf_fbSet_twoPerByte hp s.ramEpoch v s.mem⟩
  · exact byteOf_fbSet_other hv hin v s.mem hl' hne

end Sys2Proof.Machine
end

section
/-! Table RAM shared by the two processors: O18. A RAM byte that both decoders select is written through one and read through the other (`20_memory.md` R67, R69). -/

namespace Sys2Proof.Machine

/-! ### Bus accesses to a byte that resolves -/

theorem exec_prdP (a : Addr) (s : State) :
    exec (.prdP a) s = .next (s.respond (s.byteAt (resolvePpu s.cfg a))) := rfl

theorem exec_pwrP_ram {a : Addr} {s : State} (d : Byte)
    (hc : (resolvePpu s.cfg a).store.memClass s.cfg = .ram) :
    exec (.pwrP a d) s = .next (s.setByte (resolvePpu s.cfg a) d) :=
  congrArg _ (State.progWrite_ram hc)

theorem exec_crd_mapped {a : Addr} {s : State} {l : Loc} (h : resolveCpu s.cfg a = some l) :
    exec (.crd a) s = .next (s.respond (s.byteAt l)) := by
  have hread : s.cpuRead a = (s.byteAt l, s) := by simp only [State.cpuRead, h]
  simp only [exec, execCrd, State.cpuReadOp, hread]

theorem exec_cwr_ram {a : Addr} {s : State} {l : Loc} (d : Byte) (h : resolveCpu s.cfg a = some l)
    (hc : l.store.memClass s.cfg = .ram) : exec (.cwr a d) s = .next (s.setByte l d) := by
  simp only [exec, execCwr, State.cpuWrite, h, State.progWrite_ram hc]

/-! ### The two addresses of a byte of table RAM -/

/-- Byte `o` of table RAM in the PPU space. -/
theorem resolvePpu_tableRam_offset {c : Config} (hv : c.valid = true) {o : Nat}
    (ho : o < c.tableLen) :
    resolvePpu c (BitVec.ofNat 16 (c.ppuTableBase + o)) = ⟨.tableRam, o⟩ := by
  have hp := (Config.ppuMapValid_iff c).1 ((Config.valid_iff c).1 hv).2.1
  unfold Config.tableLen at ho
  have hpa : (BitVec.ofNat 16 (c.ppuTableBase + o)).toNat = c.ppuTableBase + o := by
    rw [BitVec.toNat_ofNat]
    omega
  rw [resolvePpu_tableRam (by omega) (by omega), hpa, Nat.add_sub_cancel_left]

/-- Byte `o` of table RAM in the fallback window of the main-CPU space. -/
theorem fallbackWindow_offset {c : Config} (hv : c.valid = true) {o : Nat} (ho : o < c.tableLen) :
    fallbackWindow c (c.cpuSharedBase + BitVec.ofNat 16 o) = some ⟨.tableRam, o⟩ := by
  have hlen : c.tableLen ≤ 65536 := Store.length_le hv .tableRam
  have hoff : (c.cpuSharedBase + BitVec.ofNat 16 o - c.cpuSharedBase).toNat = o := by
    rw [add_sub_cancel_left, BitVec.toNat_ofNat]
    omega
  simp only [fallbackWindow, hoff, if_pos ho]

/-- A RAM byte that both decoders select: what either processor writes there, the other reads. -/
theorem sharedByte_roundTrip {s : State} {ca pa : Addr}
    (hres : resolveCpu s.cfg ca = some (resolvePpu s.cfg pa))
    (hram : (resolvePpu s.cfg pa).store.memClass s.cfg = .ram) (v : Byte) :
    (∃ t u, exec (.cwr ca v) s = .next t ∧ t.out = s.out ∧ exec (.prdP pa) t = .next u ∧
      u.rsp = .data v) ∧
    ∃ t u, exec (.pwrP pa v) s = .next t ∧ exec (.crd ca) t = .next u ∧ u.rsp = .data v := by
  have hstored := s.byteAt_setByte_self (resolvePpu s.cfg pa) v
  refine ⟨⟨_, _, exec_cwr_ram v hres hram, State.setByte_out .., exec_prdP _ _, ?_⟩,
    ⟨_, _, exec_pwrP_ram v hram, exec_crd_mapped (l := resolvePpu s.cfg pa) ?_, ?_⟩⟩
  · rw [State.respond_rsp, State.setByte_cfg, hstored]
  · rw [State.setByte_cfg, hres]
  · rw [State.respond_rsp, hstored]

/-- Settles O18: both addresses select byte `o` of table RAM, which is RAM. -/
theorem sharedTableRamIsOneStore : Obligations.SharedTableRamIsOneStore := by
  intro s o v hv ho ca pa hout
  have hpa : resolvePpu s.cfg pa = ⟨.tableRam, o⟩ := resolvePpu_tableRam_offset hv ho
  have hres : resolveCpu s.cfg ca = some (resolvePpu s.cfg pa) := by
    rw [hpa, resolveCpu_outside hout]
    exact fallbackWindow_offset hv ho
  exact ⟨hres, sharedByte_roundTrip hres (by rw [hpa]; rfl) v⟩

end Sys2Proof.Machine
end

section
/-! The command word: O2 and O4. The codes of `30_encoding.md` R103 and R104 with their inverses, and one equation for each selector of R101. -/

namespace Sys2Proof

/-! ### The codes -/

@[simp] theorem Proc.ofBit_bit (p : Proc) : Proc.ofBit p.bit = p := by
  cases p <;> rfl

@[simp] theorem BeamSection.ofCode_code (sec : BeamSection) : BeamSection.ofCode sec.code = sec := by
  cases sec <;> rfl

@[simp] theorem RegPair.ofCode_code (qq : RegPair) : RegPair.ofCode qq.code = qq := by
  cases qq <;> rfl

/-- Settles O4: the code values are those listed, and reading a code gives back what it stands for. -/
theorem processorAndSectionCodes : Obligations.ProcessorAndSectionCodes :=
  ⟨rfl, rfl, rfl, rfl, rfl, rfl, Proc.ofBit_bit, BeamSection.ofCode_code⟩

/-- The processor field is bit 0 of the data byte; the bits above it are ignored (`30_encoding.md` R102). -/
theorem Proc.ofBit_extractLsb' (d : Byte) :
    Proc.ofBit (d.extractLsb' 0 1) = if d.getLsbD 0 then .ppu else .cpu := by
  have hbit : d.extractLsb' 0 1 = BitVec.ofBool (d.getLsbD 0) := by
    ext i hi
    obtain rfl : i = 0 := by omega
    simp
  rw [hbit]
  cases d.getLsbD 0 <;> rfl

/-! ### The selectors -/

section Selectors

variable (a : BitVec 16) (d : Byte)

theorem decodeCmd_reset : decodeCmd (0x00#8 ++ a ++ d) = .ok .reset := by
  simp [decodeCmd]

theorem decodeCmd_tick : decodeCmd (0x01#8 ++ a ++ d) = .ok .tick := by
  simp [decodeCmd]

theorem decodeCmd_bstep : decodeCmd (0x02#8 ++ a ++ d) = .ok .bstep := by
  simp [decodeCmd]

theorem decodeCmd_edgechk : decodeCmd (0x03#8 ++ a ++ d) = .ok .edgechk := by
  simp [decodeCmd]

theorem decodeCmd_waitset :
    decodeCmd (0x04#8 ++ a ++ d) = .ok (.waitset (BeamSection.ofCode (d.extractLsb' 0 2))) := by
  simp [decodeCmd]

theorem decodeCmd_resume : decodeCmd (0x05#8 ++ a ++ d) = .ok .resume := by
  simp [decodeCmd]

theorem decodeCmd_observe :
    decodeCmd (0x06#8 ++ a ++ d) = .ok (.observe (Proc.ofBit (d.extractLsb' 0 1))) := by
  simp [decodeCmd]

theorem decodeCmd_spchk :
    decodeCmd (0x07#8 ++ a ++ d) = .ok (.spchk (Proc.ofBit (d.extractLsb' 0 1))) := by
  simp [decodeCmd]

theorem decodeCmd_tracedump :
    decodeCmd (0x08#8 ++ a ++ d) = .ok (.tracedump (Proc.ofBit (d.extractLsb' 0 1))) := by
  simp [decodeCmd]

theorem decodeCmd_render : decodeCmd (0x09#8 ++ a ++ d) = .ok .render := by
  simp [decodeCmd]

theorem decodeCmd_prdP : decodeCmd (0x10#8 ++ a ++ d) = .ok (.prdP a) := by
  simp [decodeCmd]

theorem decodeCmd_pwrP : decodeCmd (0x11#8 ++ a ++ d) = .ok (.pwrP a d) := by
  simp [decodeCmd]

theorem decodeCmd_prdE : decodeCmd (0x12#8 ++ a ++ d) = .ok (.prdE a) := by
  simp [decodeCmd]

theorem decodeCmd_pwrE : decodeCmd (0x13#8 ++ a ++ d) = .ok (.pwrE a d) := by
  simp [decodeCmd]

theorem decodeCmd_crd : decodeCmd (0x14#8 ++ a ++ d) = .ok (.crd a) := by
  simp [decodeCmd]

theorem decodeCmd_cwr : decodeCmd (0x15#8 ++ a ++ d) = .ok (.cwr a d) := by
  simp [decodeCmd]

theorem decodeCmd_loadrom :
    decodeCmd (0x20#8 ++ a ++ d) = .ok (.loadrom (d.extractLsb' 0 3) a) := by
  simp [decodeCmd]

/-- A selector between the listed ones or above them is no operation (`30_encoding.md` R122). -/
theorem decodeCmd_reserved {sel : Byte} (hlow : 0x09 < sel) (hmid : sel < 0x10 ∨ 0x15 < sel)
    (hrom : sel ≠ 0x20) : decodeCmd (sel ++ a ++ d) = .error ⟨sel⟩ := by
  have hne (v : Byte) (hv : v ≤ 0x09 ∨ (0x10 ≤ v ∧ v ≤ 0x15) ∨ v = 0x20) : sel ≠ v := by
    bv_omega
  simp [decodeCmd, hne]

end Selectors

/-- Settles O2: one equation for each selector, and none of them for the others. -/
theorem commandWordsDecode : Obligations.CommandWordsDecode := by
  intro a d
  simp only [← Proc.ofBit_extractLsb' d]
  exact ⟨decodeCmd_reset a d, decodeCmd_tick a d, decodeCmd_bstep a d, decodeCmd_edgechk a d,
    decodeCmd_waitset a d, decodeCmd_resume a d, decodeCmd_observe a d, decodeCmd_spchk a d,
    decodeCmd_tracedump a d, decodeCmd_render a d, decodeCmd_prdP a d, decodeCmd_pwrP a d,
    decodeCmd_prdE a d, decodeCmd_pwrE a d, decodeCmd_crd a d, decodeCmd_cwr a d,
    decodeCmd_loadrom a d, fun _ => decodeCmd_reserved a d⟩

end Sys2Proof
end

section
/-! The decoder after the encoder: O1, and the sample words of O3. The rows of `30_encoding.md` R120 as equations; an operand narrower than the data byte is read back from it, and each row's equation does the rest. -/

namespace Sys2Proof

/-! ### The rows -/

/-- The first byte of PUSH qq, whatever follows it (`30_encoding.md` R121). -/
theorem decodeSniff_pushQq (p : Proc) (qq : RegPair) (b1 : Byte) :
    decodeSniff p ((0b11#2 ++ qq.code) ++ 0x5#4) b1 = .ok (.z80PushQq p qq) := by
  cases qq <;> rfl

/-- The first byte of POP qq, whatever follows it (`30_encoding.md` R121). -/
theorem decodeSniff_popQq (p : Proc) (qq : RegPair) (b1 : Byte) :
    decodeSniff p ((0b11#2 ++ qq.code) ++ 0x1#4) b1 = .ok (.z80PopQq p qq) := by
  cases qq <;> rfl

/-- The bytes that pass the test of PUSH qq: the mask leaves the register pair open. -/
theorem pushTest_iff : ∀ b : Byte,
    b &&& 0xCF = 0xC5 ↔ b = 0xC5 ∨ b = 0xD5 ∨ b = 0xE5 ∨ b = 0xF5 := by
  decide

/-- The bytes that pass the test of POP qq. -/
theorem popTest_iff : ∀ b : Byte,
    b &&& 0xCF = 0xC1 ↔ b = 0xC1 ∨ b = 0xD1 ∨ b = 0xE1 ∨ b = 0xF1 := by
  decide

section Errors

variable {p : Proc} {b0 b1 : Byte}

/-- A pair without a row fails every test of the table. -/
theorem decodeSniff_error_iff : decodeSniff p b0 b1 = .error ⟨b0, b1⟩ ↔
    ¬(b0 &&& 0xCF = 0xC5) ∧ ¬(b0 &&& 0xCF = 0xC1) ∧
    ¬(b0 = 0xDD ∧ b1 = 0xE5) ∧ ¬(b0 = 0xFD ∧ b1 = 0xE5) ∧
    ¬(b0 = 0xDD ∧ b1 = 0xE1) ∧ ¬(b0 = 0xFD ∧ b1 = 0xE1) ∧
    ¬(b0 = 0xED ∧ b1 = 0x4D) ∧ ¬(b0 = 0xED ∧ b1 = 0x45) := by
  unfold decodeSniff
  split_ifs <;> simp_all

/-- The refused pair is named. -/
theorem decodeSniff_error_eq {e : OtherOpcode} (h : decodeSniff p b0 b1 = .error e) :
    e = ⟨b0, b1⟩ := by
  unfold decodeSniff at h
  split_ifs at h
  cases h
  rfl

end Errors

/-! ### The decoder after the encoder -/

/-- An operand written into the data byte and read from its low bits again. -/
theorem extractLsb'_zeroExtend {n : Nat} (hn : n ≤ 8) (x : BitVec n) :
    (x.zeroExtend 8).extractLsb' 0 n = x := by
  ext i hi
  simp [show i < 8 by omega, BitVec.getLsbD_eq_getElem hi]

theorem decode_cmd {w : Cmd} {i : Instr} : decode (.cmd w) = .ok i ↔ decodeCmd w = .ok i := by
  simp only [decode]
  split <;> simp [*]

theorem decode_sniff {p : Proc} {b0 b1 : Byte} {i : Instr} :
    decode (.sniff p b0 b1) = .ok i ↔ decodeSniff p b0 b1 = .ok i := by
  simp only [decode]
  split <;> simp [*]

/-- The processor operand survives the data byte. -/
theorem Proc.ofBit_field (p : Proc) : Proc.ofBit ((p.bit.zeroExtend 8).extractLsb' 0 1) = p := by
  rw [extractLsb'_zeroExtend (by decide), Proc.ofBit_bit]

/-- The section operand survives the data byte. -/
theorem BeamSection.ofCode_field (sec : BeamSection) :
    BeamSection.ofCode ((sec.code.zeroExtend 8).extractLsb' 0 2) = sec := by
  rw [extractLsb'_zeroExtend (by decide), BeamSection.ofCode_code]

/-- Settles O1: each row's equation, at the operands the encoder wrote. -/
theorem decodeInvertsEncode : Obligations.DecodeInvertsEncode := by
  intro i
  cases i with
  | reset => exact decode_cmd.2 (decodeCmd_reset 0 0)
  | tick => exact decode_cmd.2 (decodeCmd_tick 0 0)
  | bstep => exact decode_cmd.2 (decodeCmd_bstep 0 0)
  | edgechk => exact decode_cmd.2 (decodeCmd_edgechk 0 0)
  | waitset sec =>
    exact decode_cmd.2 ((decodeCmd_waitset 0 _).trans (by rw [BeamSection.ofCode_field]))
  | resume => exact decode_cmd.2 (decodeCmd_resume 0 0)
  | observe p => exact decode_cmd.2 ((decodeCmd_observe 0 _).trans (by rw [Proc.ofBit_field]))
  | spchk p => exact decode_cmd.2 ((decodeCmd_spchk 0 _).trans (by rw [Proc.ofBit_field]))
  | tracedump p => exact decode_cmd.2 ((decodeCmd_tracedump 0 _).trans (by rw [Proc.ofBit_field]))
  | render => exact decode_cmd.2 (decodeCmd_render 0 0)
  | prdP a => exact decode_cmd.2 (decodeCmd_prdP a 0)
  | pwrP a d => exact decode_cmd.2 (decodeCmd_pwrP a d)
  | prdE a => exact decode_cmd.2 (decodeCmd_prdE a 0)
  | pwrE a d => exact decode_cmd.2 (decodeCmd_pwrE a d)
  | crd a => exact decode_cmd.2 (decodeCmd_crd a 0)
  | cwr a d => exact decode_cmd.2 (decodeCmd_cwr a d)
  | loadrom r n =>
    exact decode_cmd.2 ((decodeCmd_loadrom n _).trans (by rw [extractLsb'_zeroExtend (by decide)]))
  | z80PushQq p qq => exact decode_sniff.2 (decodeSniff_pushQq p qq 0)
  | z80PopQq p qq => exact decode_sniff.2 (decodeSniff_popQq p qq 0)
  | z80PushIx p | z80PushIy p | z80PopIx p | z80PopIy p | z80Reti p | z80Retn p => rfl

/-! ### Words as the table numbers them -/

theorem decodeTableWord_cmd {w : Nat} {i : Instr} :
    decodeTableWord 32 w = some i ↔ decodeCmd (BitVec.ofNat 32 w) = .ok i := by
  rw [← decode_cmd]
  simp only [decodeTableWord, Nat.reduceLeDiff, if_false]
  split <;> simp [*]

theorem decodeTableWord_sniff {w : Nat} {i : Instr} :
    decodeTableWord 16 w = some i ↔
      decodeSniff .ppu (BitVec.ofNat 8 (w / 256)) (BitVec.ofNat 8 w) = .ok i := by
  rw [← decode_sniff]
  simp only [decodeTableWord, le_refl, if_true]
  split <;> simp [*]

/-- Settles O3: the sample words, evaluated. -/
theorem sampleWordsDecode : Obligations.SampleWordsDecode :=
  ⟨rfl, rfl, rfl, rfl, rfl, rfl, rfl, rfl, rfl, rfl⟩

end Sys2Proof
end

section
/-! The classes of the inspected opcode pairs: O5. The tests of `30_encoding.md` R120 as equivalences, what a pair with a row can be, and the class of each row. -/

namespace Sys2Proof.Machine

section Classes

variable {p : Proc} {b0 b1 : Byte}

theorem opClass_eq_push_iff : opClass b0 b1 = .push ↔
    (b0 &&& 0xCF = 0xC5 ∨ (b0 = 0xDD ∧ b1 = 0xE5) ∨ (b0 = 0xFD ∧ b1 = 0xE5)) := by
  unfold opClass
  split_ifs with hpush
  · exact iff_of_true rfl hpush
  all_goals exact iff_of_false nofun hpush

/-- No pair passes the tests of both PUSH and POP. -/
theorem opClass_eq_pop_iff : opClass b0 b1 = .pop ↔
    (b0 &&& 0xCF = 0xC1 ∨ (b0 = 0xDD ∧ b1 = 0xE1) ∨ (b0 = 0xFD ∧ b1 = 0xE1)) := by
  unfold opClass
  split_ifs with hpush hpop
  · refine iff_of_false nofun fun hpop => ?_
    rw [pushTest_iff] at hpush
    rw [popTest_iff] at hpop
    bv_omega
  · exact iff_of_true rfl hpop
  all_goals exact iff_of_false nofun hpop

/-- The first byte of RETI and RETN passes neither other test. -/
theorem opClass_eq_reti_iff :
    opClass b0 b1 = .reti ↔ (b0 = 0xED ∧ (b1 = 0x4D ∨ b1 = 0x45)) := by
  unfold opClass
  split_ifs with hpush hpop hreti
  · refine iff_of_false nofun fun ⟨hfirst, _⟩ => ?_
    rw [pushTest_iff] at hpush
    bv_omega
  · refine iff_of_false nofun fun ⟨hfirst, _⟩ => ?_
    rw [popTest_iff] at hpop
    bv_omega
  · exact iff_of_true rfl (and_or_left.2 hreti)
  · exact iff_of_false nofun (mt and_or_left.1 hreti)

/-- A pair without a row is of class OTHER. -/
theorem opClass_of_decodeSniff_error {e : OtherOpcode} (h : decodeSniff p b0 b1 = .error e) :
    opClass b0 b1 = .other := by
  rw [decodeSniff_error_eq h, decodeSniff_error_iff] at h
  obtain ⟨hpush, hpop, hpushIx, hpushIy, hpopIx, hpopIy, hreti, hretn⟩ := h
  unfold opClass
  rw [if_neg (by simp only [hpush, hpushIx, hpushIy, or_self, not_false_eq_true]),
    if_neg (by simp only [hpop, hpopIx, hpopIy, or_self, not_false_eq_true]),
    if_neg (by simp only [hreti, hretn, or_self, not_false_eq_true])]

/-- A pair with a row: the opcode, found at the program counter of the processor asked about, and its class. -/
theorem decodeSniff_ok_cases {i : Instr} (h : decodeSniff p b0 b1 = .ok i) :
    (opClass b0 b1 = .push ∧ ((∃ qq, i = .z80PushQq p qq) ∨ i = .z80PushIx p ∨ i = .z80PushIy p)) ∨
    (opClass b0 b1 = .pop ∧ ((∃ qq, i = .z80PopQq p qq) ∨ i = .z80PopIx p ∨ i = .z80PopIy p)) ∨
    (opClass b0 b1 = .reti ∧ (i = .z80Reti p ∨ i = .z80Retn p)) := by
  rw [opClass_eq_push_iff, opClass_eq_pop_iff, opClass_eq_reti_iff]
  unfold decodeSniff at h
  split_ifs at h with hpush hpop hpushIx hpushIy hpopIx hpopIy hreti hretn <;> cases h
  · exact .inl ⟨.inl hpush, .inl ⟨_, rfl⟩⟩
  · exact .inr (.inl ⟨.inl hpop, .inl ⟨_, rfl⟩⟩)
  · exact .inl ⟨.inr (.inl hpushIx), .inr (.inl rfl)⟩
  · exact .inl ⟨.inr (.inr hpushIy), .inr (.inr rfl)⟩
  · exact .inr (.inl ⟨.inr (.inl hpopIx), .inr (.inl rfl)⟩)
  · exact .inr (.inl ⟨.inr (.inr hpopIy), .inr (.inr rfl)⟩)
  · exact .inr (.inr ⟨hreti.imp_right .inl, .inl rfl⟩)
  · exact .inr (.inr ⟨hretn.imp_right .inr, .inr rfl⟩)

end Classes

/-- Settles O5: the tests exclude each other, and a pair's class and row come from the same test. -/
theorem opcodeClassesOfPairs : Obligations.OpcodeClassesOfPairs := by
  refine ⟨fun _ _ => ⟨opClass_eq_push_iff, opClass_eq_pop_iff, opClass_eq_reti_iff⟩,
    fun p b1 => ⟨decodeSniff_pushQq p .bc b1, decodeSniff_pushQq p .de b1,
      decodeSniff_pushQq p .hl b1, decodeSniff_pushQq p .af b1, decodeSniff_popQq p .bc b1,
      decodeSniff_popQq p .de b1, decodeSniff_popQq p .hl b1, decodeSniff_popQq p .af b1,
      rfl, rfl, rfl, rfl, rfl, rfl⟩,
    fun p b0 b1 => ?_, fun p b0 b1 => ?_⟩
  · rw [decodeSniff_error_iff, pushTest_iff, popTest_iff]
    simp [and_assoc]
  · cases h : decodeSniff p b0 b1 with
    | error e => exact opClass_of_decodeSniff_error h
    | ok i =>
      rcases decodeSniff_ok_cases h with ⟨hclass, ⟨qq, rfl⟩ | rfl | rfl⟩ |
        ⟨hclass, ⟨qq, rfl⟩ | rfl | rfl⟩ | ⟨hclass, rfl | rfl⟩ <;> exact ⟨rfl, hclass⟩

end Sys2Proof.Machine
end

section
/-! The fields of an AnimationDef byte: O6. Each field as a number, and the byte as their sum (`30_encoding.md` R113). -/

namespace Sys2Proof.Machine

theorem xOffset_eq_mod (k : Byte) : xOffset k = k.toNat % 8 :=
  Nat.and_two_pow_sub_one_eq_mod k.toNat 3

theorem yOffset_eq_div_mod (k : Byte) : yOffset k = k.toNat / 8 % 8 := by
  rw [yOffset, BitVec.toNat_and, BitVec.toNat_ushiftRight, Nat.shiftRight_eq_div_pow]
  exact Nat.and_two_pow_sub_one_eq_mod (k.toNat / 8) 3

theorem spriteOffset_toNat (k : Byte) : (spriteOffset k).toNat = k.toNat / 64 := by
  have hk := k.isLt
  have hmask : (spriteOffset k).toNat = k.toNat / 64 % 4 := by
    rw [spriteOffset, BitVec.toNat_and, BitVec.toNat_ushiftRight, Nat.shiftRight_eq_div_pow]
    exact Nat.and_two_pow_sub_one_eq_mod (k.toNat / 64) 2
  omega

/-- The fields lie side by side, so putting them together loses nothing. -/
theorem packOffsets_fields (k : Byte) :
    packOffsets (BitVec.ofNat 8 (xOffset k)) (BitVec.ofNat 8 (yOffset k)) (spriteOffset k) = k := by
  simp only [packOffsets, xOffset, yOffset, spriteOffset, BitVec.ofNat_toNat, BitVec.setWidth_eq]
  apply BitVec.eq_of_getLsbD_eq
  intro i hi
  interval_cases i <;> simp

/-- Settles O6: the three fields as numbers, and the byte put together from them. -/
theorem packedOffsetFields : Obligations.PackedOffsetFields := by
  refine fun k => ⟨?_, rfl, ?_, rfl, ?_, rfl, packOffsets_fields k⟩
  · rw [xOffset_eq_mod, BitVec.extractLsb'_toNat, Nat.shiftRight_zero]
  · rw [yOffset_eq_div_mod, BitVec.extractLsb'_toNat, Nat.shiftRight_eq_div_pow]
  · have hk := k.isLt
    rw [spriteOffset_toNat, BitVec.extractLsb'_toNat, Nat.shiftRight_eq_div_pow]
    omega

end Sys2Proof.Machine
end

section
/-! The region ids of LOADROM: O9. An id from 2 on is a search among the rom entries of CPU_MAP (`30_encoding.md` R106). -/

namespace Sys2Proof.Machine

theorem regionStore_add_two {c : Config} {r : BitVec 3} {j : Nat} (hr : r.toNat = j + 2) :
    regionStore c r = (findRom j 0 (cpuRegions c)).map .cpuRegion := by
  simp only [regionStore, hr]

/-- An id from 2 on names nothing exactly when there are too few rom entries. -/
theorem regionStore_eq_none_iff {c : Config} {r : BitVec 3} (hr : 2 ≤ r.toNat) :
    regionStore c r = none ↔ 1 + c.romCount < r.toNat := by
  obtain ⟨j, hj⟩ := Nat.exists_eq_add_of_le' hr
  rw [regionStore_add_two hj, Option.map_eq_none_iff, findRom_eq_none, romCount_regions]
  omega

/-- An id from 2 on names the rom entry that has so many rom entries before it. -/
theorem regionStore_eq_some {c : Config} {r : BitVec 3} {st : Store} (hr : 2 ≤ r.toNat)
    (h : regionStore c r = some st) :
    ∃ k e, st = .cpuRegion k ∧ (cpuRegions c)[k]? = some e ∧ e.kind = .rom ∧
      (((cpuRegions c).take k).filter fun f => f.kind = .rom).length + 2 = r.toNat := by
  obtain ⟨j, hj⟩ := Nat.exists_eq_add_of_le' hr
  rw [regionStore_add_two hj, Option.map_eq_some_iff] at h
  obtain ⟨n, hfind, rfl⟩ := h
  obtain ⟨k, e, rfl, he, hkind, hbefore⟩ := findRom_eq_some hfind
  exact ⟨0 + k, e, rfl, by rwa [Nat.zero_add], hkind, by rw [Nat.zero_add, hbefore, hj]⟩

/-- Settles O9: the sorted CPU_MAP, searched for its rom entries in order. -/
theorem regionIdsNameRomStores : Obligations.RegionIdsNameRomStores :=
  fun c => ⟨rfl, rfl, cpuRegions_perm c, cpuRegions_sorted c,
    fun _ hr => ⟨regionStore_eq_none_iff hr, fun _ => regionStore_eq_some hr⟩⟩

end Sys2Proof.Machine
end

section
/-! The step and the command port: O27, O51, O52 and O53. One equation of the step for each kind of input, what is refused, and how a word laid at the port or at the PPU's PC is found there. -/

namespace Sys2Proof.Machine

/-! ### The step -/

section Step

variable {s : State} {w : Cmd} {env : Env} {rest : List Input}

theorem step_valid (hv : s.cfg.valid = true) : step s = runInput s := if_pos hv

theorem step_cmd (hv : s.cfg.valid = true) (hin : s.inbox = .cmd w env :: rest) :
    step s = runCmd w (s.accept rest env) := by
  simp only [step_valid hv, runInput, hin]

theorem step_rst (hv : s.cfg.valid = true) (hin : s.inbox = .rst env :: rest) :
    step s = exec .reset (s.accept rest env) := by
  simp only [step_valid hv, runInput, hin]

theorem step_idle (hv : s.cfg.valid = true) (hin : s.inbox = []) : step s = .next s.idleEdge := by
  simp only [step_valid hv, runInput, hin]

theorem step_invalid (hv : s.cfg.valid = false) : step s = .refused .invalidConfiguration := by
  simp [step, hv]

theorem runCmd_ok {i : Instr} (h : decodeCmd w = .ok i) : runCmd w s = settle s (exec i s) := by
  simp only [runCmd, h]

/-- A reserved selector is a refusal that drops the word (`30_encoding.md` R122). -/
theorem runCmd_error {e : ReservedSelector} (h : decodeCmd w = .error e) :
    runCmd w s = .next (s.turnAway (.reservedSelector e.sel)) := by
  simp only [runCmd, h]
  rfl

theorem settle_dropsTheWord {r : Refusal} (h : r.dropsTheWord = true) :
    settle s (.refused r) = .next (s.turnAway r) := if_pos h

end Step

/-- Settles O51: the step is the operation on the accepted state, its outcome kept but for a dropped word. -/
theorem stepRunsTheCommand : Obligations.StepRunsTheCommand := by
  intro s w env rest i hv hin hdec a
  have hstep : step s = settle a (exec i a) := (step_cmd hv hin).trans (runCmd_ok hdec)
  refine ⟨fun t ht => ?_, fun e he => ?_, fun r hr hdrop => ?_⟩
  · rw [hstep, ht]; rfl
  · rw [hstep, he]; rfl
  · rw [hstep, hr]; exact settle_dropsTheWord hdrop

/-- Settles O52: the equations of the step for the inputs that are no operation. -/
theorem stepWithoutOperation : Obligations.StepWithoutOperation :=
  fun _ => ⟨fun _ _ _ _ hv hin hdec => (step_cmd hv hin).trans (runCmd_error hdec),
    fun _ _ hv hin => step_rst hv hin, step_idle, step_invalid⟩

/-! ### What an operation refuses -/

theorem exec_loadrom_none {s : State} {r : BitVec 3} (n : BitVec 16)
    (h : regionStore s.cfg r = none) : exec (.loadrom r n) s = .refused (.loadromNoRegion r) := by
  simp only [exec, execLoadrom, h]

theorem exec_tick_halted {s : State} (h : s.halted = true) :
    exec .tick s = .refused .tickWhileHalted := if_pos h

/-- Settles O27: the section NONE, an id above the last rom entry, and the latch. -/
theorem reservedFormsRefused : Obligations.ReservedFormsRefused :=
  fun _ => ⟨rfl, fun _ n hr => exec_loadrom_none n ((regionStore_eq_none_iff (by omega)).2 hr),
    exec_tick_halted⟩

/-! ### A word laid for the next step -/

/-- Taking a word that was put first in the queue leaves the queue as it was before. -/
theorem State.accept_withCmd (s : State) (w : Cmd) :
    (s.withCmd w).accept s.inbox .idle = { s with env := .idle, rsp := .idle, calls := [] } := rfl

/-- A command placed first in the queue is the one the next step runs. -/
theorem step_withCmd {s : State} {w : Cmd} {i : Instr} (hv : s.cfg.valid = true)
    (hdec : decodeCmd w = .ok i) :
    step (s.withCmd w) =
      settle { s with env := .idle, rsp := .idle, calls := [] }
        (exec i { s with env := .idle, rsp := .idle, calls := [] }) := by
  have hstep : step (s.withCmd w) = runCmd w ((s.withCmd w).accept s.inbox .idle) := step_cmd hv rfl
  rw [hstep, runCmd_ok hdec, State.accept_withCmd]

/-- An inspected opcode is the response to its class. -/
theorem exec_of_decodeSniff {p : Proc} {b0 b1 : Byte} {i : Instr} (h : decodeSniff p b0 b1 = .ok i)
    (s : State) : exec i s = .next (s.observeClass p (opClass b0 b1)) := by
  rcases decodeSniff_ok_cases h with ⟨hclass, ⟨qq, rfl⟩ | rfl | rfl⟩ |
    ⟨hclass, ⟨qq, rfl⟩ | rfl | rfl⟩ | ⟨hclass, rfl | rfl⟩ <;> rw [hclass] <;> rfl

/-- OBSERVE of the PPU responds to the class of the two bytes at its PC. -/
theorem exec_observe_ppu (s : State) :
    exec (.observe .ppu) s = .next (s.observeClass .ppu
      (opClass (s.ppuByte s.ppu.view.pc) (s.ppuByte (s.ppu.view.pc + 1)))) := rfl

/-- Under an OBSERVE, the pair at the PPU's PC runs as its row. -/
theorem step_withCmd_observe {s : State} {i : Instr} (hv : s.cfg.valid = true)
    (hdec : decodeSniff .ppu (s.ppuByte s.ppu.view.pc) (s.ppuByte (s.ppu.view.pc + 1)) = .ok i) :
    step (s.withCmd (mkCmd 0x06 0 0x01)) =
      exec i { s with env := .idle, rsp := .idle, calls := [] } := by
  have hword : decodeCmd (mkCmd 0x06 0 0x01) = .ok (.observe .ppu) := rfl
  rw [step_withCmd hv hword, exec_of_decodeSniff hdec, exec_observe_ppu]
  rfl

/-! ### A pair laid at the PPU's PC -/

section Poke

variable (s : State)

theorem State.ppuPoke_cfg (a : Addr) (d : Byte) : (s.ppuPoke a d).cfg = s.cfg := by
  rw [State.ppuPoke, State.setByte_cfg]

theorem State.ppuPoke_ppu (a : Addr) (d : Byte) : (s.ppuPoke a d).ppu = s.ppu := by
  rw [State.ppuPoke, State.setByte_ppu]

/-- A byte poked into the PPU space is read back there. -/
theorem State.ppuByte_ppuPoke_self (a : Addr) (d : Byte) : (s.ppuPoke a d).ppuByte a = d := by
  rw [State.ppuByte, State.ppuPoke_cfg, State.ppuPoke, State.byteAt_setByte_self]

/-- A poke leaves every other address of the PPU space alone, for no two select one byte. -/
theorem State.ppuByte_ppuPoke_other {a b : Addr} (d : Byte) (hne : b ≠ a) :
    (s.ppuPoke a d).ppuByte b = s.ppuByte b := by
  rw [State.ppuByte, State.ppuPoke_cfg, State.ppuPoke,
    State.byteAt_setByte_other s d (resolvePpu_off_lt _ a) (resolvePpu_off_lt _ b)
      (mt resolvePpu_injective hne), State.ppuByte]

/-- A pair poked at an address and the one after it is found there. -/
theorem State.ppuByte_ppuPoke_pair (a : Addr) (b0 b1 : Byte) :
    ((s.ppuPoke a b0).ppuPoke (a + 1) b1).ppuByte a = b0 ∧
      ((s.ppuPoke a b0).ppuPoke (a + 1) b1).ppuByte (a + 1) = b1 := by
  have hne : a ≠ a + 1 := by bv_omega
  rw [State.ppuByte_ppuPoke_other _ b1 hne, State.ppuByte_ppuPoke_self, State.ppuByte_ppuPoke_self]
  exact ⟨rfl, rfl⟩

end Poke

/-- A command word of the table is placed at the port (log 18). -/
theorem State.withFetchWord_cmd (s : State) (w : Nat) :
    s.withFetchWord 32 w = s.withCmd (BitVec.ofNat 32 w) := if_neg (by decide)

/-- An opcode pair of the table is placed at the PPU's PC (log 18). -/
theorem State.withFetchWord_opcode (s : State) (w : Nat) :
    s.withFetchWord 16 w = s.withOpcode (BitVec.ofNat 8 (w / 256)) (BitVec.ofNat 8 w) :=
  if_pos (le_refl 16)

/-- A pair placed at the PPU's PC under an OBSERVE runs as its row. -/
theorem step_withOpcode {s m : State} {b0 b1 : Byte} {i : Instr}
    (hm : (s.ppuPoke s.ppu.view.pc b0).ppuPoke (s.ppu.view.pc + 1) b1 = m)
    (hv : s.cfg.valid = true) (hdec : decodeSniff .ppu b0 b1 = .ok i) :
    step (s.withOpcode b0 b1) = exec i { m with env := .idle, rsp := .idle, calls := [] } := by
  obtain ⟨h0, h1⟩ := s.ppuByte_ppuPoke_pair s.ppu.view.pc b0 b1
  have hlaid : s.withOpcode b0 b1 = m.withCmd (mkCmd 0x06 0 0x01) := congrArg (State.withCmd · _) hm
  have hcfg : m.cfg = s.cfg := by rw [← hm, State.ppuPoke_cfg, State.ppuPoke_cfg]
  have hppu : m.ppu = s.ppu := by rw [← hm, State.ppuPoke_ppu, State.ppuPoke_ppu]
  rw [hm] at h0 h1
  rw [hlaid]
  exact step_withCmd_observe (by rw [hcfg, hv]) (by rw [hppu, h0, h1, hdec])

/-- Settles O53: the word is found where it was laid, and decodes to the instruction. -/
theorem fetchedWordRuns : Obligations.FetchedWordRuns := by
  intro s w i hv
  rw [State.withFetchWord_cmd, State.withFetchWord_opcode]
  exact ⟨fun hdec => step_withCmd hv (decodeTableWord_cmd.1 hdec),
    fun hdec => step_withOpcode rfl hv (decodeTableWord_sniff.1 hdec)⟩

end Sys2Proof.Machine
end

section
/-! The rows of the transition table: O20. One equation for each row of `40_beam_timer.md` R140. -/

namespace Sys2Proof.Machine

variable {s : State}

/-- DISPLAY before the line's last column: the pixel is streamed (R144) and the column advances. -/
theorem beamRow_display_advance (hs : s.sect = .display) (hc : s.hCounter.toNat < s.cfg.w) :
    beamRow s = .next { s with hCounter := s.hCounter + 1, out := s.streamPixel.out } := by
  simp only [beamRow, hs, if_pos hc, State.streamPixel]
  split <;> simp [← hs]

/-- The end of the visible part of a line: the column stays (R141). -/
theorem beamRow_display_end (hs : s.sect = .display) (hc : s.hCounter.toNat = s.cfg.w) :
    beamRow s = .next { s with sect := .hblank } := by
  simp [beamRow, hs, hc]

/-- Blanking before the line's end, horizontal and vertical alike. -/
theorem beamRow_blank_advance (hs : s.sect = .hblank ∨ s.sect = .vblank)
    (hc : s.hCounter.toNat < s.cfg.wTotal) :
    beamRow s = .next { s with hCounter := s.hCounter + 1 } := by
  rcases hs with hs | hs <;> simp [beamRow, hs, hc]

/-- The end of a visible line. -/
theorem beamRow_hblank_end (hs : s.sect = .hblank) (hc : s.hCounter.toNat = s.cfg.wTotal) :
    beamRow s = .next { s with
      hCounter := 0
      vCounter := s.vCounter + 1
      sect := if s.vCounter.toNat = s.cfg.h - 1 then .vblank else .display } := by
  simp [beamRow, hs, hc]

/-- The end of a frame. -/
theorem beamRow_vblank_last (hs : s.sect = .vblank) (hc : s.hCounter.toNat = s.cfg.wTotal)
    (hlast : s.vCounter.toNat = s.cfg.hTotal - 1) :
    beamRow s = .next { s with hCounter := 0, vCounter := 0, sect := .display } := by
  simp [beamRow, hs, hc, hlast]

/-- The end of any other blanking line. -/
theorem beamRow_vblank_end (hs : s.sect = .vblank) (hc : s.hCounter.toNat = s.cfg.wTotal)
    (hlast : s.vCounter.toNat ≠ s.cfg.hTotal - 1) :
    beamRow s = .next { s with hCounter := 0, vCounter := s.vCounter + 1 } := by
  simp [beamRow, hs, hc, hlast]

/-- Settles O20: in range a beam-step is its row, and each row has its equation. -/
theorem bstepTransitionTable : Obligations.BstepTransitionTable := by
  intro s hb
  rw [show exec .bstep s = beamRow s from beamStep_eq hb]
  refine ⟨fun hs hc => ?advance, beamRow_display_end, fun hs => beamRow_blank_advance (.inl hs),
    fun hs hc hlast => ?lastLine, fun hs hc hlast => ?otherLine,
    fun hs => beamRow_blank_advance (.inr hs), beamRow_vblank_last, beamRow_vblank_end⟩
  case advance => rw [beamRow_display_advance hs hc, State.streamPixel_out]; rfl
  case lastLine => rw [beamRow_hblank_end hs hc, if_pos hlast]
  case otherLine => rw [beamRow_hblank_end hs hc, if_neg hlast]

end Sys2Proof.Machine
end

section
/-! Lines and frames: O23 and O24. The place of a beam in the frame, counted in beam-steps from (DISPLAY, 0, 0): it names the beam, and a beam-step moves it on by one, from the last place back to the first (`40_beam_timer.md` R142). Beside it, the section changes of the frame before that place (R143). -/

namespace Sys2Proof

/-! ### Where a line begins -/

/-- How many beam-steps of the frame pass before line `v`: W_TOTAL + 1 for each line above it, and one more for each visible one. -/
def Config.lineStart (c : Config) (v : Nat) : Nat := v * (c.wTotal + 1) + min v c.h

/-- A line ends before any later line begins. -/
theorem Config.lineStart_add_le (c : Config) {v v' : Nat} (h : v < v') :
    c.lineStart v + (c.wTotal + 1 + if v < c.h then 1 else 0) ≤ c.lineStart v' := by
  have hmul : (v + 1) * (c.wTotal + 1) ≤ v' * (c.wTotal + 1) := Nat.mul_le_mul_right _ h
  rw [Nat.succ_mul] at hmul
  unfold Config.lineStart
  split <;> omega

/-- The line below a visible line begins W_TOTAL + 2 beam-steps later. -/
theorem Config.lineStart_succ_visible {c : Config} {v : Nat} (h : v < c.h) :
    c.lineStart (v + 1) = c.lineStart v + (c.wTotal + 2) := by
  unfold Config.lineStart
  rw [Nat.succ_mul]
  omega

/-- The line below a blanking line begins W_TOTAL + 1 beam-steps later. -/
theorem Config.lineStart_succ_blanking {c : Config} {v : Nat} (h : c.h ≤ v) :
    c.lineStart (v + 1) = c.lineStart v + (c.wTotal + 1) := by
  unfold Config.lineStart
  rw [Nat.succ_mul]
  omega

/-- The frame period is where a line below the last one would begin. -/
theorem Config.framePeriod_eq_lineStart {c : Config} (h : c.h ≤ c.hTotal) :
    c.framePeriod = c.lineStart c.hTotal := by
  obtain ⟨n, hn⟩ := Nat.exists_eq_add_of_le h
  rw [Config.framePeriod, Config.lineStart, hn, Nat.add_sub_cancel_left, Nat.min_eq_right (Nat.le_add_right ..)]
  ring

end Sys2Proof

namespace Sys2Proof.Machine

/-! ### Counter values -/

theorem counter_zero : (0 : BitVec 16).toNat = 0 := rfl

theorem counter_ofNat {n : Nat} (h : n ≤ 65535) : (BitVec.ofNat 16 n).toNat = n := by
  rw [BitVec.toNat_ofNat]
  omega

/-! ### The place of the beam in its frame -/

/-- How many beam-steps of its line lie before the beam: one for each column, and the one that ended the visible part. -/
def State.lineOffset (s : State) : Nat := s.hCounter.toNat + if s.sect = .hblank then 1 else 0

/-- How many beam-steps lie between (DISPLAY, 0, 0) and the beam. -/
def State.framePos (s : State) : Nat := s.cfg.lineStart s.vCounter.toNat + s.lineOffset

theorem State.beam_eq_iff {s : State} {sec : BeamSection} {h v : BitVec 16} :
    s.beam = (sec, h, v) ↔ s.sect = sec ∧ s.hCounter = h ∧ s.vCounter = v := by
  simp only [State.beam, Prod.mk.injEq]

/-- The start of a frame is in range. -/
theorem State.beamOk_of_frameStart {s : State} (h : s.beam = (.display, 0, 0)) : s.beamOk = true := by
  obtain ⟨hs, hh, hv⟩ := State.beam_eq_iff.1 h
  exact s.beamOk_iff.2 (.inl ⟨hs, by simp [hh], by simp [hv]⟩)

/-- The start of a frame is the first place of it. -/
theorem State.framePos_eq_zero {s : State} (h : s.beam = (.display, 0, 0)) : s.framePos = 0 := by
  obtain ⟨hs, hh, hv⟩ := State.beam_eq_iff.1 h
  simp [State.framePos, State.lineOffset, Config.lineStart, hs, hh, hv]

/-- In range the place lies within the line. -/
theorem State.framePos_lt_lineEnd {s : State} (hv : s.cfg.valid = true) (hb : s.beamOk = true) :
    s.framePos < s.cfg.lineStart s.vCounter.toNat +
      (s.cfg.wTotal + 1 + if s.vCounter.toNat < s.cfg.h then 1 else 0) := by
  obtain ⟨-, hw, -, hh, -⟩ := (Config.beamValid_iff _).1 ((Config.valid_iff _).1 hv).1
  unfold State.framePos State.lineOffset
  rcases s.beamOk_iff.1 hb with ⟨hs, hcol, hline⟩ | ⟨hs, -, hcol, hline⟩ | ⟨hs, hcol, hline, -⟩ <;>
    simp only [hs, reduceCtorEq, if_true, if_false] <;> split <;> omega

/-- In range the line is one of the frame. -/
theorem State.line_lt {s : State} (hv : s.cfg.valid = true) (hb : s.beamOk = true) :
    s.vCounter.toNat < s.cfg.hTotal := by
  obtain ⟨-, -, -, hh, hhT, -⟩ := (Config.beamValid_iff _).1 ((Config.valid_iff _).1 hv).1
  rcases s.beamOk_iff.1 hb with ⟨-, -, hline⟩ | ⟨-, -, -, hline⟩ | ⟨-, -, -, hline⟩ <;> omega

/-- HBLANK is on a visible line. -/
theorem State.line_visible {s : State} (hv : s.cfg.valid = true) (hb : s.beamOk = true)
    (hs : s.sect = .hblank) : s.vCounter.toNat < s.cfg.h := by
  obtain ⟨-, -, -, hh, -⟩ := (Config.beamValid_iff _).1 ((Config.valid_iff _).1 hv).1
  rcases s.beamOk_iff.1 hb with ⟨hs', -⟩ | ⟨-, -, -, hline⟩ | ⟨hs', -⟩
  · simp [hs] at hs'
  · omega
  · simp [hs] at hs'

/-- VBLANK is on a blanking line. -/
theorem State.line_blanking {s : State} (hb : s.beamOk = true) (hs : s.sect = .vblank) :
    s.cfg.h ≤ s.vCounter.toNat := by
  rcases s.beamOk_iff.1 hb with ⟨hs', -⟩ | ⟨hs', -⟩ | ⟨-, -, hline, -⟩
  · simp [hs] at hs'
  · simp [hs] at hs'
  · exact hline

/-- In range the place lies within the frame. -/
theorem State.framePos_lt {s : State} (hv : s.cfg.valid = true) (hb : s.beamOk = true) :
    s.framePos < s.cfg.framePeriod := by
  obtain ⟨-, -, -, -, hhT, -⟩ := (Config.beamValid_iff _).1 ((Config.valid_iff _).1 hv).1
  rw [Config.framePeriod_eq_lineStart hhT.le]
  exact (s.framePos_lt_lineEnd hv hb).trans_le (s.cfg.lineStart_add_le (s.line_lt hv hb))

/-- A beam on an earlier line is at an earlier place. -/
theorem State.framePos_lt_of_line_lt {s u : State} (hv : s.cfg.valid = true) (hc : u.cfg = s.cfg)
    (hs : s.beamOk = true) (hline : s.vCounter.toNat < u.vCounter.toNat) :
    s.framePos < u.framePos := by
  have hend := (s.framePos_lt_lineEnd hv hs).trans_le (s.cfg.lineStart_add_le hline)
  rw [← hc] at hend
  exact hend.trans_le (Nat.le_add_right ..)

/-- In range the line and the place in it name the beam. -/
theorem State.beam_eq_of_lineOffset {s : State} (hv : s.cfg.valid = true) (hb : s.beamOk = true) :
    s.beam =
      (if s.cfg.h ≤ s.vCounter.toNat then .vblank else if s.lineOffset ≤ s.cfg.w then .display else .hblank,
        BitVec.ofNat 16 (if s.vCounter.toNat < s.cfg.h ∧ s.cfg.w < s.lineOffset then s.lineOffset - 1
          else s.lineOffset),
        s.vCounter) := by
  obtain ⟨-, -, -, hh, -⟩ := (Config.beamValid_iff _).1 ((Config.valid_iff _).1 hv).1
  rw [State.beam_eq_iff]
  rcases s.beamOk_iff.1 hb with ⟨hs, hcol, hline⟩ | ⟨hs, hcol, -, hline⟩ | ⟨hs, -, hline, -⟩
  · have hoff : s.lineOffset = s.hCounter.toNat := by simp [State.lineOffset, hs]
    rw [hoff, if_neg (by omega), if_pos hcol, if_neg (by omega)]
    exact ⟨hs, by simp, rfl⟩
  · have hoff : s.lineOffset = s.hCounter.toNat + 1 := by simp [State.lineOffset, hs]
    rw [hoff, if_neg (by omega), if_neg (by omega), if_pos (by omega)]
    exact ⟨hs, by simp, rfl⟩
  · have hoff : s.lineOffset = s.hCounter.toNat := by simp [State.lineOffset, hs]
    rw [hoff, if_pos hline, if_neg (by omega)]
    exact ⟨hs, by simp, rfl⟩

/-- In range the place names the beam. -/
theorem State.beam_eq_of_framePos_eq {s u : State} (hv : s.cfg.valid = true) (hc : u.cfg = s.cfg)
    (hs : s.beamOk = true) (hu : u.beamOk = true) (h : u.framePos = s.framePos) :
    u.beam = s.beam := by
  have hline : u.vCounter = s.vCounter := by
    apply BitVec.eq_of_toNat_eq
    rcases Nat.lt_trichotomy u.vCounter.toNat s.vCounter.toNat with hlt | heq | hlt
    · exact absurd h (State.framePos_lt_of_line_lt (hc ▸ hv) hc.symm hu hlt).ne
    · exact heq
    · exact absurd h (State.framePos_lt_of_line_lt hv hc hs hlt).ne'
  have hoff : u.lineOffset = s.lineOffset := by
    simpa only [State.framePos, hline, hc, Nat.add_left_cancel_iff] using h
  rw [State.beam_eq_of_lineOffset hv hs, State.beam_eq_of_lineOffset (hc ▸ hv) hu, hline, hoff, hc]

/-! ### A beam-step -/

/-- A beam-step is to the next place of the frame, or from the last one back to the first. -/
theorem beamStep_framePos {s t : State} (hv : s.cfg.valid = true) (h : beamStep s = .next t) :
    t.framePos = s.framePos + 1 ∨
    (s.framePos + 1 = s.cfg.framePeriod ∧ s.sect = .vblank ∧ t.beam = (.display, 0, 0)) := by
  obtain ⟨-, hw, hwT, hh, hhT, hhT'⟩ := (Config.beamValid_iff _).1 ((Config.valid_iff _).1 hv).1
  have hb := beamStep_inRange h
  have hline := s.line_lt hv hb
  rcases beamStep_cases h with ⟨hs, hc, rfl⟩ | ⟨hs, hc, rfl⟩ | ⟨hs, hc, rfl⟩ | ⟨hs, hc, rfl⟩ |
    ⟨hs, hc, hlast, rfl⟩ | ⟨hs, hc, hlast, rfl⟩
  · left
    simp only [State.framePos, State.lineOffset, counter_succ hc (by omega)]
    omega
  · left
    simp only [State.framePos, State.lineOffset, hs, reduceCtorEq, if_true, if_false]
    omega
  · left
    simp only [State.framePos, State.lineOffset, counter_succ hc hwT]
    omega
  · left
    have hsect : ∀ p : Prop, [Decidable p] → (if p then BeamSection.vblank else .display) ≠ .hblank := by
      intro p _; split <;> simp
    simp only [State.framePos, State.lineOffset, hs, hc, counter_succ hline hhT', hsect, if_true, if_false,
      Config.lineStart_succ_visible (State.line_visible hv hb hs), counter_zero]
    omega
  · right
    refine ⟨?_, hs, rfl⟩
    have hlast' : s.cfg.hTotal = s.vCounter.toNat + 1 := by omega
    simp only [State.framePos, State.lineOffset, hs, hc, reduceCtorEq, if_false]
    rw [Config.framePeriod_eq_lineStart hhT.le, hlast', Config.lineStart_succ_blanking (State.line_blanking hb hs)]
    omega
  · left
    simp only [State.framePos, State.lineOffset, hs, hc, counter_succ hline hhT', reduceCtorEq, if_false,
      Config.lineStart_succ_blanking (State.line_blanking hb hs), counter_zero]
    omega

/-- A beam-step is to the next place of the frame, modulo the period. -/
theorem beamStep_framePos_mod {s t : State} (hv : s.cfg.valid = true) (h : beamStep s = .next t) :
    t.framePos ≡ s.framePos + 1 [MOD s.cfg.framePeriod] := by
  rcases beamStep_framePos hv h with hpos | ⟨hpos, -, hbeam⟩
  · rw [hpos]
  · rw [State.framePos_eq_zero hbeam, hpos]
    exact (Nat.modEq_zero_iff_dvd.2 dvd_rfl).symm

/-! ### Beam-steps in sequence -/

/-- From a beam in range any number of beam-steps completes, in range, as many places further on. -/
theorem beamSteps_next {s : State} (hv : s.cfg.valid = true) (hb : s.beamOk = true) (n : Nat) :
    ∃ t, beamSteps n s = .next t ∧ t.cfg = s.cfg ∧ t.beamOk = true ∧
      t.framePos ≡ s.framePos + n [MOD s.cfg.framePeriod] := by
  induction n with
  | zero => exact ⟨s, rfl, rfl, hb, rfl⟩
  | succ n ih =>
    obtain ⟨t, ht, hc, hbt, hpos⟩ := ih
    have hvt : t.cfg.valid = true := hc ▸ hv
    obtain ⟨u, hu⟩ := beamStep_next hbt
    refine ⟨u, ?_, (beamStep_cfg hu).trans hc, beamStep_beamOk hvt hu, ?_⟩
    · rw [beamSteps_add, ht]
      simp only [andThen_next, beamSteps, hu]
    · have hstep := beamStep_framePos_mod hvt hu
      rw [hc] at hstep
      exact hstep.trans (hpos.add_right 1)

/-- Beam-steps arrive at a beam in range when they are as many as lie between the two places. -/
theorem beamSteps_arrive {s u : State} {n : Nat} (hv : s.cfg.valid = true) (hc : u.cfg = s.cfg)
    (hs : s.beamOk = true) (hu : u.beamOk = true)
    (hpos : u.framePos ≡ s.framePos + n [MOD s.cfg.framePeriod]) :
    ∃ t, beamSteps n s = .next t ∧ t.beam = u.beam := by
  obtain ⟨t, ht, hct, hbt, hpost⟩ := beamSteps_next hv hs n
  have hlt := State.framePos_lt (hct ▸ hv) hbt
  have hlu := State.framePos_lt (hc ▸ hv) hu
  rw [hct] at hlt
  rw [hc] at hlu
  exact ⟨t, ht, State.beam_eq_of_framePos_eq (hc ▸ hv) (hct.trans hc.symm) hu hbt
    ((hpost.trans hpos.symm).eq_of_lt_of_lt hlt hlu)⟩

/-- `s` with its beam elsewhere. -/
def State.withBeam (s : State) (sec : BeamSection) (h v : BitVec 16) : State :=
  { s with sect := sec, hCounter := h, vCounter := v }

section Arrive

variable {s : State} {n : Nat} {h v : BitVec 16}

/-- Beam-steps arrive at a beam further on in the same frame. -/
theorem beamSteps_arrive_later {sec : BeamSection} (hv : s.cfg.valid = true) (hs : s.beamOk = true)
    (hb : (s.withBeam sec h v).beamOk = true) (hpos : (s.withBeam sec h v).framePos = s.framePos + n) :
    ∃ t, beamSteps n s = .next t ∧ t.beam = (sec, h, v) :=
  beamSteps_arrive (u := s.withBeam sec h v) hv rfl hs hb (hpos ▸ rfl)

theorem beamSteps_arrive_display (hv : s.cfg.valid = true) (hs : s.beamOk = true)
    (hcol : h.toNat ≤ s.cfg.w) (hline : v.toNat < s.cfg.h)
    (hpos : s.cfg.lineStart v.toNat + h.toNat = s.framePos + n) :
    ∃ t, beamSteps n s = .next t ∧ t.beam = (.display, h, v) :=
  beamSteps_arrive_later hv hs ((State.beamOk_iff _).2 (.inl ⟨rfl, hcol, Nat.le_pred_of_lt hline⟩)) hpos

theorem beamSteps_arrive_hblank (hv : s.cfg.valid = true) (hs : s.beamOk = true)
    (hcol : s.cfg.w ≤ h.toNat) (hcol' : h.toNat ≤ s.cfg.wTotal) (hline : v.toNat < s.cfg.h)
    (hpos : s.cfg.lineStart v.toNat + (h.toNat + 1) = s.framePos + n) :
    ∃ t, beamSteps n s = .next t ∧ t.beam = (.hblank, h, v) :=
  beamSteps_arrive_later hv hs
    ((State.beamOk_iff _).2 (.inr (.inl ⟨rfl, hcol, hcol', Nat.le_pred_of_lt hline⟩))) hpos

theorem beamSteps_arrive_vblank (hv : s.cfg.valid = true) (hs : s.beamOk = true)
    (hcol : h.toNat ≤ s.cfg.wTotal) (hline : s.cfg.h ≤ v.toNat) (hline' : v.toNat < s.cfg.hTotal)
    (hpos : s.cfg.lineStart v.toNat + h.toNat = s.framePos + n) :
    ∃ t, beamSteps n s = .next t ∧ t.beam = (.vblank, h, v) :=
  beamSteps_arrive_later hv hs
    ((State.beamOk_iff _).2 (.inr (.inr ⟨rfl, hcol, hline, Nat.le_pred_of_lt hline'⟩))) hpos

/-- Beam-steps arrive at the start of a frame when they are as many as are left in this one. -/
theorem beamSteps_arrive_start (hv : s.cfg.valid = true) (hs : s.beamOk = true)
    (hpos : s.framePos + n = s.cfg.framePeriod) :
    ∃ t, beamSteps n s = .next t ∧ t.beam = (.display, 0, 0) := by
  refine beamSteps_arrive (u := s.withBeam .display 0 0) hv rfl hs
    ((State.beamOk_iff _).2 (.inl ⟨rfl, Nat.zero_le _, Nat.zero_le _⟩)) ?_
  rw [State.framePos_eq_zero (s := s.withBeam .display 0 0) rfl, hpos]
  exact (Nat.modEq_zero_iff_dvd.2 dvd_rfl).symm

/-! ### Lines -/

/-- From the beginning of a visible line: the end of its visible part, of its blanking, and the line below. -/
theorem beamSteps_visibleLine (hv : s.cfg.valid = true) (hline : v.toNat < s.cfg.h)
    (hbeam : s.beam = (.display, 0, v)) :
    (∃ t, beamSteps s.cfg.w s = .next t ∧ t.beam = (.display, BitVec.ofNat 16 s.cfg.w, v)) ∧
    (∃ t, beamSteps (s.cfg.w + 1) s = .next t ∧ t.beam = (.hblank, BitVec.ofNat 16 s.cfg.w, v)) ∧
    (∃ t, beamSteps (s.cfg.wTotal + 1) s = .next t ∧
      t.beam = (.hblank, BitVec.ofNat 16 s.cfg.wTotal, v)) ∧
    ∃ t, beamSteps (s.cfg.wTotal + 2) s = .next t ∧
      t.beam = (if v.toNat = s.cfg.h - 1 then .vblank else .display, 0, v + 1) := by
  obtain ⟨-, hw, hwT, hh, hhT, hhT'⟩ := (Config.beamValid_iff _).1 ((Config.valid_iff _).1 hv).1
  obtain ⟨hsect, hcol, rfl⟩ := State.beam_eq_iff.1 hbeam
  have hb : s.beamOk = true := s.beamOk_iff.2 (.inl ⟨hsect, by simp [hcol], by omega⟩)
  have hpos : s.framePos = s.cfg.lineStart s.vCounter.toNat := by
    simp [State.framePos, State.lineOffset, hsect, hcol]
  have hwNat := counter_ofNat (n := s.cfg.w) (by omega)
  have hwTNat := counter_ofNat hwT
  have hsucc := counter_succ hline (by omega)
  have hbelow := Config.lineStart_succ_visible hline
  rw [← hsucc] at hbelow
  refine ⟨beamSteps_arrive_display hv hb hwNat.le hline (by omega),
    beamSteps_arrive_hblank hv hb hwNat.ge (by omega) hline (by omega),
    beamSteps_arrive_hblank hv hb (by omega) hwTNat.le hline (by omega), ?_⟩
  split
  · exact beamSteps_arrive_vblank hv hb (Nat.zero_le _) (by omega) (by omega) (by rw [counter_zero]; omega)
  · exact beamSteps_arrive_display hv hb (Nat.zero_le _) (by omega) (by rw [counter_zero]; omega)

/-- From the beginning of a blanking line: its end, and the line below or the start of the next frame. -/
theorem beamSteps_blankingLine (hv : s.cfg.valid = true) (hline : s.cfg.h ≤ v.toNat)
    (hlast : v.toNat < s.cfg.hTotal) (hbeam : s.beam = (.vblank, 0, v)) :
    (∃ t, beamSteps s.cfg.wTotal s = .next t ∧ t.beam = (.vblank, BitVec.ofNat 16 s.cfg.wTotal, v)) ∧
    ∃ t, beamSteps (s.cfg.wTotal + 1) s = .next t ∧
      t.beam = if v.toNat = s.cfg.hTotal - 1 then (.display, 0, 0) else (.vblank, 0, v + 1) := by
  obtain ⟨-, hw, hwT, hh, hhT, hhT'⟩ := (Config.beamValid_iff _).1 ((Config.valid_iff _).1 hv).1
  obtain ⟨hsect, hcol, rfl⟩ := State.beam_eq_iff.1 hbeam
  have hb : s.beamOk = true := s.beamOk_iff.2 (.inr (.inr ⟨hsect, by simp [hcol], hline, by omega⟩))
  have hpos : s.framePos = s.cfg.lineStart s.vCounter.toNat := by
    simp [State.framePos, State.lineOffset, hsect, hcol]
  have hwTNat := counter_ofNat hwT
  have hsucc := counter_succ hlast hhT'
  have hbelow := Config.lineStart_succ_blanking hline
  refine ⟨beamSteps_arrive_vblank hv hb hwTNat.le hline hlast (by omega), ?_⟩
  split
  · rename_i hv'
    refine beamSteps_arrive_start hv hb ?_
    rw [Config.framePeriod_eq_lineStart hhT.le, show s.cfg.hTotal = s.vCounter.toNat + 1 by omega]
    omega
  · rw [← hsucc] at hbelow
    exact beamSteps_arrive_vblank hv hb (Nat.zero_le _) (by omega) (by omega) (by rw [counter_zero]; omega)

end Arrive

/-! ### Frames -/

/-- From the start of a frame the beam is there again after P beam-steps, not before, and it repeats with period P. -/
theorem beamSteps_frame {s : State} (hv : s.cfg.valid = true) (hbeam : s.beam = (.display, 0, 0)) :
    (∃ t, beamSteps s.cfg.framePeriod s = .next t ∧ t.beam = (.display, 0, 0)) ∧
    (∀ k, 0 < k → k < s.cfg.framePeriod → ∃ t, beamSteps k s = .next t ∧ t.beam ≠ (.display, 0, 0)) ∧
    ∀ k, ∃ t t', beamSteps k s = .next t ∧ beamSteps (k + s.cfg.framePeriod) s = .next t' ∧
      t'.beam = t.beam := by
  have hb : s.beamOk = true := State.beamOk_of_frameStart hbeam
  have hpos := State.framePos_eq_zero hbeam
  refine ⟨beamSteps_arrive_start hv hb (by omega), fun k hk hkP => ?_, fun k => ?_⟩
  · obtain ⟨t, ht, -, -, hpost⟩ := beamSteps_next hv hb k
    refine ⟨t, ht, fun hstart => ?_⟩
    rw [hpos, State.framePos_eq_zero hstart, Nat.zero_add] at hpost
    exact absurd (hpost.eq_of_lt_of_lt (hk.trans hkP) hkP) hk.ne
  · obtain ⟨t, ht, hc, hbt, hpost⟩ := beamSteps_next hv hb k
    obtain ⟨t', ht', hbeam'⟩ := beamSteps_arrive (n := k + s.cfg.framePeriod) hv hc hb hbt
      (hpost.trans (by simpa only [Nat.add_assoc] using (Nat.add_modEq_right (a := s.framePos + k)).symm))
    exact ⟨t, t', ht, ht', hbeam'⟩

/-- Settles O23: the two kinds of line, the frame, and the period of PROFILE_SVGA. -/
theorem framePeriodIsExact : Obligations.FramePeriodIsExact := by
  refine ⟨fun s hv => ⟨fun v hline => beamSteps_visibleLine hv hline,
    fun v hline hlast => beamSteps_blankingLine hv hline hlast, beamSteps_frame hv⟩,
    fun c hwT hh hhT => ⟨rfl, ?_⟩⟩
  simp only [Config.framePeriod, hwT, hh, hhT]

/-! ### Section changes -/

theorem beamSteps_one (s : State) : beamSteps 1 s = beamStep s := by
  simp only [beamSteps]
  cases beamStep s <;> rfl

/-- From the start of a frame, within the frame, the place counts the beam-steps. -/
theorem framePos_of_beamSteps {s t : State} {n : Nat} (hv : s.cfg.valid = true)
    (hbeam : s.beam = (.display, 0, 0)) (hn : n < s.cfg.framePeriod) (ht : beamSteps n s = .next t) :
    t.framePos = n := by
  obtain ⟨t', ht', hc, hbt, hpos⟩ := beamSteps_next hv (State.beamOk_of_frameStart hbeam) n
  cases ht.symm.trans ht'
  rw [State.framePos_eq_zero hbeam, Nat.zero_add] at hpos
  exact hpos.eq_of_lt_of_lt (hc ▸ State.framePos_lt (hc ▸ hv) hbt) hn

/-- The section changes of the first `v` visible lines, none of them the last. -/
def lineChanges (v : Nat) : List (BeamSection × BeamSection) :=
  (List.replicate v [(.display, .hblank), (.hblank, .display)]).flatten

theorem lineChanges_succ (v : Nat) :
    lineChanges (v + 1) = lineChanges v ++ [(.display, .hblank), (.hblank, .display)] := by
  simp [lineChanges, List.replicate_succ']

theorem lineChanges_length (v : Nat) : (lineChanges v).length = 2 * v := by
  simp [lineChanges, Nat.mul_comm]

theorem lineChanges_count (v : Nat) (x : BeamSection × BeamSection) :
    (lineChanges v).count x =
      v * [(BeamSection.display, BeamSection.hblank), (.hblank, .display)].count x := by
  simp [lineChanges, List.count_flatten]

/-- The section changes of the frame before the present beam. -/
def State.changesSoFar (s : State) : List (BeamSection × BeamSection) :=
  match s.sect with
  | .hblank => lineChanges s.vCounter.toNat ++ [(.display, .hblank)]
  | .vblank => lineChanges (s.cfg.h - 1) ++ [(.display, .hblank), (.hblank, .vblank)]
  | .display | .none => lineChanges s.vCounter.toNat

/-- The section change of a beam-step from `s` to `t`, if there is one. -/
def changeBetween (s t : State) : List (BeamSection × BeamSection) :=
  if t.sect = s.sect then [] else [(s.sect, t.sect)]

/-- The changes of one beam-step more. -/
theorem sectionChanges_succ {n : Nat} {s t u : State} (ht : beamSteps n s = .next t)
    (hu : beamStep t = .next u) : sectionChanges (n + 1) s = sectionChanges n s ++ changeBetween t u := by
  rw [sectionChanges_add ht]
  simp only [sectionChanges, hu, List.append_nil, changeBetween]

/-- A beam-step within the frame adds its change to those so far. -/
theorem beamStep_changesSoFar {s t : State} (hv : s.cfg.valid = true) (h : beamStep s = .next t)
    (hin : t.framePos ≠ 0) :
    t.changesSoFar = s.changesSoFar ++ changeBetween s t := by
  obtain ⟨-, hw, hwT, hh, hhT, hhT'⟩ := (Config.beamValid_iff _).1 ((Config.valid_iff _).1 hv).1
  have hb := beamStep_inRange h
  rcases beamStep_cases h with ⟨hs, -, rfl⟩ | ⟨hs, -, rfl⟩ | ⟨hs, -, rfl⟩ | ⟨hs, -, rfl⟩ |
    ⟨hs, hc, hlast, rfl⟩ | ⟨hs, -, -, rfl⟩
  · simp [State.changesSoFar, changeBetween]
  · simp [State.changesSoFar, changeBetween, hs]
  · simp [State.changesSoFar, changeBetween]
  · have hvis := State.line_visible hv hb hs
    by_cases hlast : s.vCounter.toNat = s.cfg.h - 1
    · simp [State.changesSoFar, changeBetween, hs, hlast]
    · have hsucc := counter_succ hvis (by omega)
      simp only [State.changesSoFar, changeBetween, hs, hlast, if_false, hsucc, lineChanges_succ]
      simp
  · exact absurd (State.framePos_eq_zero rfl) hin
  · simp [State.changesSoFar, changeBetween, hs]

/-- The changes of a run from the start of a frame, within the frame. -/
theorem sectionChanges_eq_changesSoFar {s t : State} {n : Nat} (hv : s.cfg.valid = true)
    (hbeam : s.beam = (.display, 0, 0)) (hn : n < s.cfg.framePeriod) (ht : beamSteps n s = .next t) :
    sectionChanges n s = t.changesSoFar := by
  induction n generalizing t with
  | zero =>
    cases ht
    obtain ⟨hs, -, hline⟩ := State.beam_eq_iff.1 hbeam
    simp [sectionChanges, State.changesSoFar, hs, hline, lineChanges]
  | succ n ih =>
    obtain ⟨u, hu, hc, -, -⟩ := beamSteps_next hv (State.beamOk_of_frameStart hbeam) n
    have hstep : beamStep u = .next t := by simpa [beamSteps_add, hu, beamSteps_one] using ht
    have hpos : t.framePos = n + 1 := framePos_of_beamSteps hv hbeam hn ht
    rw [sectionChanges_succ hu hstep, ih (by omega) hu,
      beamStep_changesSoFar (hc ▸ hv) hstep (by omega)]

/-- The changes of one frame: those up to its last place, and the start of the next frame. -/
theorem sectionChanges_framePeriod {s : State} (hv : s.cfg.valid = true)
    (hbeam : s.beam = (.display, 0, 0)) :
    sectionChanges s.cfg.framePeriod s =
      lineChanges (s.cfg.h - 1) ++ [(.display, .hblank), (.hblank, .vblank), (.vblank, .display)] := by
  have hb := State.beamOk_of_frameStart hbeam
  obtain ⟨n, hn⟩ := Nat.exists_eq_add_one.2 ((Nat.zero_le _).trans_lt (State.framePos_lt hv hb))
  obtain ⟨t, ht, hc, hbt, -⟩ := beamSteps_next hv hb n
  obtain ⟨u, hu⟩ := beamStep_next hbt
  have hpos := framePos_of_beamSteps hv hbeam (by omega) ht
  have hvt : t.cfg.valid = true := hc ▸ hv
  rcases beamStep_framePos hvt hu with hnext | ⟨-, hsect, hstart⟩
  · have hlt := State.framePos_lt ((beamStep_cfg hu).trans hc ▸ hv) (beamStep_beamOk hvt hu)
    rw [beamStep_cfg hu, hc] at hlt
    omega
  · obtain ⟨husect, -, -⟩ := State.beam_eq_iff.1 hstart
    rw [hn, sectionChanges_succ ht hu, sectionChanges_eq_changesSoFar hv hbeam (by omega) ht]
    simp [State.changesSoFar, changeBetween, hsect, husect, hc]

/-- A beam-step that changes the section leaves the beam before the end of the new section's part of the line. -/
theorem beamStep_sect_ne {s t : State} (hv : s.cfg.valid = true) (h : beamStep s = .next t)
    (hne : t.sect ≠ s.sect) : t.hCounter.toNat < if t.sect = .display then s.cfg.w else s.cfg.wTotal := by
  obtain ⟨hw0, hw, -⟩ := (Config.beamValid_iff _).1 ((Config.valid_iff _).1 hv).1
  rcases beamStep_cases h with ⟨-, -, rfl⟩ | ⟨-, hc, rfl⟩ | ⟨-, -, rfl⟩ | ⟨-, -, rfl⟩ |
    ⟨-, -, -, rfl⟩ | ⟨-, -, -, rfl⟩
  case inr.inl => simpa [hc] using hw
  case inr.inr.inr.inl => rw [counter_zero]; split_ifs <;> omega
  case inr.inr.inr.inr.inl => exact hw0
  all_goals exact absurd rfl hne

/-- A beam-step from before that end keeps the section. -/
theorem beamStep_sect_eq {s t : State} (h : beamStep s = .next t)
    (hlt : s.hCounter.toNat < if s.sect = .display then s.cfg.w else s.cfg.wTotal) : t.sect = s.sect := by
  rcases beamStep_cases h with ⟨-, -, rfl⟩ | ⟨hs, hc, rfl⟩ | ⟨-, -, rfl⟩ | ⟨hs, hc, rfl⟩ |
    ⟨hs, hc, -, rfl⟩ | ⟨-, -, -, rfl⟩
  case inr.inl | inr.inr.inr.inl | inr.inr.inr.inr.inl =>
    simp [hs, hc] at hlt
  all_goals rfl

/-- Settles O24: the changes of a frame written out, and no change from the state after a change. -/
theorem sectionChangesPerFrame : Obligations.SectionChangesPerFrame := by
  intro s hv
  obtain ⟨-, -, -, hh, -⟩ := (Config.beamValid_iff _).1 ((Config.valid_iff _).1 hv).1
  refine ⟨fun hbeam => ?_, fun _ t u ht hu hne => beamStep_sect_eq hu ?_⟩
  · simp only [sectionChanges_framePeriod hv hbeam, List.length_append, List.count_append,
      lineChanges_length, lineChanges_count]
    refine ⟨?length, ?intoHblank, ?nextLine, ?intoVblank, ?frameStart⟩
    case length => simp only [List.length_cons, List.length_nil]; omega
    case intoHblank => rw [show List.count _ _ = 1 from rfl, show List.count _ _ = 1 from rfl]; omega
    case nextLine => rw [show List.count _ _ = 1 from rfl, show List.count _ _ = 0 from rfl]; omega
    case intoVblank => rfl
    case frameStart => rfl
  · rw [beamStep_cfg ht]
    exact beamStep_sect_ne hv ht hne

end Sys2Proof.Machine
end

section
/-! The driver tick: O30 and O31. An Executor's step as the operations it issues (`40_beam_timer.md` R150), and one equation for what each sub-step of a tick leaves, from which the tick is put together. -/

namespace Sys2Proof.Machine

/-! ### An Executor's step as operations of the block -/

theorem execAll_cpuOps (ops : List CpuOp) (s : State) :
    execAll (ops.map CpuOp.instr) s = .next (ops.foldl State.cpuOp s) := by
  induction ops generalizing s with
  | nil => rfl
  | cons op ops ih => rw [List.map_cons, execAll, CpuOp.exec_instr, andThen_next, ih, List.foldl_cons]

theorem execAll_ppuOps (ops : List PpuOp) : execAll (ops.map PpuOp.instr) = ppuOps ops := by
  induction ops with
  | nil => rfl
  | cons op ops ih =>
    funext s
    rw [List.map_cons, execAll, PpuOp.exec_instr, ih, ppuOps]

theorem State.call_eq (s : State) (k : ExecCall) : s.call k = { s with calls := s.calls ++ [k] } := rfl

/-- The step of Executor[CPU] is CRD and CWR in the order issued, then its accessors. -/
theorem cpuStep_eq_execAll (s : State) :
    cpuStep s =
      andThen (execAll (s.env.cpuOps.map CpuOp.instr) { s with calls := s.calls ++ [.step .cpu] })
        fun t => .next { t with cpu := { t.cpu with view := s.env.cpuView.getD s.cpu.view } } := by
  obtain ⟨m, r, es, n, hops⟩ := State.cpuOps_state s.env.cpuOps (s.call (.step .cpu))
  rw [← State.call_eq, execAll_cpuOps, andThen_next, cpuStep, State.setView_eq, hops]
  rfl

/-- The step of Executor[PPU] is PRD.P, PWR.P and RENDER in the order issued, then its accessors. -/
theorem ppuStep_eq_execAll (s : State) :
    ppuStep s =
      andThen (execAll (s.env.ppuOps.map PpuOp.instr) { s with calls := s.calls ++ [.step .ppu] })
        fun t => .next { t with ppu := { t.ppu with view := s.env.ppuView.getD s.ppu.view } } := by
  rw [← State.call_eq, execAll_ppuOps, ppuStep]
  cases hops : ppuOps s.env.ppuOps (s.call (.step .ppu)) with
  | next t =>
    obtain ⟨m, r, es, rfl⟩ := ppuOps_state hops
    rw [andThen_next, andThen_next, State.setView_eq]
    rfl
  | fault e => rfl
  | refused r => rfl

/-- Settles O30: a running tick is its list of sub-steps, and an Executor's step is its operations. -/
theorem tickRunsSubstepsInOrder : Obligations.TickRunsSubstepsInOrder := by
  refine ⟨fun s hrun => ?_, fun s => ⟨cpuStep_eq_execAll s, ppuStep_eq_execAll s⟩⟩
  have htick : exec .tick s = runSubsteps tickSubsteps s := if_neg (by simp [hrun])
  rw [htick]
  rfl

/-! ### The events an operation appends -/

theorem newEvents_append {s t : State} {es : List Event} (h : t.out = s.out ++ es) :
    newEvents s (.next t) = es := by
  rw [newEvents, h, List.drop_left]

theorem State.observe_out (s : State) (p : Proc) :
    (s.observe p).out = s.out ++ newEvents s (exec (.observe p) s) := by
  obtain ⟨sh, n, es, h, -, -⟩ := s.observe_state p
  have hout : (s.observe p).out = s.out ++ es := by rw [h]
  rw [hout]
  exact congrArg _ (newEvents_append hout).symm

/-! ### The Executors' part of a tick -/

theorem State.observe_cfg_env (s : State) (p : Proc) :
    (s.observe p).cfg = s.cfg ∧ (s.observe p).env = s.env := by
  obtain ⟨sh, n, es, h, -, -⟩ := s.observe_state p
  rw [h]
  exact ⟨State.setProc_cfg .., State.setProc_env ..⟩

theorem cpuStep_observe_cfg_env {s b : State} (hb : cpuStep (s.observe .cpu) = .next b) :
    b.cfg = s.cfg ∧ b.env = s.env := by
  obtain ⟨m, r, es, n, rfl⟩ := cpuStep_cases hb
  exact s.observe_cfg_env .cpu

/-- What stands before the beam-steps of a tick: the two observations and the two Executors' steps, CPU first. -/
theorem executors_eq {s b d : State} (hb : cpuStep (s.observe .cpu) = .next b)
    (hd : ppuStep (b.observe .ppu) = .next d) :
    d = { s with
      mem := d.mem
      rsp := d.rsp
      freeCount := d.freeCount
      out := d.out
      calls := s.calls ++ [.step .cpu, .step .ppu]
      cpu :=
        { shadow := (s.observe .cpu).cpu.shadow
          trace := dropOldest s.cfg.traceCap (s.cpu.trace ++ [s.cpu.view.pc])
          codeRomLen := s.cpu.codeRomLen
          view := s.env.cpuView.getD s.cpu.view }
      ppu :=
        { shadow := (b.observe .ppu).ppu.shadow
          trace := dropOldest s.cfg.traceCap (s.ppu.trace ++ [s.ppu.view.pc])
          codeRomLen := s.ppu.codeRomLen
          view := s.env.ppuView.getD s.ppu.view } } := by
  obtain ⟨sh, n, es, ha, -, -⟩ := s.observe_state .cpu
  obtain ⟨m, r, es', n', rfl⟩ := cpuStep_cases hb
  obtain ⟨sh', n'', es'', hc, -, -⟩ := State.observe_state _ .ppu
  obtain ⟨m', r', es''', rfl⟩ := ppuStep_cases hd
  rw [hc, ha]
  simp [State.setProc, State.proc]

/-- The Executors' part of a tick completes unless a RENDER in it may leave the framebuffer. -/
theorem executors_next {s : State}
    (h : s.cfg.clip = true ∨ roomy s.cfg = true ∨ PpuOp.render ∉ s.env.ppuOps ∨
      ∃ a b c d, exec (.observe .cpu) s = .next a ∧ cpuStep a = .next b ∧
        exec (.observe .ppu) b = .next c ∧ ppuStep c = .next d) :
    ∃ b d, cpuStep (s.observe .cpu) = .next b ∧ ppuStep (b.observe .ppu) = .next d := by
  obtain ⟨b, hb⟩ := cpuStep_next (s.observe .cpu)
  have hops : (s.cfg.clip = true ∨ roomy s.cfg = true ∨ PpuOp.render ∉ s.env.ppuOps) →
      ∃ d, ppuStep (b.observe .ppu) = .next d := by
    intro hsafe
    obtain ⟨hcfg, henv⟩ := b.observe_cfg_env .ppu
    obtain ⟨hcfgb, henvb⟩ := cpuStep_observe_cfg_env hb
    obtain ⟨t, ht⟩ := ppuOps_next (ops := (b.observe .ppu).env.ppuOps)
      (s := (b.observe .ppu).call (.step .ppu)) (by
        rw [State.call_cfg, hcfg, henv, hcfgb, henvb]
        exact hsafe)
    exact ⟨_, by rw [ppuStep, ht]; rfl⟩
  rcases h with h | h | h | ⟨a, b', c, d, ha, hb', hc, hd⟩
  · exact ⟨b, (hops (.inl h)).imp fun _ hd => ⟨hb, hd⟩⟩
  · exact ⟨b, (hops (.inr (.inl h))).imp fun _ hd => ⟨hb, hd⟩⟩
  · exact ⟨b, (hops (.inr (.inr h))).imp fun _ hd => ⟨hb, hd⟩⟩
  · cases ha
    cases hc
    exact ⟨b', d, hb', hd⟩

/-- What the Executors' part of a tick logs. -/
theorem executors_out {s b d : State} (hb : cpuStep (s.observe .cpu) = .next b)
    (hd : ppuStep (b.observe .ppu) = .next d) :
    d.out = s.out
      ++ newEvents s (exec (.observe .cpu) s) ++ s.env.cpuOps.flatMap (CpuOp.events s.cfg)
      ++ newEvents b (exec (.observe .ppu) b) ++ s.env.ppuOps.flatMap (PpuOp.events s.cfg) := by
  obtain ⟨ha, hea⟩ := s.observe_cfg_env .cpu
  obtain ⟨hc, hec⟩ := b.observe_cfg_env .ppu
  obtain ⟨hcb, heb⟩ := cpuStep_observe_cfg_env hb
  rw [ppuStep_out hd, State.observe_out, cpuStep_out hb, State.observe_out, hc, hec, hcb, heb, ha, hea]

/-! ### The bytes an Executor's step leaves alone -/

theorem State.byteAt_cpuOp_other {s : State} {op : CpuOp} {l : Loc} (hl : l.off < 65536)
    (h : ∀ a d, op = .write a d → resolveCpu s.cfg a ≠ some l) : (s.cpuOp op).byteAt l = s.byteAt l := by
  cases op with
  | read a =>
    have hread := s.read_state .cpu a
    simp only [State.read] at hread
    simp only [State.cpuOp, State.cpuReadOp]
    rw [hread]
    rfl
  | write a d =>
    simp only [State.cpuOp, State.cpuWrite]
    split
    · rename_i l' hl'
      exact State.byteAt_progWrite_other _ _ _ _ (resolveCpu_off_lt hl') hl
        fun heq => h a d rfl (heq ▸ hl')
    · rfl

theorem State.byteAt_cpuOps_other {ops : List CpuOp} {s : State} {l : Loc} (hl : l.off < 65536)
    (h : ∀ a d, .write a d ∈ ops → resolveCpu s.cfg a ≠ some l) :
    (ops.foldl State.cpuOp s).byteAt l = s.byteAt l := by
  induction ops generalizing s with
  | nil => rfl
  | cons op ops ih =>
    have hcfg : (s.cpuOp op).cfg = s.cfg := (s.cpuOp_extends op).cfg
    rw [List.foldl_cons, ih fun a d hmem => hcfg ▸ h a d (List.mem_cons_of_mem _ hmem)]
    exact State.byteAt_cpuOp_other hl fun a d heq => h a d (heq ▸ List.mem_cons_self ..)

theorem byteAt_ppuOp_other {op : PpuOp} {s t : State} (ht : ppuOp op s = .next t) {l : Loc}
    (hl : l.off < 65536) (hrender : op ≠ .render)
    (h : ∀ a d, op = .write a d → resolvePpu s.cfg a ≠ l) : t.byteAt l = s.byteAt l := by
  cases op with
  | read a =>
    cases ht
    rfl
  | write a d =>
    cases ht
    exact State.byteAt_progWrite_other _ _ _ _ (resolvePpu_off_lt _ a) hl (h a d rfl).symm
  | render => exact absurd rfl hrender

theorem byteAt_ppuOps_other {ops : List PpuOp} {s t : State} (ht : ppuOps ops s = .next t) {l : Loc}
    (hl : l.off < 65536) (hrender : .render ∉ ops)
    (h : ∀ a d, .write a d ∈ ops → resolvePpu s.cfg a ≠ l) : t.byteAt l = s.byteAt l := by
  induction ops generalizing s with
  | nil =>
    cases ht
    rfl
  | cons op ops ih =>
    obtain ⟨u, hu, ht⟩ := andThen_eq_next.1 ht
    have hcfg : u.cfg = s.cfg := (ppuOp_extends hu).cfg
    rw [ih ht (fun hmem => hrender (List.mem_cons_of_mem _ hmem))
      fun a d hmem => hcfg ▸ h a d (List.mem_cons_of_mem _ hmem)]
    exact byteAt_ppuOp_other hu hl (fun heq => hrender (heq ▸ List.mem_cons_self ..))
      fun a d heq => h a d (heq ▸ List.mem_cons_self ..)

theorem State.byteAt_setView (s : State) (p : Proc) (v : Option ExecView) (l : Loc) :
    (s.setView p v).byteAt l = s.byteAt l := by
  rw [State.setView_eq]
  exact State.byteAt_congr (State.setProc_cfg ..) (State.setProc_ramEpoch ..) (State.setProc_mem ..) l

theorem State.byteAt_observe (s : State) (p : Proc) (l : Loc) :
    (s.observe p).byteAt l = s.byteAt l := by
  obtain ⟨sh, n, es, h, -, -⟩ := s.observe_state p
  rw [h]
  exact State.byteAt_congr (State.setProc_cfg ..) (State.setProc_ramEpoch ..) (State.setProc_mem ..) l

/-- Without a RENDER the Executors' part of a tick stores only where a write of theirs resolves. -/
theorem byteAt_executors_other {s b d : State} (hb : cpuStep (s.observe .cpu) = .next b)
    (hd : ppuStep (b.observe .ppu) = .next d) {l : Loc} (hl : l.off < 65536)
    (hrender : .render ∉ s.env.ppuOps)
    (hcpu : ∀ a d, .write a d ∈ s.env.cpuOps → resolveCpu s.cfg a ≠ some l)
    (hppu : ∀ a d, .write a d ∈ s.env.ppuOps → resolvePpu s.cfg a ≠ l) :
    d.byteAt l = s.byteAt l := by
  obtain ⟨ha, hea⟩ := s.observe_cfg_env .cpu
  obtain ⟨hc, hec⟩ := b.observe_cfg_env .ppu
  obtain ⟨hcb, heb⟩ := cpuStep_observe_cfg_env hb
  obtain ⟨u, hu, ht⟩ := andThen_eq_next.1 hd
  have hstep : u.byteAt l = (b.observe .ppu).byteAt l :=
    byteAt_ppuOps_other hu hl (by rwa [hec, heb]) (by
      rw [hec, heb, State.call_cfg, hc, hcb]
      exact hppu)
  have hstep' : b.byteAt l = (s.observe .cpu).byteAt l := by
    cases hb
    rw [State.byteAt_setView]
    exact State.byteAt_cpuOps_other hl (by
      rw [hea, State.call_cfg, ha]
      exact hcpu)
  cases ht
  rw [State.byteAt_setView, hstep, State.byteAt_observe, hstep', State.byteAt_observe]

/-! ### The beam-steps -/

/-- A beam-step does the same from every state with the same beam; the pixel is taken from the state it runs in. -/
theorem beamStep_transport {s u x : State} (h : beamStep s = .next u) (hcfg : x.cfg = s.cfg)
    (hbeam : x.beam = s.beam) :
    beamStep x = .next ((x.withBeam u.sect u.hCounter u.vCounter).emitAll (pixelEvents s x)) := by
  obtain ⟨hxs, hxh, hxv⟩ := State.beam_eq_iff.1 hbeam
  have hb := beamStep_inRange h
  have hbx : x.beamOk = true := by
    rw [← hb]
    simp only [State.beamOk, hxs, hxh, hxv, hcfg]
  rw [beamStep_eq hbx]
  rcases beamStep_cases h with ⟨hs, hc, rfl⟩ | ⟨hs, hc, rfl⟩ | ⟨hs, hc, rfl⟩ | ⟨hs, hc, rfl⟩ |
    ⟨hs, hc, hlast, rfl⟩ | ⟨hs, hc, hlast, rfl⟩
  · rw [beamRow_display_advance (hxs.trans hs) (by rwa [hxh, hcfg]), State.streamPixel_out]
    simp [State.withBeam, State.emitAll, pixelEvents, State.pixelAt, hxs, hxh, hxv, hcfg, hs, hc]
  · rw [beamRow_display_end (hxs.trans hs) (by rwa [hxh, hcfg])]
    simp [State.withBeam, State.emitAll, pixelEvents, hxh, hxv, hc]
  · rw [beamRow_blank_advance (hxs.symm ▸ hs) (by rwa [hxh, hcfg])]
    rcases hs with hs | hs <;> simp [State.withBeam, State.emitAll, pixelEvents, hxs, hxh, hxv, hs]
  · rw [beamRow_hblank_end (hxs.trans hs) (by rwa [hxh, hcfg])]
    simp [State.withBeam, State.emitAll, pixelEvents, hxv, hcfg, hs]
  · rw [beamRow_vblank_last (hxs.trans hs) (by rwa [hxh, hcfg]) (by rwa [hxv, hcfg])]
    simp [State.withBeam, State.emitAll, pixelEvents, hs]
  · rw [beamRow_vblank_end (hxs.trans hs) (by rwa [hxh, hcfg]) (by rwa [hxv, hcfg])]
    simp [State.withBeam, State.emitAll, pixelEvents, hxs, hxv, hs]

/-! ### The edge check -/

/-- What an edge check logs. -/
def State.edgeLog (s : State) : List Event :=
  if s.sect = s.prevSection then []
  else .sectionChange s.prevSection s.sect ::
    (edgeEvents s s.prevSection s.sect ++ if s.waitTarget = s.sect then [.waitDone s.sect] else [])

/-- The edge check in one equation, with an edge and without. -/
theorem edgeCheck_eq {s : State} (hs : s.sect ≠ .none) :
    edgeCheck s = .next { s with
      prevSection := s.sect
      waitTarget := if s.prevSection ≠ s.sect ∧ s.waitTarget = s.sect then .none else s.waitTarget
      out := s.out ++ s.edgeLog } := by
  obtain ⟨t, ht⟩ := edgeCheck_next hs
  rw [ht]
  rcases edgeCheck_cases ht with ⟨hp, rfl⟩ | ⟨hp, -, rfl⟩
  · cases t
    cases hp
    simp [State.edgeLog]
  · simp [State.edgeLog, hp, Ne.symm hp]

/-- The edge check does the same from every state with the same edge, line, wait and configuration. -/
theorem edgeCheck_transport {s x : State} (hs : s.sect ≠ .none) (hcfg : x.cfg = s.cfg)
    (hbeam : x.beam = s.beam) (hprev : x.prevSection = s.prevSection)
    (hwait : x.waitTarget = s.waitTarget) :
    edgeCheck x = .next { x with
      prevSection := s.sect
      waitTarget := if s.prevSection ≠ s.sect ∧ s.waitTarget = s.sect then .none else s.waitTarget
      out := x.out ++ s.edgeLog } := by
  obtain ⟨hxs, -, hxv⟩ := State.beam_eq_iff.1 hbeam
  rw [edgeCheck_eq (hxs.symm ▸ hs)]
  simp only [State.edgeLog, edgeEvents, hcfg, hxs, hxv, hprev, hwait]

theorem newEvents_edgechk {s : State} (hs : s.sect ≠ .none) :
    newEvents s (exec .edgechk s) = s.edgeLog := by
  rw [show exec .edgechk s = edgeCheck s from rfl, edgeCheck_eq hs]
  exact newEvents_append rfl

/-! ### The stack guards -/

/-- The condition of the stack guard (`44_instrumentation.md` R270). -/
def State.spLowHit (s : State) (p : Proc) : Bool := (s.proc p).view.sp < s.cfg.spLow p

theorem State.spLowHit_iff (s : State) (p : Proc) :
    s.spLowHit p = true ↔ (s.proc p).view.sp.toNat < (s.cfg.spLow p).toNat := by
  rw [State.spLowHit, decide_eq_true_eq, BitVec.lt_def]

/-- What a stack guard logs. -/
def State.guardLog (s : State) (p : Proc) : List Event :=
  if s.spLowHit p then
    [.fatal .stackUnderflow p (s.proc p).view.sp, s.regDumpOf .cpu, s.regDumpOf .ppu]
      ++ s.traceLines .cpu ++ s.traceLines .ppu
  else []

/-- The stack guard in one equation, with a fatal and without. -/
theorem State.spCheck_eq (s : State) (p : Proc) :
    s.spCheck p = { s with
      halted := s.halted || s.spLowHit p
      haltCause := if s.spLowHit p && !s.halted then 0x81 else s.haltCause
      out := s.out ++ s.guardLog p } := by
  rcases s.spCheck_cases p with ⟨hsp, h⟩ | ⟨hsp, h⟩
  · have hit : s.spLowHit p = false := by simpa [State.spLowHit, BitVec.not_lt] using hsp
    simp [h, State.guardLog, hit]
  · have hit : s.spLowHit p = true := by simpa [State.spLowHit] using hsp
    rw [h, State.raiseFatal_eq]
    cases hh : s.halted <;> simp [State.guardLog, hit, FatalCause.code]

theorem newEvents_spchk (s : State) (p : Proc) :
    newEvents s (exec (.spchk p) s) = s.guardLog p := by
  rw [show exec (.spchk p) s = .next (s.spCheck p) from rfl, State.spCheck_eq]
  exact newEvents_append rfl

/-- Both stack guards of a running machine. -/
theorem State.spCheck_both {s : State} (hrun : s.halted = false) :
    (s.spCheck .cpu).spCheck .ppu = { s with
      halted := s.spLowHit .cpu || s.spLowHit .ppu
      haltCause := if s.spLowHit .cpu || s.spLowHit .ppu then 0x81 else s.haltCause
      out := s.out ++ s.guardLog .cpu ++ s.guardLog .ppu } := by
  have hit : (s.spCheck .cpu).spLowHit .ppu = s.spLowHit .ppu := by rw [State.spCheck_eq]; rfl
  have hlog : (s.spCheck .cpu).guardLog .ppu = s.guardLog .ppu := by rw [State.spCheck_eq]; rfl
  rw [State.spCheck_eq _ .ppu, hit, hlog, State.spCheck_eq]
  cases hc : s.spLowHit .cpu <;> simp [hrun]

/-! ### The tick -/

/-- What a tick makes of the state `d` after its Executors' steps, where the beam goes to `u` and then to `v`. -/
def State.afterExecutors (d : State) (s u v : State) : State :=
  { d with
    sect := v.sect
    hCounter := v.hCounter
    vCounter := v.vCounter
    prevSection := v.sect
    waitTarget := if s.prevSection ≠ v.sect ∧ s.waitTarget = v.sect then .none else s.waitTarget
    halted := d.spLowHit .cpu || d.spLowHit .ppu
    haltCause := if d.spLowHit .cpu || d.spLowHit .ppu then 0x81 else d.haltCause
    out := d.out ++ pixelEvents s d ++ pixelEvents u d ++ v.edgeLog ++ d.guardLog .cpu ++ d.guardLog .ppu }

/-- A tick is its Executors' steps and then the beam, the edge check and the guards, which those steps do not reach. -/
theorem execTick_eq {s b d u v : State} (hvalid : s.cfg.valid = true) (hrun : s.halted = false)
    (hb : cpuStep (s.observe .cpu) = .next b) (hd : ppuStep (b.observe .ppu) = .next d)
    (hu : beamStep s = .next u) (hv : beamStep u = .next v) :
    execTick s = .next (d.afterExecutors s u v) := by
  have hdeq := executors_eq hb hd
  have hcfg : d.cfg = s.cfg := by rw [hdeq]
  have hbeam : d.beam = s.beam := by rw [hdeq]; rfl
  have hd1 := beamStep_transport hu hcfg hbeam
  have hd2 := beamStep_transport
    (x := (d.withBeam u.sect u.hCounter u.vCounter).emitAll (pixelEvents s d))
    hv (hcfg.trans (beamStep_cfg hu).symm) rfl
  have hsect : v.sect ≠ .none :=
    State.sect_ne_none (beamStep_beamOk (by rw [beamStep_cfg hu]; exact hvalid) hv)
  have hcfgv : v.cfg = s.cfg := (beamStep_cfg hv).trans (beamStep_cfg hu)
  have hprev : v.prevSection = s.prevSection := by rw [beamStep_frame hv, beamStep_frame hu]
  have hwait : v.waitTarget = s.waitTarget := by rw [beamStep_frame hv, beamStep_frame hu]
  have hprevd : d.prevSection = s.prevSection := by rw [hdeq]
  have hwaitd : d.waitTarget = s.waitTarget := by rw [hdeq]
  have hrund : d.halted = false := by rw [hdeq]; exact hrun
  have hedge := edgeCheck_transport
    (x := (((d.withBeam u.sect u.hCounter u.vCounter).emitAll (pixelEvents s d)).withBeam
      v.sect v.hCounter v.vCounter).emitAll (pixelEvents u d))
    hsect (hcfg.trans hcfgv.symm) rfl (hprevd.trans hprev.symm) (hwaitd.trans hwait.symm)
  rw [hprev, hwait] at hedge
  exact (execTick_of hrun hb hd hd1 hd2 hedge).trans (congrArg _ (State.spCheck_both hrund))

/-- The latch after a tick: set by a stack pointer below its mark. -/
theorem State.afterExecutors_halted {d s : State} (hcfg : d.cfg = s.cfg) (u v : State) :
    (d.afterExecutors s u v).halted = true ↔
      d.cpu.view.sp.toNat < s.cfg.spLowCpu.toNat ∨ d.ppu.view.sp.toNat < s.cfg.spLowPpu.toNat := by
  rw [← hcfg]
  exact (Bool.or_eq_true_iff ..).trans (or_congr (d.spLowHit_iff .cpu) (d.spLowHit_iff .ppu))

/-- The events of a tick after its Executors' steps, as the operations issued alone log them. -/
theorem State.afterExecutors_out {d s u v t : State} (hsect : v.sect ≠ .none)
    (ht : d.afterExecutors s u v = t) :
    t.out = d.out ++ pixelEvents s t ++ pixelEvents u t ++ newEvents v (exec .edgechk v)
      ++ newEvents t (exec (.spchk .cpu) t) ++ newEvents t (exec (.spchk .ppu) t) := by
  rw [newEvents_edgechk hsect, newEvents_spchk, newEvents_spchk, ← ht]
  rfl

/-- Settles O31: a tick with its Executors' steps done is `afterExecutors`, whose fields are what the statement lists. -/
theorem tickCompletes : Obligations.TickCompletes := by
  intro s hvalid hbeam hrun hsafe
  obtain ⟨b, d, hb, hd⟩ := executors_next hsafe
  obtain ⟨u, hu⟩ := beamStep_next hbeam
  have hvalidu : u.cfg.valid = true := by rw [beamStep_cfg hu, hvalid]
  obtain ⟨v, hv⟩ := beamStep_next (beamStep_beamOk hvalid hu)
  have hsect := State.sect_ne_none (beamStep_beamOk hvalidu hv)
  have hdeq := executors_eq hb hd
  have hcfg : d.cfg = s.cfg := (congrArg State.cfg hdeq :)
  have hcause : d.haltCause = s.haltCause := (congrArg State.haltCause hdeq :)
  have hcpu : d.cpu = _ := congrArg State.cpu hdeq
  have hppu : d.ppu = _ := congrArg State.ppu hdeq
  refine ⟨s.observe .cpu, b, b.observe .ppu, d, u, v, d.afterExecutors s u v,
    rfl, hb, rfl, hd, hu, hv, execTick_eq hvalid hrun hb hd hu hv, rfl, rfl, rfl,
    (congrArg State.calls hdeq :), (congrArg ProcState.view hcpu :), (congrArg ProcState.view hppu :),
    (congrArg ProcState.trace hcpu :), (congrArg ProcState.trace hppu :),
    (congrArg ProcState.shadow hcpu :), (congrArg ProcState.shadow hppu :),
    (congrArg ProcState.codeRomLen hcpu :), (congrArg ProcState.codeRomLen hppu :),
    State.afterExecutors_halted hcfg u v, ?haltCause, ?out, rfl, rfl, rfl,
    hcfg, (congrArg State.inbox hdeq :), (congrArg State.env hdeq :), (congrArg State.ramEpoch hdeq :), ?bytes⟩
  case haltCause =>
    rw [← hcause]
    rfl
  case out =>
    rw [State.afterExecutors_out hsect rfl, executors_out hb hd]
  case bytes => exact fun hrender _ hl => byteAt_executors_other hb hd hl hrender

end Sys2Proof.Machine
end

section
/-! The scheduler: O25, O26, O28, O29 and O32. Each scheduler operation as one equation, and which events an edge check alone can log, rule by rule for the other operations and for the other parts of a tick. -/

namespace Sys2Proof.Machine

/-! ### EDGECHK, WAITSET and RESUME -/

/-- On an edge the edge check logs everything `41_interrupt_scheduler.md` R170 lists. -/
theorem edgeCheck_edge {s : State} (hp : s.sect ≠ s.prevSection) (hs : s.sect ≠ .none) :
    edgeCheck s = .next { s with
      prevSection := s.sect
      waitTarget := if s.waitTarget = s.sect then .none else s.waitTarget
      out := s.out ++ .sectionChange s.prevSection s.sect ::
        (edgeEvents s s.prevSection s.sect ++
          if s.waitTarget = s.sect then [.waitDone s.sect] else []) } := by
  obtain ⟨t, ht⟩ := edgeCheck_next hs
  rcases edgeCheck_cases ht with ⟨heq, -⟩ | ⟨-, -, rfl⟩
  · exact absurd heq hp
  · exact ht

/-- Settles O25: no edge, or an edge into each section with that section's own events. -/
theorem edgechkResult : Obligations.EdgechkResult := by
  intro s
  refine ⟨fun hp => if_pos hp, fun hp hs => ?hblank, fun hp hs => ?display, fun hp hs => ?vblank,
    fun p vec => ⟨rfl, rfl⟩⟩
  case hblank | display | vblank =>
    refine (edgeCheck_edge hp (by simp [hs])).trans ?_
    rw [hs]
    rfl

theorem exec_waitset {sec : BeamSection} (hsec : sec ≠ .none) (s : State) :
    exec (.waitset sec) s = .next { s with waitTarget := sec } := if_neg hsec

/-- Settles O26: only the section NONE is refused. -/
theorem waitsetReplacesTarget : Obligations.WaitsetReplacesTarget :=
  fun _ s hsec => exec_waitset hsec s

theorem exec_resume (s : State) : exec .resume s = .next { s with waitTarget := .none } := rfl

/-- Settles O28: RESUME writes `waitTarget` and nothing else. -/
theorem resumeClearsWait : Obligations.ResumeClearsWait := by
  refine ⟨decodeCmd_resume, exec_resume, fun s hnone => ?_, fun s =>
    ⟨_, _, exec_waitset (by decide) s, exec_resume _, rfl, rfl⟩⟩
  rw [exec_resume, ← hnone]

/-! ### Streams without an edge's events -/

/-- The events of the edge check (`41_interrupt_scheduler.md` R170): the section change, the actions of the section entered, the frame, the end of a wait. -/
def Event.ofEdge : Event → Bool
  | .sectionChange _ _ | .raiseNmi _ | .raiseInt _ _ | .presentFrame | .waitDone _ => true
  | .setPixel _ _ _ | .diag _ _ | .fatal _ _ _ | .regDump _ _ _ _ | .traceLine _ _ _
  | .loadReport _ _ => false

/-- Between `s` and `t` events were logged, none of them an edge's. -/
def State.LogsNoEdge (s t : State) : Prop :=
  ∃ es, t.out = s.out ++ es ∧ ∀ e ∈ es, e.ofEdge = false

theorem State.LogsNoEdge.of_same {s t : State} (hout : t.out = s.out) : s.LogsNoEdge t :=
  ⟨[], by rw [hout, List.append_nil], by simp⟩

theorem State.LogsNoEdge.trans {s t u : State} (hst : s.LogsNoEdge t) (htu : t.LogsNoEdge u) :
    s.LogsNoEdge u := by
  obtain ⟨es, hes, hquiet⟩ := hst
  obtain ⟨es', hes', hquiet'⟩ := htu
  exact ⟨es ++ es', by rw [hes', hes, List.append_assoc],
    fun e he => (List.mem_append.1 he).elim (hquiet e) (hquiet' e)⟩

/-- An operation that completes with `u` has no other next state. -/
theorem State.LogsNoEdge.of_next {s t u : State} (hu : s.LogsNoEdge u)
    (h : (.next u : Result) = .next t) : s.LogsNoEdge t := by
  cases h
  exact hu

/-! ### Bus accesses and LOADROM -/

theorem CpuOp.events_ofEdge (c : Config) (op : CpuOp) : ∀ e ∈ op.events c, e.ofEdge = false := by
  cases op with
  | read a => simp [CpuOp.events]
  | write a d =>
    simp only [CpuOp.events]
    split
    · split <;> simp [Event.ofEdge]
    · simp [Event.ofEdge]

theorem PpuOp.events_ofEdge (c : Config) (op : PpuOp) : ∀ e ∈ op.events c, e.ofEdge = false := by
  cases op with
  | read a | render => simp [PpuOp.events]
  | write a d =>
    simp only [PpuOp.events]
    split <;> simp [Event.ofEdge]

theorem State.cpuOp_logsNoEdge (s : State) (op : CpuOp) : s.LogsNoEdge (s.cpuOp op) :=
  ⟨_, s.cpuOp_out op, op.events_ofEdge s.cfg⟩

theorem ppuOp_logsNoEdge {op : PpuOp} {s t : State} (h : ppuOp op s = .next t) : s.LogsNoEdge t :=
  ⟨_, ppuOp_out h, op.events_ofEdge s.cfg⟩

theorem State.setRomLen_out (s : State) (r : BitVec 3) (m : Nat) :
    (s.setRomLen r m).out = s.out := by
  unfold State.setRomLen
  split
  · exact State.setProc_out ..
  · rfl

/-- LOADROM logs its report. -/
theorem State.loadRom_out (s : State) (r : BitVec 3) (st : Store) (m : Nat) :
    (s.loadRom r st m).out = s.out ++ [.loadReport r m] := by
  have hlen : (((s.storeBytes st 0 (s.imageBytes m)).emit (.loadReport r m)).setRomLen r m).out =
      s.out ++ [.loadReport r m] := by
    rw [State.setRomLen_out, State.emit_out, State.storeBytes_eq]
  simp only [State.loadRom]
  split <;> exact hlen

theorem execLoadrom_logsNoEdge {r : BitVec 3} {n : BitVec 16} {s t : State}
    (h : execLoadrom r n s = .next t) : s.LogsNoEdge t := by
  unfold execLoadrom at h
  split at h
  · cases h
    exact ⟨_, s.loadRom_out r _ _, by simp [Event.ofEdge]⟩
  · cases h

/-! ### The instrumentation -/

theorem State.observeClass_logsNoEdge (s : State) (p : Proc) (k : OpClass) :
    s.LogsNoEdge (s.observeClass p k) := by
  obtain ⟨sh, n, es, h, -, hes⟩ := s.observeClass_state p k
  refine ⟨es, by rw [h], ?_⟩
  rcases hes with rfl | ⟨ra, rfl⟩ <;> simp [Event.ofEdge]

theorem State.observe_logsNoEdge (s : State) (p : Proc) : s.LogsNoEdge (s.observe p) := by
  have hfetch : s.LogsNoEdge (s.opcodePair p).2 := .of_same (by rw [State.opcodePair_state])
  exact hfetch.trans (State.observeClass_logsNoEdge _ p _)

theorem State.traceLines_ofEdge (s : State) (p : Proc) : ∀ e ∈ s.traceLines p, e.ofEdge = false := by
  intro e he
  obtain ⟨g, -, rfl⟩ := List.mem_map.1 he
  rfl

/-- A stack guard logs the fatal with its dumps, or nothing. -/
theorem State.spCheck_logsNoEdge (s : State) (p : Proc) : s.LogsNoEdge (s.spCheck p) := by
  refine ⟨s.guardLog p, by rw [State.spCheck_eq], fun e he => ?_⟩
  unfold State.guardLog at he
  split at he
  · simp only [List.mem_append, List.mem_cons, List.not_mem_nil, or_false] at he
    rcases he with ((rfl | rfl | rfl) | he) | he
    · rfl
    · rfl
    · rfl
    · exact s.traceLines_ofEdge .cpu e he
    · exact s.traceLines_ofEdge .ppu e he
  · cases he

/-! ### The beam and the Executors' steps -/

theorem beamStep_logsNoEdge {s t : State} (h : beamStep s = .next t) : s.LogsNoEdge t := by
  rcases beamStep_cases h with ⟨-, -, rfl⟩ | ⟨-, -, rfl⟩ | ⟨-, -, rfl⟩ | ⟨-, -, rfl⟩ |
    ⟨-, -, -, rfl⟩ | ⟨-, -, -, rfl⟩
  · exact ⟨_, s.streamPixel_out, by split <;> simp [Event.ofEdge]⟩
  all_goals exact .of_same rfl

theorem flatMap_ofEdge {α : Type} {f : α → List Event} (hf : ∀ x, ∀ e ∈ f x, e.ofEdge = false)
    (xs : List α) : ∀ e ∈ xs.flatMap f, e.ofEdge = false := by
  intro e he
  obtain ⟨x, -, hx⟩ := List.mem_flatMap.1 he
  exact hf x e hx

theorem cpuStep_logsNoEdge {s t : State} (h : cpuStep s = .next t) : s.LogsNoEdge t :=
  ⟨_, cpuStep_out h, flatMap_ofEdge (CpuOp.events_ofEdge _) _⟩

theorem ppuStep_logsNoEdge {s t : State} (h : ppuStep s = .next t) : s.LogsNoEdge t :=
  ⟨_, ppuStep_out h, flatMap_ofEdge (PpuOp.events_ofEdge _) _⟩

/-! ### Every instruction but EDGECHK and TICK -/

theorem execWaitset_logsNoEdge {sec : BeamSection} {s t : State} (h : execWaitset sec s = .next t) :
    s.LogsNoEdge t := by
  unfold execWaitset at h
  split at h
  · cases h
  · cases h
    exact .of_same rfl

/-- Only EDGECHK and TICK can log an edge's event. -/
theorem exec_logsNoEdge {i : Instr} {s t : State} (h : exec i s = .next t) (hedgechk : i ≠ .edgechk)
    (htick : i ≠ .tick) : s.LogsNoEdge t := by
  cases i with
  | edgechk => exact absurd rfl hedgechk
  | tick => exact absurd rfl htick
  | reset => exact (State.LogsNoEdge.of_same (t := s.resetBlock) rfl).of_next h
  | bstep => exact beamStep_logsNoEdge h
  | waitset sec => exact execWaitset_logsNoEdge h
  | resume => cases h; exact .of_same rfl
  | observe p => exact (s.observe_logsNoEdge p).of_next h
  | spchk p => exact (s.spCheck_logsNoEdge p).of_next h
  | tracedump p => cases h; exact ⟨_, rfl, s.traceLines_ofEdge p⟩
  | render => exact ppuOp_logsNoEdge (op := .render) h
  | prdP a | prdE a => exact ppuOp_logsNoEdge (op := .read a) h
  | pwrP a d => exact ppuOp_logsNoEdge (op := .write a d) h
  | pwrE a d => cases h; exact .of_same rfl
  | crd a => exact (s.cpuOp_logsNoEdge (.read a)).of_next h
  | cwr a d => exact (s.cpuOp_logsNoEdge (.write a d)).of_next h
  | loadrom r n => exact execLoadrom_logsNoEdge h
  | z80PushQq p _ | z80PushIx p | z80PushIy p => exact (s.observeClass_logsNoEdge p .push).of_next h
  | z80PopQq p _ | z80PopIx p | z80PopIy p => exact (s.observeClass_logsNoEdge p .pop).of_next h
  | z80Reti p | z80Retn p => exact (s.observeClass_logsNoEdge p .reti).of_next h

/-- Settles O29: `waitDone` is an edge's event, and no other instruction logs one. -/
theorem waitDoneOnlyFromEdgeCheck : Obligations.WaitDoneOnlyFromEdgeCheck := by
  intro i s t sec h hmem
  by_contra hother
  obtain ⟨hedgechk, htick⟩ := not_or.1 hother
  obtain ⟨es, hout, hquiet⟩ := exec_logsNoEdge h hedgechk htick
  rw [hout, List.drop_left] at hmem
  exact Bool.noConfusion (hquiet _ hmem)

/-! ### The section change of a tick -/

theorem filter_isSectionChange_of_noEdge {es : List Event} (h : ∀ e ∈ es, e.ofEdge = false) :
    es.filter Event.isSectionChange = [] := by
  refine List.filter_eq_nil_iff.2 fun e he hchange => ?_
  cases e with
  | sectionChange a b => exact Bool.noConfusion (h _ he)
  | _ => cases hchange

/-- An interrupt action is no section change. -/
theorem filter_isSectionChange_actions (acts : List IntAction) :
    (acts.map actionEvent).filter Event.isSectionChange = [] := by
  refine List.filter_eq_nil_iff.2 fun e he => ?_
  obtain ⟨act, -, rfl⟩ := List.mem_map.1 he
  cases act <;> simp [actionEvent, Event.isSectionChange]

theorem filter_isSectionChange_edgeEvents (s : State) (source target : BeamSection) :
    (edgeEvents s source target).filter Event.isSectionChange = [] := by
  cases target with
  | none => rfl
  | display =>
    simp only [edgeEvents]
    split
    · exact filter_isSectionChange_actions _
    · rfl
  | hblank =>
    simp only [edgeEvents, List.filter_append, filter_isSectionChange_actions, List.nil_append]
    split <;> rfl
  | vblank => exact filter_isSectionChange_actions _

/-- Of section changes an edge check logs its own. -/
theorem State.filter_isSectionChange_edgeLog (s : State) :
    s.edgeLog.filter Event.isSectionChange =
      if s.sect = s.prevSection then [] else [.sectionChange s.prevSection s.sect] := by
  unfold State.edgeLog
  split
  · rfl
  · rw [List.filter_cons_of_pos rfl, List.filter_append, filter_isSectionChange_edgeEvents]
    split <;> rfl

/-- After an edge check the section known is the present one, which it does not change; its log is `edgeLog`. -/
theorem edgeCheck_log {s t : State} (h : edgeCheck s = .next t) :
    t.sect = s.sect ∧ t.prevSection = s.sect ∧ t.out = s.out ++ s.edgeLog := by
  rcases edgeCheck_cases h with ⟨heq, rfl⟩ | ⟨hne, -, rfl⟩
  · exact ⟨rfl, heq.symm, by rw [State.edgeLog, if_pos heq, List.append_nil]⟩
  · exact ⟨rfl, rfl, by rw [State.edgeLog, if_neg hne]⟩

/-- Before its edge check a tick logs no edge's event and keeps the section known. -/
theorem tick_before_edgeCheck {s s2 s4 s5 s6 : State} (h2 : cpuStep (s.observe .cpu) = .next s2)
    (h4 : ppuStep (s2.observe .ppu) = .next s4) (h5 : beamStep s4 = .next s5)
    (h6 : beamStep s5 = .next s6) : s.LogsNoEdge s6 ∧ s6.prevSection = s.prevSection := by
  have hcpu : s.LogsNoEdge s2 := (s.observe_logsNoEdge .cpu).trans (cpuStep_logsNoEdge h2)
  have hppu : s2.LogsNoEdge s4 := (s2.observe_logsNoEdge .ppu).trans (ppuStep_logsNoEdge h4)
  have hbeam : s4.LogsNoEdge s6 := (beamStep_logsNoEdge h5).trans (beamStep_logsNoEdge h6)
  exact ⟨(hcpu.trans hppu).trans hbeam,
    by rw [beamStep_frame h6, beamStep_frame h5, executors_eq h2 h4]⟩

/-- The stack guards that end a tick log no edge's event and leave the sections alone. -/
theorem State.guards_after_edgeCheck (s : State) :
    s.LogsNoEdge ((s.spCheck .cpu).spCheck .ppu) ∧
      ((s.spCheck .cpu).spCheck .ppu).sect = s.sect ∧
      ((s.spCheck .cpu).spCheck .ppu).prevSection = s.prevSection :=
  ⟨(s.spCheck_logsNoEdge .cpu).trans (State.spCheck_logsNoEdge _ .ppu),
    by rw [State.spCheck_eq, State.spCheck_eq], by rw [State.spCheck_eq, State.spCheck_eq]⟩

/-- Settles O32: of a tick's events only those of its edge check can be a section change, and the edge check compares the section after the beam-steps with the one before the tick. -/
theorem tickReportsItsSectionChange : Obligations.TickReportsItsSectionChange := by
  intro s t _ _ hknown h
  obtain ⟨-, s2, s4, s5, s6, s7, h2, h4, h5, h6, h7, rfl⟩ := execTick_cases h
  obtain ⟨⟨pre, hpre, hpreNone⟩, hprev⟩ := tick_before_edgeCheck h2 h4 h5 h6
  obtain ⟨hsect7, hprev7, hlog⟩ := edgeCheck_log h7
  obtain ⟨⟨post, hpost, hpostNone⟩, hsect, hprevSection⟩ := s7.guards_after_edgeCheck
  refine ⟨by rw [hprevSection, hsect, hprev7, hsect7], ?_⟩
  rw [hpost, hlog, hpre, List.append_assoc, List.append_assoc, List.drop_left, List.filter_append,
    List.filter_append, filter_isSectionChange_of_noEdge hpreNone,
    filter_isSectionChange_of_noEdge hpostNone, State.filter_isSectionChange_edgeLog, hprev, hknown,
    hsect, hsect7, List.nil_append, List.append_nil]

end Sys2Proof.Machine
end

section
/-! The bus operations: O12 to O17. Each as one equation of `exec` by what its address resolves to, and what a program-origin write leaves (`42_bus_access.md` R201 to R207). -/

namespace Sys2Proof.Machine

/-! ### Each operation as an equation -/

theorem exec_prdE (a : Addr) (s : State) :
    exec (.prdE a) s = .next (s.respond (s.byteAt (resolvePpu s.cfg a))) := rfl

theorem exec_pwrP (a : Addr) (d : Byte) (s : State) :
    exec (.pwrP a d) s = .next (s.progWrite .ppu a (resolvePpu s.cfg a) d) := rfl

theorem exec_pwrE (a : Addr) (d : Byte) (s : State) :
    exec (.pwrE a d) s = .next (s.setByte (resolvePpu s.cfg a) d) := rfl

/-- A read of an UNMAPPED address draws a free value (log 7). -/
theorem exec_crd_unmapped {a : Addr} {s : State} (h : resolveCpu s.cfg a = none) :
    exec (.crd a) s =
      .next { s with rsp := .data (Config.unmappedByte s.freeCount a), freeCount := s.freeCount + 1 } := by
  have hread : s.cpuRead a =
      (Config.unmappedByte s.freeCount a, { s with freeCount := s.freeCount + 1 }) := by
    simp only [State.cpuRead, h]
  simp only [exec, execCrd, State.cpuReadOp, hread, State.respond]

theorem exec_cwr_mapped {a : Addr} {s : State} {l : Loc} (d : Byte)
    (h : resolveCpu s.cfg a = some l) : exec (.cwr a d) s = .next (s.progWrite .cpu a l d) := by
  simp only [exec, execCwr, State.cpuWrite, h]

theorem exec_cwr_unmapped {a : Addr} {s : State} (d : Byte) (h : resolveCpu s.cfg a = none) :
    exec (.cwr a d) s = .next (s.diag .writeToUnmappedRegion (.write .cpu a d)) := by
  simp only [exec, execCwr, State.cpuWrite, h]

/-! ### Reads -/

/-- Settles O12: both operations are the read of the byte the PPU decoder selects. -/
theorem ppuReadsAnswerByte : Obligations.PpuReadsAnswerByte :=
  fun a s => ⟨exec_prdP a s, exec_prdE a s⟩

/-- Settles O15: an equation for an address that resolves and one for an UNMAPPED address. -/
theorem cpuReadResult : Obligations.CpuReadResult :=
  fun _ _ => ⟨fun _ hl => exec_crd_mapped hl, fun hnone => ⟨_, exec_crd_unmapped hnone⟩⟩

/-! ### Writes -/

@[simp] theorem State.progWrite_cfg (s : State) (p : Proc) (a : Addr) (l : Loc) (d : Byte) :
    (s.progWrite p a l d).cfg = s.cfg := by
  rw [State.progWrite_state]

@[simp] theorem State.byteAt_diag (s : State) (k : Anomaly) (i : DiagInfo) (l : Loc) :
    (s.diag k i).byteAt l = s.byteAt l := State.byteAt_congr rfl rfl rfl l

/-- The byte a program-origin write leaves where it writes: ROM takes it only when ROM_WRITE_STORES is true. -/
theorem State.byteAt_progWrite_self (s : State) (p : Proc) (a : Addr) (l : Loc) (d : Byte) :
    (s.progWrite p a l d).byteAt l =
      if l.store.memClass s.cfg = .ram ∨ s.cfg.romWriteStores = true then d else s.byteAt l := by
  cases hc : l.store.memClass s.cfg with
  | ram => rw [State.progWrite_ram hc, State.byteAt_setByte_self, if_pos (.inl rfl)]
  | rom =>
    rw [State.progWrite_rom hc]
    cases s.cfg.romWriteStores <;> simp

/-- A program-origin write by class of the byte it resolves to, for either processor (`42_bus_access.md` R203, R206). -/
theorem State.progWrite_by_class (s : State) (p : Proc) (a : Addr) {l : Loc} (d : Byte)
    (hl : l.off < 65536) :
    let t := s.progWrite p a l d
    t = { s with mem := t.mem, out := t.out } ∧
      (l.store.memClass s.cfg = .ram → t.byteAt l = d ∧ t.out = s.out) ∧
      (l.store.memClass s.cfg = .rom →
        t.byteAt l = (if s.cfg.romWriteStores then d else s.byteAt l) ∧
        t.out = s.out ++ [.diag .writeToRom (.write p a d)]) ∧
      ∀ l' : Loc, l'.off < 65536 → l' ≠ l → t.byteAt l' = s.byteAt l' := by
  refine ⟨s.progWrite_state p a l d, fun hram => ?_, fun hrom => ?_,
    fun l' hl' hne => s.byteAt_progWrite_other p a d hl hl' hne⟩
  · simp [State.progWrite_ram hram]
  · rw [State.byteAt_progWrite_self, State.progWrite_out]
    simp [hrom]

/-- Settles O13: PWR.P is a program-origin write to the byte the PPU decoder selects. -/
theorem ppuProgramWriteResult : Obligations.PpuProgramWriteResult :=
  fun a d s => ⟨_, exec_pwrP a d s, s.progWrite_by_class .ppu a d (resolvePpu_off_lt s.cfg a)⟩

/-- Settles O14: PWR.E is the write of a byte, whatever the class. -/
theorem ppuEmulatorWriteResult : Obligations.PpuEmulatorWriteResult :=
  fun a d s => ⟨_, exec_pwrE a d s, rfl, s.byteAt_setByte_self _ d,
    fun _ hl' hne => s.byteAt_setByte_other d (resolvePpu_off_lt s.cfg a) hl' hne⟩

/-- Settles O16: CWR is a program-origin write where its address resolves, and the anomaly alone where it is UNMAPPED. -/
theorem cpuWriteResult : Obligations.CpuWriteResult :=
  fun a d s =>
    ⟨fun _ hl => ⟨_, exec_cwr_mapped d hl, s.progWrite_by_class .cpu a d (resolveCpu_off_lt hl)⟩,
      fun hnone => exec_cwr_unmapped d hnone⟩

/-! ### A write and then a read -/

/-- Settles O17: the write leaves the configuration, so the read resolves to the byte written. -/
theorem writeThenReadRoundTrip : Obligations.WriteThenReadRoundTrip := by
  intro a v s
  refine ⟨⟨_, _, exec_pwrE a v s, exec_prdE a _, ?_⟩, ⟨_, _, exec_pwrP a v s, exec_prdP a _, ?_⟩,
    fun l hl => ⟨_, _, exec_cwr_mapped v hl, exec_crd_mapped (l := l) ?_, ?_⟩⟩
  · rw [State.respond_rsp, State.setByte_cfg, State.byteAt_setByte_self]
  · rw [State.respond_rsp, State.progWrite_cfg, State.byteAt_progWrite_self]
  · rw [State.progWrite_cfg, hl]
  · rw [State.respond_rsp, State.byteAt_progWrite_self]

end Sys2Proof.Machine
end

section
/-! LOADROM: O19. The whole next state of a copy into a store (`42_bus_access.md` R210), and the bytes it leaves. -/

namespace Sys2Proof.Machine

theorem exec_loadrom {r : BitVec 3} {s : State} {st : Store} (n : BitVec 16)
    (h : regionStore s.cfg r = some st) :
    exec (.loadrom r n) s = .next (s.loadRom r st (min n.toNat (st.length s.cfg))) := by
  simp only [exec, execLoadrom, h]

/-! ### The next state -/

/-- Region 0 is the code ROM of the PPU and region 2 that of the main CPU; no other region has a length register. -/
theorem State.setRomLen_eq (s : State) (r : BitVec 3) (m : Nat) :
    s.setRomLen r m =
      { s with
        cpu := { s.cpu with codeRomLen := if r = 2 then BitVec.ofNat 17 m else s.cpu.codeRomLen }
        ppu := { s.ppu with codeRomLen := if r = 0 then BitVec.ofNat 17 m else s.ppu.codeRomLen } } := by
  unfold State.setRomLen regionProc
  by_cases h0 : r = 0
  · subst h0
    rfl
  · by_cases h2 : r = 2
    · subst h2
      rfl
    · simp only [if_neg h0, if_neg h2]

/-- LOADROM changes memory, the stream, the two length registers, and the count of free values when the image is too short (log 8). -/
theorem State.loadRom_eq (s : State) (r : BitVec 3) (st : Store) (m : Nat) :
    s.loadRom r st m =
      { s with
        mem := (s.storeBytes st 0 (s.imageBytes m)).mem
        out := s.out ++ [.loadReport r m]
        cpu := { s.cpu with codeRomLen := if r = 2 then BitVec.ofNat 17 m else s.cpu.codeRomLen }
        ppu := { s.ppu with codeRomLen := if r = 0 then BitVec.ofNat 17 m else s.ppu.codeRomLen }
        freeCount := if s.env.img.length < m then s.freeCount + 1 else s.freeCount } := by
  simp only [State.loadRom]
  rw [State.setRomLen_eq, State.storeBytes_eq]
  split <;> rfl

/-! ### The bytes -/

@[simp] theorem State.imageBytes_length (s : State) (m : Nat) : (s.imageBytes m).length = m := by
  simp [State.imageBytes]

/-- Where the environment supplied a byte of the image, that byte is stored. -/
theorem State.imageBytes_getD {s : State} {m j : Nat} {b : Byte} (hj : j < m)
    (hb : s.env.img[j]? = some b) : (s.imageBytes m).getD j 0 = b := by
  simp [State.imageBytes, List.getD, hj, hb]

/-- Below `m` a byte of the store loaded is the image's; every other byte stays. -/
theorem State.byteAt_loadRom (s : State) (r : BitVec 3) {st : Store} {m : Nat} (hm : m ≤ 65536)
    {l : Loc} (hl : l.off < 65536) :
    (s.loadRom r st m).byteAt l =
      if l.store = st ∧ l.off < m then (s.imageBytes m).getD l.off 0 else s.byteAt l := by
  have hcopy := s.byteAt_storeBytes st 0 (s.imageBytes m) l hl (by simpa using hm)
  rw [State.storeBytes_eq, State.imageBytes_length, Nat.zero_add, Nat.sub_zero] at hcopy
  simp only [Nat.zero_le, true_and] at hcopy
  rw [State.loadRom_eq]
  exact hcopy

/-- Settles O19: the count is at least `m`, so an image as long as the count is no short one. -/
theorem loadromResult : Obligations.LoadromResult := by
  intro r n s st hv hst m
  have hm : m ≤ 65536 := (Nat.min_le_right ..).trans (Store.length_le hv st)
  have heq := s.loadRom_eq r st m
  refine ⟨s.loadRom r st m, exec_loadrom n hst, ?_, s.loadRom_out r st m, ?_, ?_,
    fun hfull => ⟨?_, fun j b hj hb => ?_⟩, fun l hl hout => ?_⟩
  · rw [heq]
  · rw [heq]
  · rw [heq]
  · have hlong : ¬s.env.img.length < m := ((Nat.min_le_left ..).trans hfull).not_gt
    rw [heq]
    exact if_neg hlong
  · rw [s.byteAt_loadRom r hm (hj.trans_le hm), if_pos ⟨rfl, hj⟩]
    exact State.imageBytes_getD hj hb
  · rw [s.byteAt_loadRom r hm hl, if_neg hout]

end Sys2Proof.Machine
end

section
/-! The effective sprite index: O33. Eight-bit addition of an offset of two bits (`43_render_pipeline.md` R234). -/

namespace Sys2Proof.Machine

theorem effectiveTile_toNat (info : SlotInfo) :
    (effectiveTile info).toNat = (info.spr.toNat + (spriteOffset info.packed).toNat) % 256 :=
  BitVec.toNat_add ..

theorem spriteOffset_le (k : Byte) : (spriteOffset k).toNat ≤ 3 := by
  have hk := k.isLt
  rw [spriteOffset_toNat]
  omega

/-- Settles O33: the sum of the two bytes, and the spec's example of it. -/
theorem effectiveSpriteIndexWraps : Obligations.EffectiveSpriteIndexWraps := by
  refine ⟨fun info => ⟨spriteOffset_le info.packed, effectiveTile_toNat info⟩, fun info hspr hoff => ?_⟩
  apply BitVec.eq_of_toNat_eq
  rw [effectiveTile_toNat, hspr, hoff]
  rfl

end Sys2Proof.Machine
end

section
/-! A framebuffer pixel in memory, for O36, O38 and O39: what a write of a pixel, of a tile, of a table byte leaves of it (`20_memory.md` R74, R75). -/

namespace Sys2Proof.Machine

variable {c : Config} {ep : Nat} {x y : Nat}

/-! ### Reading a pixel -/

/-- `FBGET(x, y)` of a memory (`20_memory.md` R74). -/
def fbRead (c : Config) (ep : Nat) (m : List Host.Cell) (x y : Nat) : Byte :=
  match c.ppb with
  | .onePerByte => byteOf c ep m (pixelLoc c x y)
  | .twoPerByte => nibble (pixIdx c x y) (byteOf c ep m (pixelLoc c x y))

theorem State.fbGet_eq_fbRead (s : State) (x y : Nat) :
    s.fbGet x y = fbRead s.cfg s.ramEpoch s.mem x y := rfl

/-- A pixel is the same in two memories that agree on its byte. -/
theorem fbRead_congr {m m' : List Host.Cell}
    (h : byteOf c ep m' (pixelLoc c x y) = byteOf c ep m (pixelLoc c x y)) :
    fbRead c ep m' x y = fbRead c ep m x y := by
  simp only [fbRead, h]

/-- What of a byte a pixel holds: with two pixels in a byte, the low nibble (`20_memory.md` R74). -/
def pixelValue (c : Config) (v : Byte) : Byte :=
  match c.ppb with
  | .onePerByte => v
  | .twoPerByte => (v.extractLsb' 0 4).zeroExtend 8

/-- The nibble written is the nibble read. -/
theorem nibble_withNibble_self (i : Nat) (b v : Byte) :
    nibble i (withNibble i b v) = (v.extractLsb' 0 4).zeroExtend 8 := by
  rcases Nat.mod_two_eq_zero_or_one i with h | h
  · rw [withNibble_even h, nibble_even h, BitVec.extractLsb'_append_eq_left]
  · rw [withNibble_odd h, nibble_odd h, BitVec.extractLsb'_append_eq_right]

/-- The other nibble of the byte stays. -/
theorem nibble_withNibble_other {i j : Nat} (h : i % 2 ≠ j % 2) (b v : Byte) :
    nibble i (withNibble j b v) = nibble i b := by
  rcases Nat.mod_two_eq_zero_or_one i with hi | hi
  · rw [withNibble_odd (by omega), nibble_even hi, nibble_even hi, BitVec.extractLsb'_append_eq_left]
  · rw [withNibble_even (by omega), nibble_odd hi, nibble_odd hi, BitVec.extractLsb'_append_eq_right]

/-! ### Writing a pixel -/

theorem fbRead_fbSet_self (v : Byte) (m : List Host.Cell) :
    fbRead c ep (fbSet c ep x y v m) x y = pixelValue c v := by
  unfold fbRead pixelValue
  cases hp : c.ppb with
  | onePerByte => exact byteOf_fbSet_onePerByte hp ep v m
  | twoPerByte =>
    simp only
    rw [byteOf_fbSet_twoPerByte hp, nibble_withNibble_self]

/-- Another pixel is another byte, or the other nibble of the byte. -/
theorem fbRead_fbSet_other (hv : c.valid = true) {x' y' : Nat} (hin : inFramebuffer c x y)
    (hin' : inFramebuffer c x' y') (hne : ¬(x' = x ∧ y' = y)) (v : Byte) (m : List Host.Cell) :
    fbRead c ep (fbSet c ep x y v m) x' y' = fbRead c ep m x' y' := by
  by_cases hloc : pixelLoc c x' y' = pixelLoc c x y
  · have hidx : pixIdx c x' y' ≠ pixIdx c x y := mt (pixIdx_injective hin hin') hne
    have hoff : pixIdx c x' y' / c.ppb.count = pixIdx c x y / c.ppb.count := congrArg Loc.off hloc
    cases hp : c.ppb with
    | onePerByte =>
      simp only [hp, PixelPacking.count, Nat.div_one] at hoff
      exact absurd hoff hidx
    | twoPerByte =>
      simp only [hp, PixelPacking.count] at hoff
      simp only [fbRead, hp, hloc, byteOf_fbSet_twoPerByte hp]
      exact nibble_withNibble_other (by omega) _ _
  · exact fbRead_congr (byteOf_fbSet_other hv hin v m (pixelLoc_off_lt hv hin') hloc)

/-! ### Drawing a tile -/

/-- A pixel of a tile lies in the definition ROM (`20_memory.md` R72). -/
theorem tileLoc_off_lt (hv : c.valid = true) (e : Byte) {r col : Nat} (hr : r < 8) (hcol : col < 8) :
    (tileLoc c e.toNat r col).off < 65536 := by
  have he := e.isLt
  have hlen := Store.length_le hv .defRom
  obtain ⟨-, -, -, ht, -, -⟩ := (Config.valid_iff c).1 hv
  simp only [Config.tablesValid, Bool.and_eq_true, decide_eq_true_eq] at ht
  have hdef := ht.2
  simp only [Store.length] at hlen
  simp only [tileLoc]
  cases hp : c.ppb <;> simp only [hp, PixelPacking.count] at hdef ⊢ <;> omega

/-- A tile's pixel is the same in two memories that agree on its byte. -/
theorem tilePix_congr {ep' : Nat} {m m' : List Host.Cell} {e : Byte} {r col : Nat}
    (h : byteOf c ep' m' (tileLoc c e.toNat r col) = byteOf c ep m (tileLoc c e.toNat r col)) :
    tilePix c ep' m' e r col = tilePix c ep m e r col := by
  simp only [tilePix, h]

/-- With two pixels in a byte a tile's pixel is a nibble, so writing it to the framebuffer loses nothing. -/
theorem pixelValue_tilePix (m : List Host.Cell) (e : Byte) (r col : Nat) :
    pixelValue c (tilePix c ep m e r col) = tilePix c ep m e r col := by
  unfold pixelValue tilePix nibble
  cases c.ppb with
  | onePerByte => rfl
  | twoPerByte =>
    simp only
    split <;> rw [extractLsb'_zeroExtend (by decide)]

/-- Drawing a pixel does not change the tiles. -/
theorem tilePix_drawPixel (hv : c.valid = true) (e e' : Byte) (x0 y0 : Nat) (m : List Host.Cell)
    (rc : Nat × Nat) {r col : Nat} (hr : r < 8) (hcol : col < 8) :
    tilePix c ep (drawPixel c ep e x0 y0 m rc) e' r col = tilePix c ep m e' r col :=
  tilePix_congr (byteOf_drawPixel_other hv e x0 y0 m rc (tileLoc_off_lt hv e' hr hcol)
    fun _ => by simp [tileLoc, pixelLoc])

/-- A drawn pixel at its place, and every other pixel. -/
theorem fbRead_drawPixel (hv : c.valid = true) (hin : inFramebuffer c x y) (e : Byte) (x0 y0 : Nat)
    (m : List Host.Cell) (rc : Nat × Nat) :
    fbRead c ep (drawPixel c ep e x0 y0 m rc) x y =
      if x = x0 + rc.2 ∧ y = y0 + rc.1 then tilePix c ep m e rc.1 rc.2 else fbRead c ep m x y := by
  unfold drawPixel
  split
  · rename_i hrc
    by_cases hxy : x = x0 + rc.2 ∧ y = y0 + rc.1
    · obtain ⟨rfl, rfl⟩ := hxy
      rw [fbRead_fbSet_self, pixelValue_tilePix, if_pos ⟨rfl, rfl⟩]
    · rw [fbRead_fbSet_other hv hrc hin hxy, if_neg hxy]
  · rename_i hrc
    rw [if_neg fun ⟨hx, hy⟩ => hrc ⟨hx ▸ hin.1, hy ▸ hin.2⟩]

/-- Pixels drawn one after another: one that is among them shows the tile, whatever the order. -/
theorem fbRead_drawPixels (hv : c.valid = true) (e : Byte) {x0 y0 r col : Nat}
    (hin : inFramebuffer c (x0 + col) (y0 + r)) (hr : r < 8) (hcol : col < 8)
    (rcs : List (Nat × Nat)) (m : List Host.Cell) :
    fbRead c ep (rcs.foldl (drawPixel c ep e x0 y0) m) (x0 + col) (y0 + r) =
      if (r, col) ∈ rcs then tilePix c ep m e r col else fbRead c ep m (x0 + col) (y0 + r) := by
  induction rcs generalizing m with
  | nil => rfl
  | cons rc rcs ih =>
    rw [List.foldl_cons, ih, tilePix_drawPixel hv e e x0 y0 m rc hr hcol,
      fbRead_drawPixel hv hin e x0 y0 m rc]
    by_cases hmem : (r, col) ∈ rcs
    · rw [if_pos hmem, if_pos (List.mem_cons_of_mem _ hmem)]
    · obtain ⟨r', col'⟩ := rc
      rw [if_neg hmem]
      by_cases hrc : r = r' ∧ col = col'
      · obtain ⟨rfl, rfl⟩ := hrc
        rw [if_pos ⟨rfl, rfl⟩, if_pos (List.mem_cons_self ..)]
      · rw [if_neg (by simp only; omega), if_neg]
        simp only [List.mem_cons, Prod.mk.injEq, not_or]
        exact ⟨hrc, hmem⟩

/-- (x, y) is one of the 8 by 8 pixels with the top-left pixel (x0, y0). -/
def inTile (x0 y0 x y : Nat) : Prop := x0 ≤ x ∧ x < x0 + 8 ∧ y0 ≤ y ∧ y < y0 + 8

theorem inTile_add {x0 y0 r col : Nat} (hr : r < 8) (hcol : col < 8) :
    inTile x0 y0 (x0 + col) (y0 + r) := ⟨by omega, by omega, by omega, by omega⟩

theorem exists_of_inTile {x0 y0 : Nat} (h : inTile x0 y0 x y) :
    ∃ r col, r < 8 ∧ col < 8 ∧ x = x0 + col ∧ y = y0 + r := by
  obtain ⟨hx, hx', hy, hy'⟩ := h
  exact ⟨y - y0, x - x0, by omega, by omega, by omega, by omega⟩

/-- Under a drawn tile the framebuffer shows it. -/
theorem fbRead_drawTile_inside (hv : c.valid = true) (e : Byte) {x0 y0 r col : Nat}
    (hin : inFramebuffer c (x0 + col) (y0 + r)) (hr : r < 8) (hcol : col < 8) (m : List Host.Cell) :
    fbRead c ep (drawTile c ep e x0 y0 m) (x0 + col) (y0 + r) = tilePix c ep m e r col :=
  (fbRead_drawPixels hv e hin hr hcol tileCoords m).trans (if_pos (mem_tileCoords.2 ⟨hr, hcol⟩))

/-- Beside a drawn tile the framebuffer stays. -/
theorem fbRead_drawTile_outside (hv : c.valid = true) (hin : inFramebuffer c x y) (e : Byte)
    {x0 y0 : Nat} (hout : ¬inTile x0 y0 x y) (m : List Host.Cell) :
    fbRead c ep (drawTile c ep e x0 y0 m) x y = fbRead c ep m x y := by
  refine List.foldlRecOn tileCoords (motive := fun m' => fbRead c ep m' x y = fbRead c ep m x y)
    _ rfl fun m' hm' rc hrc => ?_
  obtain ⟨hr, hcol⟩ := mem_tileCoords.1 hrc
  rw [fbRead_drawPixel hv hin, if_neg, hm']
  rintro ⟨rfl, rfl⟩
  exact hout (inTile_add hr hcol)

end Sys2Proof.Machine
end

section
/-! A render pass as its slots one after another, and where it completes: O34 and O35. What a pass reads of a slot no slot before it changes, so a pass is a fold whose tiles and AnimationDefs are those of the state before it. -/

namespace Sys2Proof.Machine

variable {c : Config} {ep : Nat}

/-! ### Where a pass completes -/

theorem slotFits_renderSlot (hv : c.valid = true) {i k : Nat} (hi : i < c.slots) (hk : k < c.slots)
    (hne : k ≠ i) (m : List Host.Cell) :
    slotFits c ep (renderSlot c ep m i) k = slotFits c ep m k := by
  simp only [slotFits, slotInfo_renderSlot hv hi hk hne]

/-- A tile fits when its bottom-right pixel is one of the framebuffer. -/
theorem slotFits_iff_corner (m : List Host.Cell) (i : Nat) :
    slotFits c ep m i = true ↔
      slotX c i (slotInfo c ep m i) + 7 < 8 * c.fbTx ∧ slotY c i (slotInfo c ep m i) + 7 < 8 * c.fbTy := by
  rw [slotFits, Bool.and_eq_true, decide_eq_true_eq, decide_eq_true_eq]

/-- A field of three bits is at most 7. -/
theorem offsets_le (k : Byte) : xOffset k ≤ 7 ∧ yOffset k ≤ 7 := by
  rw [xOffset_eq_mod, yOffset_eq_div_mod]
  omega

/-- In a roomy framebuffer every tile fits, whatever the tables hold (`43_render_pipeline.md` R237). -/
theorem slotFits_of_roomy (hroomy : roomy c = true) {i : Nat} (hi : i < c.slots)
    (m : List Host.Cell) : slotFits c ep m i = true := by
  obtain ⟨hx, hy⟩ := offsets_le (slotInfo c ep m i).packed
  have hrow : i / c.gridW < c.gridH := Nat.div_lt_of_lt_mul hi
  have hcol : i % c.gridW < c.gridW := Nat.mod_lt _ (Nat.pos_of_mul_pos_right (Nat.zero_lt_of_lt hi))
  simp only [roomy, Bool.and_eq_true, decide_eq_true_eq] at hroomy
  simp only [slotFits_iff_corner, slotX, slotY]
  omega

/-- Slots complete exactly when CLIP is true or every tile, as the tables before the pass place it, fits. -/
theorem renderSlots_isSome_iff (hv : c.valid = true) {is : List Nat} (his : ∀ i ∈ is, i < c.slots)
    (hnodup : is.Nodup) (m : List Host.Cell) :
    (∃ m', renderSlots c ep is m = some m') ↔
      c.clip = true ∨ ∀ i ∈ is, slotFits c ep m i = true := by
  induction is generalizing m with
  | nil => simp [renderSlots]
  | cons i is ih =>
    obtain ⟨hnot, hnodup⟩ := List.nodup_cons.1 hnodup
    obtain ⟨hi, his⟩ := List.forall_mem_cons.1 his
    have hrest : (∀ k ∈ is, slotFits c ep (renderSlot c ep m i) k = true) ↔
        ∀ k ∈ is, slotFits c ep m k = true := forall₂_congr fun k hk => by
      rw [slotFits_renderSlot hv hi (his k hk) (fun h => hnot (h ▸ hk)) m]
    have hfirst : (roomy c || slotFits c ep m i) = slotFits c ep m i := by
      rw [Bool.or_eq_right_iff_imp]
      exact fun hroomy => slotFits_of_roomy hroomy hi m
    unfold renderSlots
    rw [hfirst, List.forall_mem_cons]
    split
    · rename_i hgo
      rw [ih his hnodup, hrest]
      rcases (Bool.or_eq_true ..).mp hgo with h | h <;> simp only [h, true_or, true_and]
    · rename_i hstop
      rw [Bool.or_eq_true, not_or] at hstop
      simp [hstop]

/-! ### A pass as a fold -/

/-- Steps 2 to 4 for slot `i`, with what step 1 read of each slot given. -/
def paintSlot (c : Config) (ep : Nat) (info : Nat → SlotInfo) (m : List Host.Cell) (i : Nat) :
    List Host.Cell :=
  drawTile c ep (effectiveTile (info i)) (slotX c i (info i)) (slotY c i (info i))
    (advanceAnim c ep i (info i) m)

/-- The first `n` slots, with what step 1 read of each slot given. -/
def paintSlots (c : Config) (ep : Nat) (info : Nat → SlotInfo) (m : List Host.Cell) (n : Nat) :
    List Host.Cell :=
  (List.range n).foldl (paintSlot c ep info) m

theorem paintSlots_succ (info : Nat → SlotInfo) (m : List Host.Cell) (n : Nat) :
    paintSlots c ep info m (n + 1) = paintSlot c ep info (paintSlots c ep info m n) n := by
  rw [paintSlots, List.range_succ, List.foldl_append]
  rfl

theorem renderSlot_eq_paintSlot {info : Nat → SlotInfo} {m : List Host.Cell} {i : Nat}
    (h : slotInfo c ep m i = info i) : renderSlot c ep m i = paintSlot c ep info m i := by
  rw [paintSlot, ← h]
  rfl

/-- Slots that complete are painted with what step 1 reads in the memory before them. -/
theorem renderSlots_eq_foldl (hv : c.valid = true) {info : Nat → SlotInfo} {is : List Nat}
    (his : ∀ i ∈ is, i < c.slots) (hnodup : is.Nodup) {m m' : List Host.Cell}
    (hinfo : ∀ i ∈ is, slotInfo c ep m i = info i) (h : renderSlots c ep is m = some m') :
    m' = is.foldl (paintSlot c ep info) m := by
  induction is generalizing m with
  | nil => exact (Option.some.inj h).symm
  | cons i is ih =>
    obtain ⟨hnot, hnodup⟩ := List.nodup_cons.1 hnodup
    obtain ⟨hi, his⟩ := List.forall_mem_cons.1 his
    obtain ⟨hinfo_i, hinfo⟩ := List.forall_mem_cons.1 hinfo
    unfold renderSlots at h
    split at h
    · rw [List.foldl_cons, ← renderSlot_eq_paintSlot hinfo_i]
      refine ih his hnodup (fun k hk => ?_) h
      rw [slotInfo_renderSlot hv hi (his k hk) fun heq => hnot (heq ▸ hk), hinfo k hk]
    · cases h

/-- A RENDER that completes paints every slot and changes memory only. -/
theorem exec_render_next {s t : State} (hv : s.cfg.valid = true) (h : exec .render s = .next t) :
    t = { s with mem := paintSlots s.cfg s.ramEpoch s.slot s.mem s.cfg.slots } := by
  obtain ⟨m, hm, rfl⟩ := renderPass_cases h
  rw [renderSlots_eq_foldl hv (fun _ => List.mem_range.1) List.nodup_range (fun _ _ => rfl) hm]
  rfl

theorem exec_render_some {s : State} {m : List Host.Cell}
    (h : renderSlots s.cfg s.ramEpoch (List.range s.cfg.slots) s.mem = some m) :
    exec .render s = .next { s with mem := m } := by
  simp only [exec, execRender, renderPass, h]

theorem exec_render_none {s : State}
    (h : renderSlots s.cfg s.ramEpoch (List.range s.cfg.slots) s.mem = none) :
    exec .render s = .fault .renderOutOfBounds := by
  simp only [exec, execRender, renderPass, h]

/-- RENDER completes exactly when CLIP is true or every slot's tile fits. -/
theorem exec_render_next_iff {s : State} (hv : s.cfg.valid = true) :
    (∃ t, exec .render s = .next t) ↔
      s.cfg.clip = true ∨ ∀ i, i < s.cfg.slots → slotFits s.cfg s.ramEpoch s.mem i = true := by
  have hsome := renderSlots_isSome_iff (ep := s.ramEpoch) hv (is := List.range s.cfg.slots)
    (fun _ => List.mem_range.1) List.nodup_range s.mem
  simp only [List.mem_range] at hsome
  rw [← hsome]
  constructor
  · rintro ⟨t, ht⟩
    obtain ⟨m, hm, -⟩ := renderPass_cases ht
    exact ⟨m, hm⟩
  · rintro ⟨m, hm⟩
    exact ⟨_, exec_render_some hm⟩

/-! ### The pixels of a slot's tile -/

/-- A slot covers the 8 by 8 pixels from its top-left pixel on (`43_render_pipeline.md` R235). -/
theorem State.covers_iff (s : State) (i r col x y : Nat) :
    s.covers i r col x y ↔ r < 8 ∧ col < 8 ∧
      x = slotX s.cfg i (s.slot i) + col ∧ y = slotY s.cfg i (s.slot i) + r := Iff.rfl

/-- A slot's tile fits exactly when every pixel it covers is one of the framebuffer. -/
theorem State.slotFits_iff_covers (s : State) (i : Nat) :
    slotFits s.cfg s.ramEpoch s.mem i = true ↔
      ∀ r col x y, s.covers i r col x y → inFramebuffer s.cfg x y := by
  rw [slotFits_iff_corner]
  constructor
  · rintro ⟨hx, hy⟩ r col x y ⟨hr, hcol, rfl, rfl⟩
    exact ⟨lt_of_le_of_lt (Nat.add_le_add_left (Nat.le_of_lt_succ hcol) _) hx,
      lt_of_le_of_lt (Nat.add_le_add_left (Nat.le_of_lt_succ hr) _) hy⟩
  · exact fun h => h 7 7 _ _ ⟨by decide, by decide, rfl, rfl⟩

/-- Settles O35: the tile does not fit and is not clipped, so the pass has no next state. -/
theorem renderOutOfBoundsFaults : Obligations.RenderOutOfBoundsFaults := by
  intro s i r col x y hv hclip hi hcov hout
  cases hr : renderSlots s.cfg s.ramEpoch (List.range s.cfg.slots) s.mem with
  | none => exact exec_render_none hr
  | some m =>
    rcases (exec_render_next_iff hv).1 ⟨_, exec_render_some hr⟩ with hclip' | hfits
    · rw [hclip] at hclip'
      cases hclip'
    · exact absurd ((s.slotFits_iff_covers i).1 (hfits i hi) r col x y hcov) hout

/-! ### What a pass leaves alone -/

/-- A painted slot stores to its `animIndex` byte, in the gated profile to the frame counter of its definition, and to framebuffer bytes under its tile. -/
theorem byteOf_paintSlot_other (hv : c.valid = true) {info : Nat → SlotInfo} {i : Nat}
    (hi : i < c.slots) (m : List Host.Cell) {l : Loc} (hl : l.off < 65536)
    (hentry : l ≠ animIndexLoc c i)
    (hcounter : c.animGated = true → l ≠ animDefLoc c (info i).anim.toNat 3)
    (hpixel : ∀ r col, r < 8 → col < 8 →
      inFramebuffer c (slotX c i (info i) + col) (slotY c i (info i) + r) →
      l ≠ pixelLoc c (slotX c i (info i) + col) (slotY c i (info i) + r)) :
    byteOf c ep (paintSlot c ep info m i) l = byteOf c ep m l := by
  rw [paintSlot, byteOf_drawTile_other hv _ _ _ _ hl hpixel,
    byteOf_advanceAnim_other hv hi _ _ hl hentry hcounter]

/-- Bytes that no painted slot stores to stay. -/
theorem byteOf_paintSlots_other {info : Nat → SlotInfo} {m : List Host.Cell} {n : Nat} {l : Loc}
    (h : ∀ i, i < n → ∀ m', byteOf c ep (paintSlot c ep info m' i) l = byteOf c ep m' l) :
    byteOf c ep (paintSlots c ep info m n) l = byteOf c ep m l := by
  induction n with
  | zero => rfl
  | succ n ih =>
    rw [paintSlots_succ, h n (Nat.lt_succ_self n), ih fun i hi => h i (Nat.lt_succ_of_lt hi)]

/-- A RENDER that completes leaves every byte alone that is not one of its status bytes (`43_render_pipeline.md` R230). -/
theorem byteAt_render_other {s t : State} (hv : s.cfg.valid = true) (h : exec .render s = .next t)
    {l : Loc} (hl : l.off < 65536) (hnot : ¬s.renderStores l) : t.byteAt l = s.byteAt l := by
  rw [exec_render_next hv h]
  refine byteOf_paintSlots_other fun i hi m' => byteOf_paintSlot_other hv hi m' hl ?_ ?_ ?_
  · exact fun heq => hnot ⟨i, hi, .inl heq⟩
  · exact fun hg heq => hnot ⟨i, hi, .inr (.inl ⟨hg, heq⟩)⟩
  · exact fun r col hr hcol hin heq =>
      hnot ⟨i, hi, .inr (.inr ⟨r, col, _, _, (s.covers_iff ..).2 ⟨hr, hcol, rfl, rfl⟩, hin, heq⟩)⟩

/-- Settles O34: every tile fits or is clipped, and a byte no slot stores to stays. -/
theorem renderCompletesWithFrame : Obligations.RenderCompletesWithFrame := by
  intro s hv hsafe
  have hfits : s.cfg.clip = true ∨ ∀ i, i < s.cfg.slots → slotFits s.cfg s.ramEpoch s.mem i = true := by
    rcases hsafe with hclip | hroomy | hin
    · exact .inl hclip
    · exact .inr fun i hi => slotFits_of_roomy hroomy hi s.mem
    · exact .inr fun i hi => (s.slotFits_iff_covers i).2 fun r col x y hcov => hin i r col x y hi hcov
  obtain ⟨t, ht⟩ := (exec_render_next_iff hv).2 hfits
  refine ⟨t, ht, ?_, fun l hl hnot => byteAt_render_other hv ht hl hnot⟩
  rw [exec_render_next hv ht]

end Sys2Proof.Machine
end

section
/-! The framebuffer after a render pass: O36 and O39. A painted slot shows its tile and leaves every other pixel, so the last slot over a pixel decides it (`43_render_pipeline.md` R238). -/

namespace Sys2Proof.Machine

variable {c : Config} {ep : Nat} {info : Nat → SlotInfo}

/-! ### One slot -/

/-- (x, y) is under the tile of slot `i`, with what step 1 read of each slot given. -/
def underSlot (c : Config) (info : Nat → SlotInfo) (i x y : Nat) : Prop :=
  inTile (slotX c i (info i)) (slotY c i (info i)) x y

/-- A slot covers a pixel under its tile in one row and one column. -/
theorem State.exists_covers_iff (s : State) (i x y : Nat) :
    (∃ r col, s.covers i r col x y) ↔ underSlot s.cfg s.slot i x y := by
  constructor
  · rintro ⟨r, col, hr, hcol, rfl, rfl⟩
    exact inTile_add hr hcol
  · exact exists_of_inTile

/-- The animation advance writes table RAM only. -/
theorem byteOf_advanceAnim_otherStore (hv : c.valid = true) {i : Nat} (hi : i < c.slots)
    (x : SlotInfo) (m : List Host.Cell) {l : Loc} (hl : l.off < 65536) (hst : l.store ≠ .tableRam) :
    byteOf c ep (advanceAnim c ep i x m) l = byteOf c ep m l :=
  byteOf_advanceAnim_other hv hi x m hl (fun heq => hst (heq ▸ rfl)) fun _ heq => hst (heq ▸ rfl)

/-- Painting a slot does not change the tiles. -/
theorem tilePix_paintSlot (hv : c.valid = true) {i : Nat} (hi : i < c.slots) (m : List Host.Cell)
    (e : Byte) {r col : Nat} (hr : r < 8) (hcol : col < 8) :
    tilePix c ep (paintSlot c ep info m i) e r col = tilePix c ep m e r col := by
  have hl := tileLoc_off_lt hv e hr hcol
  exact tilePix_congr (byteOf_paintSlot_other hv hi m hl (by simp [tileLoc, animIndexLoc])
    (fun _ => by simp [tileLoc, animDefLoc]) fun _ _ _ _ _ => by simp [tileLoc, pixelLoc])

/-- Under its tile a painted slot shows the tile. -/
theorem fbRead_paintSlot_under (hv : c.valid = true) {i : Nat} (hi : i < c.slots)
    {r col x y : Nat} (hr : r < 8) (hcol : col < 8) (hx : x = slotX c i (info i) + col)
    (hy : y = slotY c i (info i) + r) (hin : inFramebuffer c x y) (m : List Host.Cell) :
    fbRead c ep (paintSlot c ep info m i) x y = tilePix c ep m (effectiveTile (info i)) r col := by
  subst hx hy
  rw [paintSlot, fbRead_drawTile_inside hv _ hin hr hcol]
  exact tilePix_congr (byteOf_advanceAnim_otherStore hv hi _ m (tileLoc_off_lt hv _ hr hcol)
    (by simp [tileLoc]))

/-- Beside its tile a painted slot leaves the framebuffer. -/
theorem fbRead_paintSlot_beside (hv : c.valid = true) {i : Nat} (hi : i < c.slots) {x y : Nat}
    (hin : inFramebuffer c x y) (hout : ¬underSlot c info i x y) (m : List Host.Cell) :
    fbRead c ep (paintSlot c ep info m i) x y = fbRead c ep m x y := by
  rw [paintSlot, fbRead_drawTile_outside hv hin _ hout]
  exact fbRead_congr (byteOf_advanceAnim_otherStore hv hi _ m (pixelLoc_off_lt hv hin)
    (by simp [pixelLoc]))

/-! ### The slots one after another -/

theorem tilePix_paintSlots (hv : c.valid = true) {n : Nat} (hn : n ≤ c.slots) (m : List Host.Cell)
    (e : Byte) {r col : Nat} (hr : r < 8) (hcol : col < 8) :
    tilePix c ep (paintSlots c ep info m n) e r col = tilePix c ep m e r col := by
  induction n with
  | zero => rfl
  | succ n ih => rw [paintSlots_succ, tilePix_paintSlot hv hn _ e hr hcol, ih (Nat.le_of_succ_le hn)]

/-- A pixel under no tile stays. -/
theorem fbRead_paintSlots_beside (hv : c.valid = true) {n x y : Nat} (hn : n ≤ c.slots)
    (hin : inFramebuffer c x y) (hout : ∀ i, i < n → ¬underSlot c info i x y) (m : List Host.Cell) :
    fbRead c ep (paintSlots c ep info m n) x y = fbRead c ep m x y := by
  induction n with
  | zero => rfl
  | succ n ih =>
    rw [paintSlots_succ, fbRead_paintSlot_beside hv hn hin (hout n (Nat.lt_succ_self n)),
      ih (Nat.le_of_succ_le hn) fun i hi => hout i (Nat.lt_succ_of_lt hi)]

/-- A pixel under some tile shows the tile of the last slot over it: the slots after that one leave it. -/
theorem fbRead_paintSlots_last (hv : c.valid = true) {n i : Nat} (hn : n ≤ c.slots) (hi : i < n)
    {r col x y : Nat} (hr : r < 8) (hcol : col < 8) (hx : x = slotX c i (info i) + col)
    (hy : y = slotY c i (info i) + r) (hin : inFramebuffer c x y)
    (hlast : ∀ j, i < j → j < n → ¬underSlot c info j x y) (m : List Host.Cell) :
    fbRead c ep (paintSlots c ep info m n) x y = tilePix c ep m (effectiveTile (info i)) r col := by
  induction n with
  | zero => exact absurd hi (Nat.not_lt_zero i)
  | succ n ih =>
    have hn' : n ≤ c.slots := Nat.le_of_succ_le hn
    rw [paintSlots_succ]
    rcases Nat.lt_succ_iff_lt_or_eq.1 hi with hlt | rfl
    · rw [fbRead_paintSlot_beside hv hn hin (hlast n hlt (Nat.lt_succ_self n))]
      exact ih hn' hlt fun j hj hjn => hlast j hj (Nat.lt_succ_of_lt hjn)
    · rw [fbRead_paintSlot_under hv hn hr hcol hx hy hin, tilePix_paintSlots hv hn' m _ hr hcol]

/-! ### The pass -/

/-- A pixel of the framebuffer after RENDER is one of the painted memory. -/
theorem fbGet_render {s t : State} (hv : s.cfg.valid = true) (h : exec .render s = .next t)
    (x y : Nat) :
    t.fbGet x y =
      fbRead s.cfg s.ramEpoch (paintSlots s.cfg s.ramEpoch s.slot s.mem s.cfg.slots) x y := by
  rw [exec_render_next hv h]
  rfl

theorem State.not_underSlot {s : State} {i x y : Nat} (h : ∀ r col, ¬s.covers i r col x y) :
    ¬underSlot s.cfg s.slot i x y := fun hunder => by
  obtain ⟨r, col, hcov⟩ := (s.exists_covers_iff i x y).2 hunder
  exact h r col hcov

/-- Settles O36: the slots paint in order, the last one over a pixel decides it, and a pixel under none stays. -/
theorem renderedFramebuffer : Obligations.RenderedFramebuffer := by
  intro s t hv h x y hin
  rw [fbGet_render hv h, s.fbGet_eq_fbRead]
  constructor
  · rintro i r col hi ⟨hr, hcol, hx, hy⟩ hlast
    exact fbRead_paintSlots_last hv (Nat.le_refl _) hi hr hcol hx hy hin
      (fun j hij hj => State.not_underSlot fun r' col' => hlast j r' col' hij hj) s.mem
  · exact fun hout => fbRead_paintSlots_beside hv (Nat.le_refl _) hin
      (fun i hi => State.not_underSlot fun r col => hout i r col hi) s.mem

/-! ### A single entry -/

/-- With one entry the tile stands at its offsets. -/
theorem fbGet_render_single {s t : State} (hv : s.cfg.valid = true) (hone : s.cfg.slots = 1)
    (h : exec .render s = .next t) {r col : Nat} (hr : r < 8) (hcol : col < 8)
    (hin : inFramebuffer s.cfg (xOffset (s.slot 0).packed + col) (yOffset (s.slot 0).packed + r)) :
    t.fbGet (xOffset (s.slot 0).packed + col) (yOffset (s.slot 0).packed + r) =
      tilePix s.cfg s.ramEpoch s.mem ((s.slot 0).spr + spriteOffset (s.slot 0).packed) r col := by
  have hcov : s.covers 0 r col (xOffset (s.slot 0).packed + col) (yOffset (s.slot 0).packed + r) :=
    ⟨hr, hcol, by simp, by simp⟩
  exact (renderedFramebuffer s t hv h _ _ hin).1 0 r col (by omega) hcov fun j _ _ hj hj' => by omega

/-- Settles O39: both passes draw the same tile, each at its own offset. -/
theorem renderOffsetShiftsTile : Obligations.RenderOffsetShiftsTile := by
  intro s s' t t' hv hone hcfg hrom hspr hso hyo hx0 hx2 ht ht' r col hr hcol hin
  have hleft := fbGet_render_single hv hone ht hr hcol (by
    rw [hx0, Nat.zero_add]
    exact ⟨lt_of_le_of_lt (Nat.le_add_left col 2) hin.1, hin.2⟩)
  have hright := fbGet_render_single (s := s') (by rw [hcfg, hv]) (by rw [hcfg, hone]) ht' hr hcol
    (by rwa [hcfg, hx2, hyo])
  rw [hx0, Nat.zero_add] at hleft
  rw [hx2, hyo, hspr, hso] at hright
  rw [hleft, hright, hcfg]
  refine tilePix_congr ?_
  have hbyte := hrom _ (tileLoc_off_lt hv ((s.slot 0).spr + spriteOffset (s.slot 0).packed) hr hcol)
  rwa [State.byteAt, State.byteAt, hcfg] at hbyte

end Sys2Proof.Machine
end

section
/-! The animation advance of a render pass: O37. Each byte of the tables as one slot leaves it, then slot by slot: an entry is written at its own slot, a shared frame counter at every slot that selects its definition (`43_render_pipeline.md` R232, R233). -/

namespace Sys2Proof.Machine

variable {c : Config} {ep : Nat} {info : Nat → SlotInfo}

/-! ### One slot -/

/-- The frame counter of a definition as a use of it leaves it. -/
def countUp (speed fc : Byte) : Byte := if speed ≤ fc then 0 else fc + 1

/-- The gate of an advance: the frame counter has reached the speed, or there is no gate. -/
def advances (c : Config) (ep : Nat) (m : List Host.Cell) (j : Byte) : Prop :=
  c.animGated = true → byteOf c ep m (animDefLoc c j.toNat 2) ≤ byteOf c ep m (animDefLoc c j.toNat 3)

theorem Config.three_lt_animDefSize (hg : c.animGated = true) : 3 < c.animDefSize := by
  rw [Config.animDefSize_gated hg]
  decide

theorem counterLoc_off_lt (hv : c.valid = true) (hg : c.animGated = true) (j : Byte) :
    (animDefLoc c j.toNat 3).off < 65536 :=
  animDefLoc_off_lt hv j (Config.three_lt_animDefSize hg)

/-- An entry takes the successor when it advances, and stays otherwise. -/
theorem byteOf_advanceAnim_entry (hv : c.valid = true) {i : Nat} (hi : i < c.slots) (x : SlotInfo)
    (m : List Host.Cell) :
    (advances c ep m x.anim → byteOf c ep (advanceAnim c ep i x m) (animIndexLoc c i) = x.next) ∧
    (¬advances c ep m x.anim →
      byteOf c ep (advanceAnim c ep i x m) (animIndexLoc c i) = byteOf c ep m (animIndexLoc c i)) := by
  have hentry := animIndexLoc_off_lt hv hi
  have hother (hg : c.animGated = true) (v : Byte) (m : List Host.Cell) :
      byteOf c ep (cellsPut c (animDefLoc c x.anim.toNat 3).key v m) (animIndexLoc c i) =
        byteOf c ep m (animIndexLoc c i) :=
    byteOf_put_other m v (counterLoc_off_lt hv hg x.anim) hentry
      (animDefLoc_ne_entry hv x.anim (Config.three_lt_animDefSize hg) hi).1.symm
  unfold advanceAnim advances
  cases hg : c.animGated with
  | false => simp [byteOf_put]
  | true =>
    simp only [if_true, true_implies]
    constructor
    · intro hreach
      rw [if_pos hreach, hother hg, byteOf_put, if_pos rfl]
    · intro hreach
      rw [if_neg hreach, hother hg]

/-- The frame counter of the definition used is reset when it has reached the speed, and else counts up. -/
theorem byteOf_advanceAnim_counter (hg : c.animGated = true) (i : Nat) (x : SlotInfo)
    (m : List Host.Cell) :
    byteOf c ep (advanceAnim c ep i x m) (animDefLoc c x.anim.toNat 3) =
      countUp (byteOf c ep m (animDefLoc c x.anim.toNat 2)) (byteOf c ep m (animDefLoc c x.anim.toNat 3)) := by
  unfold advanceAnim countUp
  simp only [hg, if_true]
  split <;> rw [byteOf_put, if_pos rfl]

/-- Outside pixel RAM a painted slot does what its animation advance does. -/
theorem byteOf_paintSlot_table (hv : c.valid = true) (i : Nat) (m : List Host.Cell) {l : Loc}
    (hl : l.off < 65536) (hst : l.store ≠ .pixelRam) :
    byteOf c ep (paintSlot c ep info m i) l = byteOf c ep (advanceAnim c ep i (info i) m) l :=
  byteOf_drawTile_other hv _ _ _ _ hl fun _ _ _ _ _ heq => hst (heq ▸ rfl)

/-- A painted slot leaves the tables but for its entry and the counter of its definition. -/
theorem byteOf_paintSlot_otherTable (hv : c.valid = true) {i : Nat} (hi : i < c.slots)
    (m : List Host.Cell) {l : Loc} (hl : l.off < 65536) (hst : l.store ≠ .pixelRam)
    (hentry : l ≠ animIndexLoc c i)
    (hcounter : c.animGated = true → l ≠ animDefLoc c (info i).anim.toNat 3) :
    byteOf c ep (paintSlot c ep info m i) l = byteOf c ep m l := by
  rw [byteOf_paintSlot_table hv i m hl hst, byteOf_advanceAnim_other hv hi _ m hl hentry hcounter]

/-! ### The slots one after another -/

theorem animIndexLoc_injective {i k : Nat} (h : animIndexLoc c i = animIndexLoc c k) : i = k := by
  simp only [animIndexLoc, Loc.mk.injEq, true_and] at h
  omega

/-- Two definitions have two frame counters. -/
theorem counterLoc_injective (hg : c.animGated = true) {j j' : Byte}
    (h : animDefLoc c j.toNat 3 = animDefLoc c j'.toNat 3) : j = j' := by
  simp only [animDefLoc, Config.animDefSize_gated hg, Loc.mk.injEq, true_and] at h
  exact BitVec.eq_of_toNat_eq (by omega)

theorem spriteIndexLoc_off_lt (hv : c.valid = true) {i : Nat} (hi : i < c.slots) :
    (spriteIndexLoc c i).off < 65536 := by
  have hfit := Config.tables_fit hv
  simp only [spriteIndexLoc]
  omega

/-- No slot writes a sprite index. -/
theorem byteOf_paintSlots_spriteIndex (hv : c.valid = true) {n i : Nat} (hn : n ≤ c.slots)
    (hi : i < c.slots) (m : List Host.Cell) :
    byteOf c ep (paintSlots c ep info m n) (spriteIndexLoc c i) = byteOf c ep m (spriteIndexLoc c i) := by
  refine byteOf_paintSlots_other fun k hk m' => byteOf_paintSlot_otherTable hv (hk.trans_le hn) m'
    (spriteIndexLoc_off_lt hv hi) (by simp [spriteIndexLoc]) ?_
    fun hg => (animDefLoc_ne_entry hv _ (Config.three_lt_animDefSize hg) hi).2.symm
  simp only [spriteIndexLoc, animIndexLoc, ne_eq, Loc.mk.injEq, true_and]
  omega

/-- No slot writes a byte of a definition other than a frame counter. -/
theorem byteOf_paintSlots_animDef (hv : c.valid = true) {n b : Nat} (hn : n ≤ c.slots)
    (hb : b < c.animDefSize) (hb3 : b < 3) (j : Byte) (m : List Host.Cell) :
    byteOf c ep (paintSlots c ep info m n) (animDefLoc c j.toNat b) =
      byteOf c ep m (animDefLoc c j.toNat b) :=
  byteOf_paintSlots_other fun _ hk m' => byteOf_paintSlot_otherTable hv (hk.trans_le hn) m'
    (animDefLoc_off_lt hv j hb) (by simp [animDefLoc])
    (animDefLoc_ne_entry hv j hb (hk.trans_le hn)).1 fun hg => animDefLoc_ne_counter hg j _ hb3

/-- Another slot leaves an entry's `animIndex`. -/
theorem byteOf_paintSlot_otherEntry (hv : c.valid = true) {i k : Nat} (hi : i < c.slots)
    (hk : k < c.slots) (hne : i ≠ k) (m : List Host.Cell) :
    byteOf c ep (paintSlot c ep info m k) (animIndexLoc c i) = byteOf c ep m (animIndexLoc c i) :=
  byteOf_paintSlot_otherTable hv hk m (animIndexLoc_off_lt hv hi) (by simp [animIndexLoc])
    (mt animIndexLoc_injective hne)
    fun hg => (animDefLoc_ne_entry hv _ (Config.three_lt_animDefSize hg) hi).1.symm

/-- An entry is as its own slot leaves it: the slots before it and after it do not write it. -/
theorem byteOf_paintSlots_entry (hv : c.valid = true) {n i : Nat} (hn : n ≤ c.slots) (hi : i < n)
    (m : List Host.Cell) :
    byteOf c ep (paintSlots c ep info m n) (animIndexLoc c i) =
      byteOf c ep (advanceAnim c ep i (info i) (paintSlots c ep info m i)) (animIndexLoc c i) := by
  have hislots : i < c.slots := hi.trans_le hn
  induction n with
  | zero => exact absurd hi (Nat.not_lt_zero i)
  | succ n ih =>
    rw [paintSlots_succ]
    rcases Nat.lt_succ_iff_lt_or_eq.1 hi with hlt | rfl
    · rw [byteOf_paintSlot_otherEntry hv hislots hn (Nat.ne_of_lt hlt), ih (Nat.le_of_succ_le hn) hlt]
    · exact byteOf_paintSlot_table hv i _ (animIndexLoc_off_lt hv hislots) (by simp [animIndexLoc])

/-- Before its own slot an entry is as the pass found it. -/
theorem byteOf_paintSlots_entry_before (hv : c.valid = true) {n i : Nat} (hn : n ≤ i)
    (hi : i < c.slots) (m : List Host.Cell) :
    byteOf c ep (paintSlots c ep info m n) (animIndexLoc c i) = byteOf c ep m (animIndexLoc c i) :=
  byteOf_paintSlots_other fun k hk m' =>
    have hki : k < i := hk.trans_le hn
    byteOf_paintSlot_otherEntry hv hi (hki.trans hi) (Nat.ne_of_gt hki) m'

/-! ### A shared frame counter -/

/-- One use of a frame counter, as a number: below the speed the byte does not wrap (`43_render_pipeline.md` R233). -/
theorem countUp_toNat (speed fc : Byte) :
    (countUp speed fc).toNat = counterAfter speed.toNat 1 fc.toNat := by
  have hspeed := speed.isLt
  simp only [countUp, counterAfter, BitVec.le_def]
  split
  · rfl
  · rw [BitVec.toNat_add]
    exact Nat.mod_eq_of_lt (by simp; omega)

/-- How many of the first `n` slots use definition `j`. -/
def usesOf (info : Nat → SlotInfo) (j : Byte) (n : Nat) : Nat :=
  ((List.range n).filter fun k => (info k).anim.toNat = j.toNat).length

theorem usesOf_succ (j : Byte) (n : Nat) :
    usesOf info j (n + 1) = usesOf info j n + if (info n).anim = j then 1 else 0 := by
  rw [usesOf, List.range_succ, List.filter_append, List.length_append, ← usesOf]
  by_cases h : (info n).anim = j
  · simp [h]
  · simp [h, mt BitVec.eq_of_toNat_eq h]

/-- After some slots a frame counter is as the slots that use its definition leave it, one after another. -/
theorem byteOf_paintSlots_counter (hv : c.valid = true) (hg : c.animGated = true) (j : Byte) {n : Nat}
    (hn : n ≤ c.slots) (m : List Host.Cell) :
    (byteOf c ep (paintSlots c ep info m n) (animDefLoc c j.toNat 3)).toNat =
      counterAfter (byteOf c ep m (animDefLoc c j.toNat 2)).toNat (usesOf info j n)
        (byteOf c ep m (animDefLoc c j.toNat 3)).toNat := by
  have hsize := Config.three_lt_animDefSize hg
  have hoff := counterLoc_off_lt hv hg j
  induction n with
  | zero => rfl
  | succ n ih =>
    have hn' : n ≤ c.slots := Nat.le_of_succ_le hn
    rw [paintSlots_succ, usesOf_succ]
    by_cases hj : (info n).anim = j
    · subst hj
      rw [byteOf_paintSlot_table hv n _ hoff (by simp [animDefLoc]),
        byteOf_advanceAnim_counter hg, countUp_toNat, ih hn',
        byteOf_paintSlots_animDef hv hn' (by omega) (by decide), if_pos rfl, counterAfter_add]
    · rw [byteOf_paintSlot_otherTable hv hn _ hoff (by simp [animDefLoc])
        (animDefLoc_ne_entry hv j hsize hn).1 (fun _ => mt (counterLoc_injective hg) (Ne.symm hj)),
        ih hn', if_neg hj, Nat.add_zero]

/-! ### The pass -/

/-- A byte after RENDER is one of the painted memory. -/
theorem byteAt_render {s t : State} (hv : s.cfg.valid = true) (h : exec .render s = .next t) (l : Loc) :
    t.byteAt l =
      byteOf s.cfg s.ramEpoch (paintSlots s.cfg s.ramEpoch s.slot s.mem s.cfg.slots) l := by
  rw [exec_render_next hv h]
  rfl

/-- Without a gate every entry takes its successor. -/
theorem byteAt_render_entry_minimal {s t : State} (hv : s.cfg.valid = true)
    (h : exec .render s = .next t) {i : Nat} (hi : i < s.cfg.slots) (hg : s.cfg.animGated = false) :
    t.byteAt (animIndexLoc s.cfg i) = (s.slot i).next := by
  rw [byteAt_render hv h, byteOf_paintSlots_entry hv (Nat.le_refl _) hi]
  refine (byteOf_advanceAnim_entry hv hi (s.slot i) _).1 fun hgate => ?_
  rw [hg] at hgate
  cases hgate

/-- In the gated profile slot `i` advances: the frame counter of its definition, as the entries before it leave it, has reached the speed. -/
def State.due (s : State) (i : Nat) : Prop :=
  let j := (s.slot i).anim.toNat
  let speed := (s.byteAt (animDefLoc s.cfg j 2)).toNat
  speed ≤ counterAfter speed (s.entriesUsing j i) (s.byteAt (animDefLoc s.cfg j 3)).toNat

/-- The gate of slot `i`, once the slots before it are painted. -/
theorem State.advances_iff_due {s : State} (hv : s.cfg.valid = true) (hg : s.cfg.animGated = true)
    {i : Nat} (hi : i < s.cfg.slots) :
    advances s.cfg s.ramEpoch (paintSlots s.cfg s.ramEpoch s.slot s.mem i) (s.slot i).anim ↔
      s.due i := by
  have hsize := Config.three_lt_animDefSize hg
  rw [advances, BitVec.le_def, byteOf_paintSlots_counter hv hg _ hi.le,
    byteOf_paintSlots_animDef hv hi.le (by omega) (by decide)]
  exact ⟨fun hreach => hreach hg, fun hreach _ => hreach⟩

/-- With a gate an entry that is due takes its successor, and another stays. -/
theorem byteAt_render_entry_gated {s t : State} (hv : s.cfg.valid = true)
    (h : exec .render s = .next t) {i : Nat} (hi : i < s.cfg.slots) (hg : s.cfg.animGated = true) :
    (s.due i → t.byteAt (animIndexLoc s.cfg i) = (s.slot i).next) ∧
    (¬s.due i → t.byteAt (animIndexLoc s.cfg i) = s.byteAt (animIndexLoc s.cfg i)) := by
  obtain ⟨hadvance, hstay⟩ := byteOf_advanceAnim_entry hv hi (s.slot i)
    (paintSlots s.cfg s.ramEpoch s.slot s.mem i)
  rw [byteAt_render hv h, byteOf_paintSlots_entry hv (Nat.le_refl _) hi, ← State.advances_iff_due hv hg hi]
  refine ⟨hadvance, fun hnot => (hstay hnot).trans ?_⟩
  exact byteOf_paintSlots_entry_before hv (Nat.le_refl i) hi s.mem

/-- Settles O37: an entry is written at its own slot, its counter at every slot that shares it. -/
theorem renderAdvancesAnimation : Obligations.RenderAdvancesAnimation := by
  intro s t i hv h hi j speed fc
  refine ⟨?_, byteAt_render_entry_minimal hv h hi, fun hg => ⟨?_, ?_⟩⟩
  · rw [byteAt_render hv h]
    exact byteOf_paintSlots_spriteIndex hv (Nat.le_refl _) hi s.mem
  · obtain ⟨hadvance, hstay⟩ := byteAt_render_entry_gated hv h hi hg
    split
    · exact hadvance ‹_›
    · exact hstay ‹_›
  · rw [byteAt_render hv h]
    exact byteOf_paintSlots_counter hv hg (s.byteAt (animIndexLoc s.cfg i)) (Nat.le_refl _) s.mem

end Sys2Proof.Machine
end

section
/-! A second render pass under no animation: O38. With self-loops a pass leaves what the next one reads of every slot, and the same slots painted twice show what they showed (`43_render_pipeline.md` R239). -/

namespace Sys2Proof.Machine

variable {c : Config} {ep : Nat} {info : Nat → SlotInfo}

/-! ### What the second pass reads -/

/-- Every entry selects a definition that is its own successor (`43_render_pipeline.md` R239). -/
def State.still (s : State) : Prop := ∀ i, i < s.cfg.slots → (s.slot i).next = (s.slot i).anim

theorem exec_render_cfg {s t : State} (h : exec .render s = .next t) : t.cfg = s.cfg :=
  (exec_extends h).cfg

theorem State.slot_anim (s : State) (i : Nat) :
    (s.slot i).anim = s.byteAt (animIndexLoc s.cfg i) := rfl

theorem State.slot_spr (s : State) (i : Nat) :
    (s.slot i).spr = s.byteAt (spriteIndexLoc s.cfg i) := rfl

/-- With self-loops an entry keeps its `animIndex`, whether it advances or not. -/
theorem byteAt_render_entry_still {s t : State} (hv : s.cfg.valid = true) (hstill : s.still)
    (h : exec .render s = .next t) {i : Nat} (hi : i < s.cfg.slots) :
    t.byteAt (animIndexLoc s.cfg i) = s.byteAt (animIndexLoc s.cfg i) := by
  cases hg : s.cfg.animGated with
  | false => exact (byteAt_render_entry_minimal hv h hi hg).trans (hstill i hi)
  | true =>
    obtain ⟨hadvance, hstay⟩ := byteAt_render_entry_gated hv h hi hg
    by_cases hdue : s.due i
    · exact (hadvance hdue).trans (hstill i hi)
    · exact hstay hdue

/-- With self-loops a pass leaves what the next pass reads of every slot. -/
theorem slot_render_still {s t : State} (hv : s.cfg.valid = true) (hstill : s.still)
    (h : exec .render s = .next t) {i : Nat} (hi : i < s.cfg.slots) : t.slot i = s.slot i := by
  have hentry := byteAt_render_entry_still hv hstill h hi
  rw [byteAt_render hv h] at hentry
  have hspr := byteOf_paintSlots_spriteIndex (ep := s.ramEpoch) (info := s.slot) hv (Nat.le_refl _) hi s.mem
  have hdef (b : Nat) (hb : b < 2) :=
    byteOf_paintSlots_animDef (ep := s.ramEpoch) (info := s.slot) hv (Nat.le_refl _)
      (hb.trans_le (Config.two_le_animDefSize s.cfg)) (by omega) (s.byteAt (animIndexLoc s.cfg i)) s.mem
  rw [exec_render_next hv h]
  simp only [State.slot, slotInfo] at hentry hspr hdef ⊢
  rw [hentry, hspr]
  exact congrArg₂ (SlotInfo.mk _ _) (hdef 0 (by decide)) (hdef 1 (by decide))

/-! ### What the second pass paints -/

/-- Slots read alike paint alike. -/
theorem paintSlots_congr {info' : Nat → SlotInfo} {n : Nat} (h : ∀ i, i < n → info' i = info i)
    (m : List Host.Cell) : paintSlots c ep info' m n = paintSlots c ep info m n := by
  induction n with
  | zero => rfl
  | succ n ih =>
    rw [paintSlots_succ, paintSlots_succ, ih fun i hi => h i (Nat.lt_succ_of_lt hi), paintSlot,
      paintSlot, h n (Nat.lt_succ_self n)]

/-- Painted over two memories with the same tiles, the slots show the same wherever one of them is. -/
theorem fbRead_paintSlots_agree (hv : c.valid = true) {n x y : Nat} (hn : n ≤ c.slots)
    (hin : inFramebuffer c x y) {m m' : List Host.Cell}
    (htiles : ∀ e r col, r < 8 → col < 8 → tilePix c ep m' e r col = tilePix c ep m e r col)
    (hunder : ∃ i, i < n ∧ underSlot c info i x y) :
    fbRead c ep (paintSlots c ep info m' n) x y = fbRead c ep (paintSlots c ep info m n) x y := by
  induction n with
  | zero => simp at hunder
  | succ n ih =>
    have hn' : n ≤ c.slots := Nat.le_of_succ_le hn
    rw [paintSlots_succ, paintSlots_succ]
    by_cases hlast : underSlot c info n x y
    · obtain ⟨r, col, hr, hcol, hx, hy⟩ := exists_of_inTile hlast
      rw [fbRead_paintSlot_under hv hn hr hcol hx hy hin, fbRead_paintSlot_under hv hn hr hcol hx hy hin,
        tilePix_paintSlots hv hn' _ _ hr hcol, tilePix_paintSlots hv hn' _ _ hr hcol,
        htiles _ r col hr hcol]
    · rw [fbRead_paintSlot_beside hv hn hin hlast, fbRead_paintSlot_beside hv hn hin hlast]
      obtain ⟨i, hi, hi_under⟩ := hunder
      have hne : i ≠ n := fun heq => hlast (heq ▸ hi_under)
      exact ih hn' ⟨i, by omega, hi_under⟩

/-- Painting the same slots a second time changes no pixel. -/
theorem fbRead_paintSlots_twice (hv : c.valid = true) {n x y : Nat} (hn : n ≤ c.slots)
    (hin : inFramebuffer c x y) (m : List Host.Cell) :
    fbRead c ep (paintSlots c ep info (paintSlots c ep info m n) n) x y =
      fbRead c ep (paintSlots c ep info m n) x y := by
  by_cases hunder : ∃ i, i < n ∧ underSlot c info i x y
  · exact fbRead_paintSlots_agree hv hn hin
      (fun e r col hr hcol => tilePix_paintSlots hv hn m e hr hcol) hunder
  · exact fbRead_paintSlots_beside hv hn hin (fun i hi hi_under => hunder ⟨i, hi, hi_under⟩) _

/-! ### The second pass -/

/-- After a pass with self-loops the next one completes. -/
theorem exec_render_again {s t : State} (hv : s.cfg.valid = true) (hstill : s.still)
    (h : exec .render s = .next t) : ∃ u, exec .render t = .next u := by
  have hcfg := exec_render_cfg h
  rw [exec_render_next_iff (hcfg ▸ hv), hcfg]
  refine ((exec_render_next_iff hv).1 ⟨t, h⟩).imp id fun hfits i hi => ?_
  have hslot : slotInfo s.cfg t.ramEpoch t.mem i = s.slot i := by
    rw [← slot_render_still hv hstill h hi, State.slot, hcfg]
  have hfit := (slotFits_iff_corner s.mem i).1 (hfits i hi)
  rw [slotFits_iff_corner, hslot]
  exact hfit

/-- Settles O38: the second pass reads what the first one read, and paints the same slots over what they left. -/
theorem renderTwiceSameFramebuffer : Obligations.RenderTwiceSameFramebuffer := by
  intro s t hv hself ht
  have hstill : s.still := fun i hi => (hself i hi).1
  have hcfg := exec_render_cfg ht
  have hvt : t.cfg.valid = true := hcfg ▸ hv
  have hslot (i : Nat) (hi : i < s.cfg.slots) : t.slot i = s.slot i := slot_render_still hv hstill ht hi
  have hstillt : t.still := fun i hi => by
    rw [hcfg] at hi
    rw [hslot i hi, hstill i hi]
  obtain ⟨u, hu⟩ := exec_render_again hv hstill ht
  refine ⟨u, hu, fun x y hin => ?_, fun i hi => ?_⟩
  · rw [fbGet_render hvt hu, t.fbGet_eq_fbRead, hcfg, paintSlots_congr hslot, exec_render_next hv ht]
    exact fbRead_paintSlots_twice hv (Nat.le_refl _) hin s.mem
  · have huslot : u.slot i = s.slot i :=
      (slot_render_still hvt hstillt hu (hcfg ▸ hi)).trans (hslot i hi)
    have hucfg : u.cfg = s.cfg := (exec_render_cfg hu).trans hcfg
    have hanim := congrArg SlotInfo.anim huslot
    have hspr := congrArg SlotInfo.spr huslot
    rw [State.slot_anim, State.slot_anim, hucfg] at hanim
    rw [State.slot_spr, State.slot_spr, hucfg] at hspr
    exact ⟨hanim, hspr⟩

end Sys2Proof.Machine
end

section
/-! O56: where a step can stop. One predicate on outcomes, its rule for sequences, then the render pass, the Executor that may issue it, the tick, every instruction, and the step. -/

namespace Sys2Proof.Machine

/-! ### An outcome that is a next state, or the fault of a render pass -/

/-- The outcome has a next state, or is the fault of RENDER under a configuration with which a tile can leave the framebuffer (`43_render_pipeline.md` R237, log 15). -/
def StopsOnlyInRender (c : Config) (r : Result) : Prop :=
  (∃ t, r = .next t) ∨ (r = .fault .renderOutOfBounds ∧ c.clip = false ∧ roomy c = false)

theorem StopsOnlyInRender.next (c : Config) (t : State) : StopsOnlyInRender c (.next t) := .inl ⟨t, rfl⟩

/-- A sequence stops where its first part does or, after that, where its second part does. -/
theorem StopsOnlyInRender.andThen {c : Config} {r : Result} {f : State → Result}
    (hr : StopsOnlyInRender c r) (hf : ∀ t, r = .next t → StopsOnlyInRender c (f t)) :
    StopsOnlyInRender c (andThen r f) := by
  obtain ⟨t, rfl⟩ | ⟨rfl, hc⟩ := hr
  · exact hf t rfl
  · exact .inr ⟨rfl, hc⟩

/-! ### The render pass and the PPU's Executor -/

theorem renderPass_stops (s : State) : StopsOnlyInRender s.cfg (renderPass s) := by
  unfold renderPass
  split
  · exact .next ..
  · rename_i hnone
    have hsafe : ¬(s.cfg.clip = true ∨ roomy s.cfg = true) := fun h => by
      obtain ⟨m, hm⟩ := renderSlots_some s.ramEpoch (List.range s.cfg.slots) s.mem h
      rw [hm] at hnone
      cases hnone
    rw [not_or, Bool.not_eq_true, Bool.not_eq_true] at hsafe
    exact .inr ⟨rfl, hsafe⟩

theorem ppuOp_stops (op : PpuOp) (s : State) : StopsOnlyInRender s.cfg (ppuOp op s) := by
  cases op with
  | read a => exact .next ..
  | write a d => exact .next ..
  | render => exact renderPass_stops s

theorem ppuOps_stops (ops : List PpuOp) (s : State) : StopsOnlyInRender s.cfg (ppuOps ops s) := by
  induction ops generalizing s with
  | nil => exact .next ..
  | cons op ops ih => exact (ppuOp_stops op s).andThen fun t ht => (ppuOp_extends ht).cfg ▸ ih t

theorem ppuStep_stops (s : State) : StopsOnlyInRender s.cfg (ppuStep s) :=
  (ppuOps_stops s.env.ppuOps (s.call (.step .ppu))).andThen fun _ _ => .next ..

/-! ### The tick -/

/-- A fault of the PPU's Executor is the fault of its tick. -/
theorem execTick_fault {s b : State} {e : Fault} (hrun : s.halted = false)
    (hb : cpuStep (s.observe .cpu) = .next b) (hd : ppuStep (b.observe .ppu) = .fault e) :
    execTick s = .fault e := by
  unfold execTick
  rw [hrun]
  simp only [Bool.false_eq_true, if_false, tickSubsteps, runSubsteps, andThen_next, andThen_fault, hb, hd]

/-- From a beam in range a tick has both its beam-steps, so only its PPU step can stop it. -/
theorem execTick_stops {s : State} (hv : s.cfg.valid = true) (hb : s.beamOk = true)
    (hrun : s.halted = false) : StopsOnlyInRender s.cfg (execTick s) := by
  obtain ⟨b, hcpu⟩ := cpuStep_next (s.observe .cpu)
  have hcfg : (b.observe .ppu).cfg = s.cfg :=
    (b.observe_cfg_env .ppu).1.trans (cpuStep_observe_cfg_env hcpu).1
  rcases ppuStep_stops (b.observe .ppu) with ⟨d, hd⟩ | ⟨hd, hsafe⟩
  · obtain ⟨u, hu⟩ := beamStep_next hb
    obtain ⟨v, hv'⟩ := beamStep_next (beamStep_beamOk hv hu)
    exact .inl ⟨_, execTick_eq hv hrun hcpu hd hu hv'⟩
  · exact .inr ⟨execTick_fault hrun hcpu hd, hcfg ▸ hsafe⟩

/-! ### Every instruction, and the step -/

/-- From a good state an instruction that is refused is one whose word the port drops; no other stops but in a render pass. -/
theorem exec_stops {s : State} (hg : s.Good) (i : Instr) :
    StopsOnlyInRender s.cfg (exec i s) ∨ ∃ r, exec i s = .refused r ∧ r.dropsTheWord = true := by
  cases i with
  | tick =>
    cases hrun : s.halted with
    | true => exact .inr ⟨_, exec_tick_halted hrun, rfl⟩
    | false => exact .inl (execTick_stops hg.valid hg.beam hrun)
  | bstep => exact .inl (.inl (beamStep_next hg.beam))
  | edgechk => exact .inl (.inl (edgeCheck_next (State.sect_ne_none hg.beam)))
  | waitset sec =>
    by_cases hsec : sec = .none
    · exact .inr ⟨.waitsetNone, if_pos hsec, rfl⟩
    · exact .inl (.inl ⟨_, exec_waitset hsec s⟩)
  | render => exact .inl (renderPass_stops s)
  | loadrom r n =>
    cases hst : regionStore s.cfg r with
    | none => exact .inr ⟨_, exec_loadrom_none n hst, rfl⟩
    | some st => exact .inl (.inl ⟨_, exec_loadrom n hst⟩)
  | reset | resume | observe _ | spchk _ | tracedump _ => exact .inl (.next ..)
  | prdP _ | pwrP _ _ | prdE _ | pwrE _ _ | crd _ | cwr _ _ => exact .inl (.next ..)
  | z80PushQq _ _ | z80PushIx _ | z80PushIy _ => exact .inl (.next ..)
  | z80PopQq _ _ | z80PopIx _ | z80PopIy _ | z80Reti _ | z80Retn _ => exact .inl (.next ..)

/-- A command word on a good state: one that is refused is dropped. -/
theorem runCmd_stops {s : State} (hg : s.Good) (w : Cmd) : StopsOnlyInRender s.cfg (runCmd w s) := by
  cases hdec : decodeCmd w with
  | error e =>
    rw [runCmd_error hdec]
    exact .next ..
  | ok i =>
    rw [runCmd_ok hdec]
    obtain (⟨t, ht⟩ | ⟨hfault, hsafe⟩) | ⟨r, hr, hdrop⟩ := exec_stops hg i
    · rw [ht]
      exact .next ..
    · rw [hfault]
      exact .inr ⟨rfl, hsafe⟩
    · rw [hr, settle_dropsTheWord hdrop]
      exact .next ..

/-- Settles O56: an idle edge and a pulse on rst complete, and a command word runs on a state as good as the one before. -/
theorem stepFromGoodStateFaultsOnlyInRender : Obligations.StepFromGoodStateFaultsOnlyInRender := by
  intro s hs
  have hg := s.good_iff.1 hs
  cases hin : s.inbox with
  | nil => exact .inl ⟨_, step_idle hg.valid hin⟩
  | cons input rest =>
    cases input with
    | rst env => exact .inl ⟨_, step_rst hg.valid hin⟩
    | cmd w env =>
      rw [step_cmd hg.valid hin]
      exact runCmd_stops ((s.accept_keeps rest env).good hg) w

end Sys2Proof.Machine
end

section
/-! O60: the instrumentation is out of band (`44_instrumentation.md` R277). What is left of a state without its instrumentation determines what is left of the next state: first for the shared operations, each of which commutes with leaving the instrumentation out or is hidden by it, then for the sub-steps of a tick, and for every instruction. -/

namespace Sys2Proof.Machine

/-! ### Outcomes that agree up to a view -/

section Agreement

variable {α : Type} {view : State → α} {r r' r'' : Result}

theorem agreeUpTo.symm (h : agreeUpTo view r r') : agreeUpTo view r' r := by
  cases r <;> cases r' <;> try cases h
  case next.next => exact Eq.symm h
  all_goals rfl

theorem agreeUpTo.trans (h : agreeUpTo view r r') (h' : agreeUpTo view r' r'') :
    agreeUpTo view r r'' := by
  cases r <;> cases r' <;> try cases h
  case next.next =>
    cases r'' <;> try cases h'
    exact Eq.trans h h'
  all_goals exact h'

end Agreement

/-- From two states that differ in the instrumentation only, `f` has outcomes that differ there only. -/
def OutOfBand (f : State → Result) : Prop :=
  ∀ s s' : State, s.withoutInstrumentation = s'.withoutInstrumentation →
    agreeUpTo State.withoutInstrumentation (f s) (f s')

/-- It is enough to compare each state with what is left of it. -/
theorem OutOfBand.of_erased {f : State → Result}
    (h : ∀ s, agreeUpTo State.withoutInstrumentation (f s) (f s.withoutInstrumentation)) :
    OutOfBand f :=
  fun s s' hs => (h s).trans (hs ▸ (h s').symm)

/-- What is left of the next state is computed from what is left of the state. -/
theorem OutOfBand.of_factors {g g' : State → State}
    (h : ∀ s, (g s).withoutInstrumentation = g' s.withoutInstrumentation) :
    OutOfBand fun s => .next (g s) :=
  fun s s' hs => (h s).trans ((congrArg g' hs).trans (h s').symm)

theorem OutOfBand.andThen {f g : State → Result} (hf : OutOfBand f) (hg : OutOfBand g) :
    OutOfBand fun s => andThen (f s) g := by
  intro s s' hs
  have h := hf s s' hs
  change agreeUpTo _ (Machine.andThen (f s) g) (Machine.andThen (f s') g)
  generalize f s = r at h
  generalize f s' = r' at h
  cases r <;> cases r' <;> try cases h
  case next.next t t' => exact hg t t' h
  all_goals rfl

/-! ### The fields left -/

section Fields

variable (s : State)

@[simp] theorem State.withoutInstrumentation_cfg : s.withoutInstrumentation.cfg = s.cfg := rfl
@[simp] theorem State.withoutInstrumentation_mem : s.withoutInstrumentation.mem = s.mem := rfl
@[simp] theorem State.withoutInstrumentation_ramEpoch :
    s.withoutInstrumentation.ramEpoch = s.ramEpoch := rfl
@[simp] theorem State.withoutInstrumentation_proc (p : Proc) :
    s.withoutInstrumentation.proc p = (s.proc p).withoutRings := by cases p <;> rfl

theorem State.withoutInstrumentation_idem :
    s.withoutInstrumentation.withoutInstrumentation = s.withoutInstrumentation := by
  have hout : s.withoutInstrumentation.out.filter (fun e => !e.isTraceLine) =
      s.withoutInstrumentation.out := by
    simp only [State.withoutInstrumentation, List.filter_filter, Bool.and_self]
  exact congrArg (fun es => { s.withoutInstrumentation with out := es }) hout

/-! ### The shared operations -/

theorem State.withoutInstrumentation_setProc (p : Proc) (x : ProcState) :
    (s.setProc p x).withoutInstrumentation =
      s.withoutInstrumentation.setProc p x.withoutRings := by cases p <;> rfl

/-- A change of the rings alone is hidden. -/
theorem State.withoutInstrumentation_setProc_rings (p : Proc) (x : ProcState)
    (h : x.withoutRings = (s.proc p).withoutRings) :
    (s.setProc p x).withoutInstrumentation = s.withoutInstrumentation := by
  rw [State.withoutInstrumentation_setProc, h, ← State.withoutInstrumentation_proc,
    State.setProc_proc_self]

theorem State.withoutInstrumentation_emitAll (es : List Event) :
    (s.emitAll es).withoutInstrumentation =
      s.withoutInstrumentation.emitAll (es.filter fun e => !e.isTraceLine) := by
  simp only [State.withoutInstrumentation, State.emitAll, List.filter_append]

theorem State.withoutInstrumentation_emitAll_erased (es : List Event) :
    (s.withoutInstrumentation.emitAll es).withoutInstrumentation =
      (s.emitAll es).withoutInstrumentation := by
  rw [State.withoutInstrumentation_emitAll, State.withoutInstrumentation_emitAll,
    State.withoutInstrumentation_idem]

theorem State.withoutInstrumentation_emit {e : Event} (h : e.isTraceLine = false) :
    (s.emit e).withoutInstrumentation = s.withoutInstrumentation.emit e := by
  simp only [State.withoutInstrumentation, State.emit, List.filter_append, List.filter_singleton, h,
    Bool.not_false, cond_true]

theorem State.withoutInstrumentation_setByte (l : Loc) (v : Byte) :
    (s.setByte l v).withoutInstrumentation = s.withoutInstrumentation.setByte l v := rfl

theorem State.cpuRead_withoutInstrumentation (a : Addr) :
    s.withoutInstrumentation.cpuRead a = ((s.cpuRead a).1, (s.cpuRead a).2.withoutInstrumentation) := by
  unfold State.cpuRead
  rw [State.withoutInstrumentation_cfg]
  cases resolveCpu s.cfg a <;> rfl

theorem State.read_withoutInstrumentation (p : Proc) (a : Addr) :
    s.withoutInstrumentation.read p a = ((s.read p a).1, (s.read p a).2.withoutInstrumentation) := by
  cases p with
  | ppu => rfl
  | cpu => exact s.cpuRead_withoutInstrumentation a

theorem State.withoutInstrumentation_cpuReadOp (a : Addr) :
    (s.cpuReadOp a).withoutInstrumentation = s.withoutInstrumentation.cpuReadOp a := by
  rw [State.cpuReadOp, State.cpuReadOp, State.cpuRead_withoutInstrumentation]
  rfl

theorem State.withoutInstrumentation_progWrite (p : Proc) (a : Addr) (l : Loc) (d : Byte) :
    (s.progWrite p a l d).withoutInstrumentation = s.withoutInstrumentation.progWrite p a l d := by
  cases hc : l.store.memClass s.cfg with
  | ram =>
    rw [State.progWrite_ram hc, State.progWrite_ram (s := s.withoutInstrumentation) hc]
    exact s.withoutInstrumentation_setByte l d
  | rom =>
    have hdiag : (s.diag .writeToRom (.write p a d)).withoutInstrumentation =
        s.withoutInstrumentation.diag .writeToRom (.write p a d) :=
      s.withoutInstrumentation_emit rfl
    rw [State.progWrite_rom hc, State.progWrite_rom (s := s.withoutInstrumentation) hc,
      apply_ite State.withoutInstrumentation, State.withoutInstrumentation_setByte, hdiag]
    rfl

theorem State.withoutInstrumentation_cpuWrite (a : Addr) (d : Byte) :
    (s.cpuWrite a d).withoutInstrumentation = s.withoutInstrumentation.cpuWrite a d := by
  unfold State.cpuWrite
  rw [State.withoutInstrumentation_cfg]
  cases resolveCpu s.cfg a with
  | none => exact s.withoutInstrumentation_emit rfl
  | some l => exact s.withoutInstrumentation_progWrite .cpu a l d

theorem State.withoutInstrumentation_cpuOp (op : CpuOp) :
    (s.cpuOp op).withoutInstrumentation = s.withoutInstrumentation.cpuOp op := by
  cases op with
  | read a => exact s.withoutInstrumentation_cpuReadOp a
  | write a d => exact s.withoutInstrumentation_cpuWrite a d

theorem State.withoutInstrumentation_cpuOps (ops : List CpuOp) :
    (ops.foldl State.cpuOp s).withoutInstrumentation =
      ops.foldl State.cpuOp s.withoutInstrumentation := by
  induction ops generalizing s with
  | nil => rfl
  | cons op ops ih => rw [List.foldl_cons, ih, State.withoutInstrumentation_cpuOp, List.foldl_cons]

theorem State.withoutInstrumentation_setView (p : Proc) (v : Option ExecView) :
    (s.setView p v).withoutInstrumentation = s.withoutInstrumentation.setView p v := by
  cases v <;> cases p <;> rfl

theorem State.withoutInstrumentation_storeBytes (st : Store) (off : Nat) (bs : List Byte) :
    (s.storeBytes st off bs).withoutInstrumentation =
      s.withoutInstrumentation.storeBytes st off bs := by
  induction bs generalizing s off with
  | nil => rfl
  | cons b bs ih => exact ih _ _

theorem State.withoutInstrumentation_setRomLen (r : BitVec 3) (m : Nat) :
    (s.setRomLen r m).withoutInstrumentation = s.withoutInstrumentation.setRomLen r m := by
  unfold State.setRomLen
  cases regionProc r with
  | none => rfl
  | some p => cases p <;> rfl

theorem State.withoutInstrumentation_loadRom (r : BitVec 3) (st : Store) (m : Nat) :
    (s.loadRom r st m).withoutInstrumentation = s.withoutInstrumentation.loadRom r st m := by
  have hcopied : (((s.storeBytes st 0 (s.imageBytes m)).emit (.loadReport r m)).setRomLen r
        m).withoutInstrumentation =
      ((s.withoutInstrumentation.storeBytes st 0 (s.imageBytes m)).emit (.loadReport r m)).setRomLen
        r m := by
    rw [State.withoutInstrumentation_setRomLen, State.withoutInstrumentation_emit _ rfl,
      State.withoutInstrumentation_storeBytes]
  exact (apply_ite State.withoutInstrumentation _ _ _).trans (ite_congr rfl
    (fun _ => congrArg (fun t : State => { t with freeCount := s.freeCount + 1 }) hcopied)
    fun _ => hcopied)

/-! ### The instrumentation -/

theorem State.withoutInstrumentation_recordPc (p : Proc) :
    (s.recordPc p).withoutInstrumentation = s.withoutInstrumentation :=
  s.withoutInstrumentation_setProc_rings p _ rfl

theorem State.withoutInstrumentation_pushShadow (p : Proc) (e : ShadowEntry) :
    (s.pushShadow p e).withoutInstrumentation = s.withoutInstrumentation :=
  s.withoutInstrumentation_setProc_rings p _ rfl

theorem State.withoutInstrumentation_popShadow (p : Proc) :
    (s.popShadow p).withoutInstrumentation = s.withoutInstrumentation :=
  s.withoutInstrumentation_setProc_rings p _ rfl

theorem State.stackTop_withoutInstrumentation (p : Proc) :
    s.withoutInstrumentation.stackTop p =
      ((s.stackTop p).1, (s.stackTop p).2.withoutInstrumentation) := by
  simp only [State.stackTop, State.withoutInstrumentation_proc, ProcState.withoutRings,
    State.read_withoutInstrumentation]

theorem State.opcodePair_withoutInstrumentation (p : Proc) :
    s.withoutInstrumentation.opcodePair p =
      ((s.opcodePair p).1, (s.opcodePair p).2.withoutInstrumentation) := by
  simp only [State.opcodePair, State.withoutInstrumentation_proc, ProcState.withoutRings,
    State.read_withoutInstrumentation]

theorem State.withoutInstrumentation_observeReturn (p : Proc) :
    (s.observeReturn p).withoutInstrumentation = s.withoutInstrumentation.observeReturn p := by
  simp only [State.observeReturn, State.stackTop_withoutInstrumentation,
    State.withoutInstrumentation_proc, ProcState.withoutRings, State.withoutInstrumentation_emitAll]
  split <;> rfl

/-- Of an observed opcode only the check of class RETI shows. -/
def State.observedCheck (s : State) (p : Proc) : OpClass → State
  | .reti => s.observeReturn p
  | .push | .pop | .other => s

theorem State.withoutInstrumentation_observeClass (p : Proc) (k : OpClass) :
    (s.observeClass p k).withoutInstrumentation = s.withoutInstrumentation.observedCheck p k := by
  cases k with
  | push =>
    exact (State.withoutInstrumentation_pushShadow _ p _).trans
      ((State.withoutInstrumentation_pushShadow _ p _).trans (s.withoutInstrumentation_recordPc p))
  | pop =>
    exact (State.withoutInstrumentation_popShadow _ p).trans
      ((State.withoutInstrumentation_popShadow _ p).trans (s.withoutInstrumentation_recordPc p))
  | reti =>
    exact (State.withoutInstrumentation_observeReturn _ p).trans
      (congrArg (State.observeReturn · p) (s.withoutInstrumentation_recordPc p))
  | other => exact s.withoutInstrumentation_recordPc p

/-- OBSERVE without what it records: the check of the opcode it finds. -/
def State.observedPairCheck (s : State) (p : Proc) : State :=
  (s.opcodePair p).2.observedCheck p (opClass (s.opcodePair p).1.1 (s.opcodePair p).1.2)

theorem State.withoutInstrumentation_observe (p : Proc) :
    (s.observe p).withoutInstrumentation = s.withoutInstrumentation.observedPairCheck p := by
  rw [State.observedPairCheck, State.opcodePair_withoutInstrumentation, State.observe,
    State.withoutInstrumentation_observeClass]

theorem State.traceLines_filter (p : Proc) :
    (s.traceLines p).filter (fun e => !e.isTraceLine) = [] := by
  refine List.filter_eq_nil_iff.2 fun e he => ?_
  obtain ⟨g, -, rfl⟩ := List.mem_map.1 he
  exact Bool.false_ne_true

theorem State.withoutInstrumentation_traceDump (p : Proc) :
    (s.traceDump p).withoutInstrumentation = s.withoutInstrumentation := by
  rw [State.traceDump, State.withoutInstrumentation_emitAll, State.traceLines_filter]
  exact congrArg (fun es => { s.withoutInstrumentation with out := es }) (List.append_nil _)

/-- Of the fatal the two trace dumps alone are hidden. -/
theorem State.withoutInstrumentation_raiseFatal (code : FatalCause) (p : Proc) (sp : Addr) :
    (s.raiseFatal code p sp).withoutInstrumentation =
      { s.withoutInstrumentation with
        halted := true
        haltCause := if s.halted then s.haltCause else code.code
        out := s.withoutInstrumentation.out ++
          [.fatal code p sp, s.regDumpOf .cpu, s.regDumpOf .ppu] } := by
  rw [State.raiseFatal_eq]
  simp only [State.withoutInstrumentation, List.filter_append, State.traceLines_filter,
    List.append_nil]
  rfl

theorem State.withoutInstrumentation_spCheck (p : Proc) :
    (s.spCheck p).withoutInstrumentation =
      (s.withoutInstrumentation.spCheck p).withoutInstrumentation := by
  have hview : (s.withoutInstrumentation.proc p).view = (s.proc p).view := by cases p <;> rfl
  simp only [State.spCheck, hview, State.withoutInstrumentation_cfg]
  split
  · rw [State.withoutInstrumentation_raiseFatal, State.withoutInstrumentation_raiseFatal,
      State.withoutInstrumentation_idem]
    rfl
  · exact s.withoutInstrumentation_idem.symm

end Fields

/-! ### The sub-steps of a tick -/

theorem next_outOfBand : OutOfBand .next := fun _ _ hs => hs

theorem observeClass_outOfBand (p : Proc) (k : OpClass) :
    OutOfBand fun s => .next (s.observeClass p k) :=
  .of_factors (g' := (State.observedCheck · p k)) fun s => s.withoutInstrumentation_observeClass p k

theorem observe_outOfBand (p : Proc) : OutOfBand fun s => .next (s.observe p) :=
  .of_factors (g' := (State.observedPairCheck · p)) fun s => s.withoutInstrumentation_observe p

theorem spCheck_outOfBand (p : Proc) : OutOfBand fun s => .next (s.spCheck p) :=
  .of_erased fun s => s.withoutInstrumentation_spCheck p

theorem cpuStep_outOfBand : OutOfBand cpuStep :=
  .of_factors (g' := fun s =>
    (s.env.cpuOps.foldl State.cpuOp (s.call (.step .cpu))).setView .cpu s.env.cpuView) fun s => by
      rw [State.withoutInstrumentation_setView, State.withoutInstrumentation_cpuOps]
      rfl

theorem renderPass_outOfBand : OutOfBand renderPass :=
  .of_erased fun s => by
    simp only [renderPass, State.withoutInstrumentation_cfg, State.withoutInstrumentation_ramEpoch,
      State.withoutInstrumentation_mem]
    cases renderSlots s.cfg s.ramEpoch (List.range s.cfg.slots) s.mem with
    | none => rfl
    | some m =>
      exact congrArg (fun t : State => { t with mem := m }) s.withoutInstrumentation_idem.symm

theorem ppuOp_outOfBand (op : PpuOp) : OutOfBand (ppuOp op) := by
  cases op with
  | read a => exact .of_factors (g' := (State.ppuReadOp · a)) fun _ => rfl
  | write a d => 
    exact .of_factors (g' := (State.ppuWrite · a d)) fun s =>
      s.withoutInstrumentation_progWrite .ppu a _ d
  | render => exact renderPass_outOfBand

theorem ppuOps_outOfBand (ops : List PpuOp) : OutOfBand (ppuOps ops) := by
  induction ops with
  | nil => exact next_outOfBand
  | cons op ops ih => exact (ppuOp_outOfBand op).andThen ih

theorem ppuStep_outOfBand : OutOfBand ppuStep := by
  intro s s' hs
  have henv : s.env = s'.env := (congrArg State.env hs :)
  have hview : OutOfBand fun t => .next (t.setView .ppu s'.env.ppuView) :=
    .of_factors (g' := (State.setView · .ppu s'.env.ppuView)) fun t => t.withoutInstrumentation_setView .ppu _
  have hcall : (s.call (.step .ppu)).withoutInstrumentation =
      (s'.call (.step .ppu)).withoutInstrumentation := (congrArg (State.call · (.step .ppu)) hs :)
  simp only [ppuStep, henv]
  exact (ppuOps_outOfBand _).andThen hview _ _ hcall

/-- A beam-step reads the beam and the framebuffer. -/
theorem beamStep_outOfBand : OutOfBand beamStep :=
  .of_erased fun s => by
    cases hb : s.beamOk with
    | false =>
      rw [beamStep_fault hb, beamStep_fault (s := s.withoutInstrumentation) hb]
      rfl
    | true =>
      obtain ⟨t, ht⟩ := beamStep_next hb
      rw [beamStep_transport ht rfl rfl, beamStep_transport (x := s.withoutInstrumentation) ht rfl rfl]
      exact congrArg (State.withBeam · t.sect t.hCounter t.vCounter)
        (s.withoutInstrumentation_emitAll_erased (pixelEvents s s)).symm

/-- The edge check reads the section, the one before, the line and the wait. -/
theorem edgeCheck_outOfBand : OutOfBand edgeCheck :=
  .of_erased fun s => by
    by_cases hs : s.sect = .none
    · by_cases hp : s.sect = s.prevSection
      · rw [edgeCheck, if_pos hp, edgeCheck, if_pos (by exact hp)]
        exact s.withoutInstrumentation_idem.symm
      · rw [edgeCheck, if_neg hp, if_pos hs, edgeCheck, if_neg (by exact hp), if_pos (by exact hs)]
        rfl
    · rw [edgeCheck_eq hs, edgeCheck_transport (x := s.withoutInstrumentation) hs rfl rfl rfl rfl]
      exact congrArg (fun t : State => { t with
        prevSection := s.sect
        waitTarget := if s.prevSection ≠ s.sect ∧ s.waitTarget = s.sect then .none else s.waitTarget })
        (s.withoutInstrumentation_emitAll_erased s.edgeLog).symm

theorem runSubsteps_outOfBand {fs : List (State → Result)} (h : ∀ f ∈ fs, OutOfBand f) :
    OutOfBand (runSubsteps fs) := by
  induction fs with
  | nil => exact next_outOfBand
  | cons f fs ih =>
    obtain ⟨hf, hfs⟩ := List.forall_mem_cons.1 h
    exact hf.andThen (ih hfs)

theorem tickSubsteps_outOfBand : ∀ f ∈ tickSubsteps, OutOfBand f := by
  simp only [tickSubsteps, List.forall_mem_cons]
  exact ⟨observe_outOfBand .cpu, cpuStep_outOfBand, observe_outOfBand .ppu, ppuStep_outOfBand,
    beamStep_outOfBand, beamStep_outOfBand, edgeCheck_outOfBand, spCheck_outOfBand .cpu,
    spCheck_outOfBand .ppu, nofun⟩

/-! ### Every instruction -/

theorem execTick_outOfBand : OutOfBand execTick := by
  intro s s' hs
  have hhalted : s.halted = s'.halted := (congrArg State.halted hs :)
  unfold execTick
  rw [hhalted]
  split
  · rfl
  · exact runSubsteps_outOfBand tickSubsteps_outOfBand s s' hs

theorem execWaitset_outOfBand (sec : BeamSection) : OutOfBand (execWaitset sec) := by
  intro s s' hs
  unfold execWaitset
  split
  · rfl
  · exact congrArg (fun t : State => { t with waitTarget := sec }) hs

theorem execLoadrom_outOfBand (r : BitVec 3) (n : BitVec 16) : OutOfBand (execLoadrom r n) := by
  intro s s' hs
  have hcfg : s.cfg = s'.cfg := (congrArg State.cfg hs :)
  unfold execLoadrom
  rw [hcfg]
  cases regionStore s'.cfg r with
  | none => rfl
  | some st =>
    exact OutOfBand.of_factors (g' := (State.loadRom · r st _))
      (fun t => t.withoutInstrumentation_loadRom r st _) s s' hs

theorem exec_outOfBand (i : Instr) : OutOfBand (exec i) := by
  cases i with
  | reset => exact .of_factors (g' := State.resetBlock) fun _ => rfl
  | tick => exact execTick_outOfBand
  | bstep => exact beamStep_outOfBand
  | edgechk => exact edgeCheck_outOfBand
  | waitset sec => exact execWaitset_outOfBand sec
  | resume => exact .of_factors (g' := fun t => { t with waitTarget := .none }) fun _ => rfl
  | observe p => exact observe_outOfBand p
  | spchk p => exact spCheck_outOfBand p
  | tracedump p => exact .of_factors (g' := id) fun s => s.withoutInstrumentation_traceDump p
  | render => exact renderPass_outOfBand
  | prdP a | prdE a => exact ppuOp_outOfBand (.read a)
  | pwrP a d => exact ppuOp_outOfBand (.write a d)
  | pwrE a d => exact .of_factors (g' := (State.ppuPoke · a d)) fun _ => rfl
  | crd a => exact .of_factors (g' := (State.cpuReadOp · a)) fun s => s.withoutInstrumentation_cpuReadOp a
  | cwr a d =>
    exact .of_factors (g' := (State.cpuWrite · a d)) fun s => s.withoutInstrumentation_cpuWrite a d
  | loadrom r n => exact execLoadrom_outOfBand r n
  | z80PushQq p _ | z80PushIx p | z80PushIy p => exact observeClass_outOfBand p .push
  | z80PopQq p _ | z80PopIx p | z80PopIy p => exact observeClass_outOfBand p .pop
  | z80Reti p | z80Retn p => exact observeClass_outOfBand p .reti

/-- Settles O60: every instruction computes what is left of its outcome from what is left of the state. -/
theorem instrumentationIsOutOfBand : Obligations.InstrumentationIsOutOfBand := exec_outOfBand

end Sys2Proof.Machine
end

section
/-! OBSERVE and the inspected opcodes: O40 to O44. A read of an address that resolves leaves the state, the check of class RETI as one equation, and OBSERVE as the class of the pair it finds (`44_instrumentation.md` R260 to R268). -/

namespace Sys2Proof.Machine

/-! ### The reads of OBSERVE -/

theorem State.read_mapped {s : State} {p : Proc} {a : Addr} (h : mapped s.cfg p a = true) :
    (s.read p a).2 = s := by
  cases p with
  | ppu => rfl
  | cpu =>
    obtain ⟨l, hl⟩ := Option.isSome_iff_exists.1 h
    simp only [State.read, State.cpuRead, hl]

theorem State.opcodePair_mapped {s : State} {p : Proc}
    (h0 : mapped s.cfg p (s.proc p).view.pc = true)
    (h1 : mapped s.cfg p ((s.proc p).view.pc + 1) = true) :
    s.opcodePair p =
      (((s.read p (s.proc p).view.pc).1, (s.read p ((s.proc p).view.pc + 1)).1), s) := by
  simp only [State.opcodePair, State.read_mapped h0, State.read_mapped h1]

theorem State.stackTop_mapped {s : State} {p : Proc}
    (hlo : mapped s.cfg p (s.proc p).view.sp = true)
    (hhi : mapped s.cfg p ((s.proc p).view.sp + 1) = true) :
    s.stackTop p =
      ((s.read p ((s.proc p).view.sp + 1)).1 ++ (s.read p (s.proc p).view.sp).1, s) := by
  simp only [State.stackTop, State.read_mapped hhi, State.read_mapped hlo]

/-- What the trace holds does not change what a read of the stack answers. -/
theorem State.stackTop_recordPc (s : State) (p : Proc) :
    ((s.recordPc p).stackTop p).1 = (s.stackTop p).1 ∧
      ((s.recordPc p).stackTop p).2.freeCount = (s.stackTop p).2.freeCount := by
  have h := (State.stackTop_withoutInstrumentation (s.recordPc p) p).symm
  rw [State.withoutInstrumentation_recordPc, State.stackTop_withoutInstrumentation] at h
  obtain ⟨hvalue, hstate⟩ := Prod.mk.inj h
  exact ⟨hvalue, (congrArg State.freeCount hstate :)⟩

/-! ### The classes -/

/-- `s` with the PC of `p` traced, `n` free values drawn, and the return address `ra` checked against the known code-ROM length (`44_instrumentation.md` R266). -/
def State.returnChecked (s : State) (p : Proc) (ra : Addr) (n : Nat) : State :=
  { s.setProc p { s.proc p with
      trace := dropOldest s.cfg.traceCap ((s.proc p).trace ++ [(s.proc p).view.pc]) } with
    freeCount := n
    out := s.out ++
      if (s.proc p).codeRomLen.toNat ≤ ra.toNat then
        [.diag .suspiciousInterruptReturn (.interruptReturn p (s.proc p).view.pc ra)]
      else [] }

theorem State.observeClass_reti (s : State) (p : Proc) :
    s.observeClass p .reti = s.returnChecked p (s.stackTop p).1 (s.stackTop p).2.freeCount := by
  obtain ⟨hra, hcount⟩ := s.stackTop_recordPc p
  change (s.recordPc p).observeReturn p = _
  rw [State.observeReturn, State.stackTop_state, hra, hcount]
  cases p <;> rfl

theorem State.observeClass_reti_mapped {s : State} {p : Proc}
    (hlo : mapped s.cfg p (s.proc p).view.sp = true)
    (hhi : mapped s.cfg p ((s.proc p).view.sp + 1) = true) :
    s.observeClass p .reti = s.returnChecked p
      ((s.read p ((s.proc p).view.sp + 1)).1 ++ (s.read p (s.proc p).view.sp).1) s.freeCount := by
  rw [State.observeClass_reti, State.stackTop_mapped hlo hhi]

/-! ### OBSERVE -/

theorem exec_observe (p : Proc) (s : State) :
    exec (.observe p) s = .next ((s.opcodePair p).2.observeClass p
      (opClass (s.opcodePair p).1.1 (s.opcodePair p).1.2)) := rfl

theorem exec_observe_mapped {s : State} {p : Proc} {k : OpClass}
    (h0 : mapped s.cfg p (s.proc p).view.pc = true)
    (h1 : mapped s.cfg p ((s.proc p).view.pc + 1) = true)
    (hk : opClass (s.read p (s.proc p).view.pc).1 (s.read p ((s.proc p).view.pc + 1)).1 = k) :
    exec (.observe p) s = .next (s.observeClass p k) := by
  rw [exec_observe, State.opcodePair_mapped h0 h1, hk]

/-- Settles O40: OBSERVE is the response to the class it reads, and each class has its equation. -/
theorem observeResultByClass : Obligations.ObserveResultByClass := by
  intro p s x pc sp byte trace ra h0 h1
  refine ⟨fun hpush => ?_, fun hpop => ?_, fun hreti hlo hhi => ?_, fun hother => ?_⟩
  · rw [exec_observe_mapped h0 h1 hpush, State.observeClass_push]
  · rw [exec_observe_mapped h0 h1 hpop, State.observeClass_pop]
  · rw [exec_observe_mapped h0 h1 hreti, State.observeClass_reti_mapped hlo hhi]
    cases p <;> rfl
  · rw [exec_observe_mapped h0 h1 hother, State.observeClass_other]

/-- Settles O41: of the parts OBSERVE may change, the trace is known and the anomaly is at most one. -/
theorem observeCompletesWithFrame : Obligations.ObserveCompletesWithFrame := by
  intro p s
  obtain ⟨sh, n, es, h, -, hes⟩ := s.observe_state p
  refine ⟨_, congrArg Host.Outcome.next h, ?_, ?_, ?_, ?_⟩
  · cases p <;> rfl
  · cases p <;> rfl
  · cases p <;> rfl
  · rcases hes with rfl | ⟨ra, rfl⟩
    · exact .inl (List.append_nil _)
    · exact .inr ⟨ra, rfl⟩

/-- Settles O44: a pair with a row runs as its class, and a pair without one is of class OTHER. -/
theorem observeRunsTheOpcodeFound : Obligations.ObserveRunsTheOpcodeFound := by
  intro p s f
  refine ⟨fun i hi => ?_, fun e he => ?_⟩
  · rw [exec_observe, exec_of_decodeSniff hi]
  · rw [exec_observe, opClass_of_decodeSniff_error he]
    rfl

/-! ### The rows as instructions -/

/-- Settles O43: both rows are the response to class RETI. -/
theorem returnOpcodesCheckAddress : Obligations.ReturnOpcodesCheckAddress := by
  intro p s x sp checked
  have hreti (ra : Addr) (n : Nat) (h : s.observeClass p .reti = s.returnChecked p ra n) :
      exec (.z80Reti p) s = .next (checked ra n) ∧ exec (.z80Retn p) s = .next (checked ra n) :=
    ⟨congrArg Host.Outcome.next h, congrArg Host.Outcome.next h⟩
  exact ⟨fun hlo hhi => hreti _ _ (State.observeClass_reti_mapped hlo hhi),
    _, _, hreti _ _ (s.observeClass_reti p)⟩

theorem dropLast_dropLast {α : Type} (xs : List α) :
    xs.dropLast.dropLast = xs.take (xs.length - 2) := by
  rw [List.dropLast_eq_take, List.dropLast_eq_take, List.take_take, List.length_take]
  congr 1
  omega

/-- Settles O42: the rows of a class are the response to that class. -/
theorem pushAndPopOpcodes : Obligations.PushAndPopOpcodes := by
  intro p qq s x pc trace pushed popped
  have hpush : Host.Outcome.next (s.observeClass p .push) = (.next pushed : Result) :=
    congrArg _ (s.observeClass_push p)
  have hpop : Host.Outcome.next (s.observeClass p .pop) = (.next popped : Result) := by
    rw [State.observeClass_pop, dropLast_dropLast]
  exact ⟨hpush, hpush, hpush, hpop, hpop, hpop⟩

end Sys2Proof.Machine
end

section
/-! The depth of the shadow stack: O45. What one observed instruction does to the depth where the stack neither overflows nor runs short, then any number of them (`44_instrumentation.md` R269). -/

namespace Sys2Proof.Machine

/-! ### One observed instruction -/

section Depth

variable {s : State} {p : Proc}

theorem dropOldest_of_length_le {α : Type} {cap : Nat} {xs : List α} (h : xs.length ≤ cap) :
    dropOldest cap xs = xs := if_neg (Nat.not_lt.2 h)

@[simp] theorem State.observeClass_cfg (s : State) (p : Proc) (k : OpClass) :
    (s.observeClass p k).cfg = s.cfg := by
  obtain ⟨sh, n, es, h, -, -⟩ := s.observeClass_state p k
  rw [h]
  exact s.setProc_cfg p _

theorem depthEntries_push (h : (s.proc p).depthEntries + 2 ≤ s.cfg.shadowCap) :
    ((s.observeClass p .push).proc p).depthEntries = (s.proc p).depthEntries + 2 := by
  unfold ProcState.depthEntries at h ⊢
  have hroom (e : ShadowEntry) : dropOldest s.cfg.shadowCap ((s.proc p).shadow ++ [e]) =
      (s.proc p).shadow ++ [e] :=
    dropOldest_of_length_le (by rw [List.length_append, List.length_singleton]; omega)
  rw [State.observeClass_push, State.proc_setProc_self, hroom, dropOldest_of_length_le] <;>
    simp only [List.length_append, List.length_singleton]
  omega

theorem depthEntries_pop :
    ((s.observeClass p .pop).proc p).depthEntries = (s.proc p).depthEntries - 2 := by
  rw [State.observeClass_pop, State.proc_setProc_self, ProcState.depthEntries, dropLast_dropLast]
  simp [ProcState.depthEntries]

theorem depthEntries_reti :
    ((s.observeClass p .reti).proc p).depthEntries = (s.proc p).depthEntries := by
  rw [State.observeClass_reti]
  cases p <;> rfl

theorem depthEntries_other :
    ((s.observeClass p .other).proc p).depthEntries = (s.proc p).depthEntries := by
  rw [State.observeClass_other, State.proc_setProc_self]
  rfl

theorem depthEntries_setView (v : Option ExecView) :
    ((s.setView p v).proc p).depthEntries = (s.proc p).depthEntries := by
  rw [State.setView_eq, State.proc_setProc_self]
  rfl

end Depth

/-! ### Any number of them -/

@[simp] theorem observedCount_nil (k : OpClass) : observedCount k [] = 0 := rfl

theorem observedCount_cons (k : OpClass) (x : ExecView × OpClass) (ks : List (ExecView × OpClass)) :
    observedCount k (x :: ks) = observedCount k ks + if x.2 = k then 1 else 0 := by
  unfold observedCount
  rw [List.filter_cons]
  simp only [decide_eq_true_eq]
  split <;> rfl

/-- From `d` pushes not yet popped, `ks` pops too much at no point and overflows at none (`44_instrumentation.md` R269). -/
def DepthFits (cap d : Nat) (ks : List (ExecView × OpClass)) : Prop :=
  ∀ n, observedCount .pop (ks.take n) ≤ d + observedCount .push (ks.take n) ∧
    2 * (d + observedCount .push (ks.take n) - observedCount .pop (ks.take n)) ≤ cap

theorem DepthFits.cons {cap d d' : Nat} {x : ExecView × OpClass} {ks : List (ExecView × OpClass)}
    (h : DepthFits cap d (x :: ks))
    (hd : d' + (if x.2 = .pop then 1 else 0) = d + if x.2 = .push then 1 else 0) :
    DepthFits cap d' ks := by
  intro n
  have hn := h (n + 1)
  simp only [List.take_succ_cons, observedCount_cons] at hn
  omega

/-- The first instruction of a sequence that fits: it has room to push and something to pop. -/
theorem DepthFits.head {cap d : Nat} {x : ExecView × OpClass} {ks : List (ExecView × OpClass)}
    (h : DepthFits cap d (x :: ks)) :
    (x.2 = .push → 2 * d + 2 ≤ cap) ∧ (x.2 = .pop → 1 ≤ d) := by
  have hone := h 1
  simp only [List.take_succ_cons, List.take_zero, observedCount_cons, observedCount_nil] at hone
  refine ⟨fun hx => ?_, fun hx => ?_⟩
  · simp only [hx, reduceCtorEq, if_true, if_false] at hone
    omega
  · simp only [hx, reduceCtorEq, if_true, if_false] at hone
    omega

/-- The depth after one instruction of a sequence that fits. -/
theorem DepthFits.step {s : State} {p : Proc} {d : Nat} {x : ExecView × OpClass}
    {ks : List (ExecView × OpClass)} (hdepth : (s.proc p).depthEntries = 2 * d)
    (h : DepthFits s.cfg.shadowCap d (x :: ks)) :
    ∃ d', d' + (if x.2 = .pop then 1 else 0) = d + (if x.2 = .push then 1 else 0) ∧
      ((s.observeClass p x.2).proc p).depthEntries = 2 * d' := by
  obtain ⟨hroom, hsome⟩ := h.head
  cases hx : x.2 with
  | push =>
    have hfree := hroom hx
    refine ⟨d + 1, rfl, ?_⟩
    rw [depthEntries_push (by omega)]
    omega
  | pop =>
    refine ⟨d - 1, Nat.sub_add_cancel (hsome hx), ?_⟩
    rw [depthEntries_pop]
    omega
  | reti => exact ⟨d, rfl, depthEntries_reti.trans hdepth⟩
  | other => exact ⟨d, rfl, depthEntries_other.trans hdepth⟩

theorem depthEntries_observeMany {p : Proc} {ks : List (ExecView × OpClass)} {s : State} {d : Nat}
    (hdepth : (s.proc p).depthEntries = 2 * d) (h : DepthFits s.cfg.shadowCap d ks) :
    ((observeMany p ks s).proc p).depthEntries =
      2 * (d + observedCount .push ks - observedCount .pop ks) := by
  induction ks generalizing s d with
  | nil => simpa [observeMany] using hdepth
  | cons x ks ih =>
    have hcfg : (s.setView p (some x.1)).cfg = s.cfg := by rw [State.setView_eq, State.setProc_cfg]
    obtain ⟨d', hd', hstep⟩ := DepthFits.step (s := s.setView p (some x.1)) (x := x)
      ((depthEntries_setView _).trans hdepth) (by rwa [hcfg])
    have hrest := ih hstep (by rw [State.observeClass_cfg, hcfg]; exact h.cons hd')
    rw [observeMany, hrest, observedCount_cons, observedCount_cons]
    omega

/-- Settles O45: two entries for every push not yet popped, from an empty stack on. -/
theorem shadowDepthCountsPushesMinusPops : Obligations.ShadowDepthCountsPushesMinusPops := by
  intro p ks s hempty hfits x
  have hdepth : x.depthEntries = 2 * (observedCount .push ks - observedCount .pop ks) := by
    have h := depthEntries_observeMany (p := p) (ks := ks) (s := s) (d := 0)
      (congrArg List.length hempty) (fun n => by simpa using hfits n)
    rwa [Nat.zero_add] at h
  exact ⟨hdepth, by rw [ProcState.depthLogical, hdepth, Nat.mul_div_cancel_left _ Nat.two_pos]⟩

end Sys2Proof.Machine
end

section
/-! The stack guard and the trace dump: O46 and O47. The stack guard as its two cases (`44_instrumentation.md` R270), and the runs of a list by its first element (R275). -/

namespace Sys2Proof.Machine

/-! ### The stack guard -/

/-- Settles O46: of the two cases of the guard, the stack pointer decides which one it is. -/
theorem spchkGuardsTheMark : Obligations.SpchkGuardsTheMark := by
  intro p s sp
  rcases s.spCheck_cases p with ⟨hsp, h⟩ | ⟨hsp, h⟩
  · exact ⟨fun _ => congrArg Host.Outcome.next h, fun hlow => absurd hlow (Nat.not_lt.2 hsp)⟩
  · refine ⟨fun hhigh => absurd hsp (Nat.not_lt.2 hhigh), fun _ => congrArg Host.Outcome.next ?_⟩
    rw [h, State.raiseFatal_eq]
    rfl

/-! ### Runs -/

/-- One more element in front: it opens the first run, or lengthens it. -/
theorem runs_cons (x : Addr) (xs : List Addr) :
    (∃ n rest, runs xs = (x, n) :: rest ∧ runs (x :: xs) = (x, n + 1) :: rest) ∨
    ((∀ g ∈ (runs xs).head?, x ≠ g.1) ∧ runs (x :: xs) = (x, 1) :: runs xs) := by
  rw [runs]
  cases runs xs with
  | nil => exact .inr ⟨nofun, rfl⟩
  | cons g rest =>
    obtain ⟨y, n⟩ := g
    by_cases hxy : x = y
    · subst hxy
      exact .inl ⟨n, rest, rfl, if_pos rfl⟩
    · refine .inr ⟨fun g hg => ?_, if_neg hxy⟩
      cases hg
      exact hxy

/-- The runs spell the list. -/
theorem flatMap_runs (xs : List Addr) :
    ((runs xs).flatMap fun g => List.replicate g.2 g.1) = xs := by
  induction xs with
  | nil => rfl
  | cons x xs ih =>
    rcases runs_cons x xs with ⟨n, rest, htail, h⟩ | ⟨-, h⟩
    · rw [htail, List.flatMap_cons] at ih
      rw [h, List.flatMap_cons, List.replicate_succ, List.cons_append, ih]
    · rw [h, List.flatMap_cons, ih]
      rfl

theorem runs_pos (xs : List Addr) : ∀ g ∈ runs xs, 1 ≤ g.2 := by
  induction xs with
  | nil => nofun
  | cons x xs ih =>
    rcases runs_cons x xs with ⟨n, rest, htail, h⟩ | ⟨-, h⟩
    · rw [htail] at ih
      rw [h]
      exact List.forall_mem_cons.2 ⟨Nat.succ_pos n, (List.forall_mem_cons.1 ih).2⟩
    · rw [h]
      exact List.forall_mem_cons.2 ⟨le_rfl, ih⟩

/-- The runs are maximal: no run has the value of the next. -/
theorem runs_isChain (xs : List Addr) : (runs xs).IsChain fun g g' => g.1 ≠ g'.1 := by
  induction xs with
  | nil => exact .nil
  | cons x xs ih =>
    rcases runs_cons x xs with ⟨n, rest, htail, h⟩ | ⟨hne, h⟩
    · rw [htail, List.isChain_cons] at ih
      rw [h, List.isChain_cons]
      exact ih
    · rw [h, List.isChain_cons]
      exact ⟨hne, ih⟩

/-- Settles O47: the runs spell the reversed trace, hold at least one element, and are maximal. -/
theorem tracedumpCollapsesRuns : Obligations.TracedumpCollapsesRuns := by
  intro p s t
  refine ⟨rfl, flatMap_runs t, runs_pos t, fun j g g' hg hg' => ?_⟩
  obtain ⟨hj, rfl⟩ := List.getElem?_eq_some_iff.1 hg
  obtain ⟨hj', rfl⟩ := List.getElem?_eq_some_iff.1 hg'
  exact List.isChain_iff_getElem.1 (runs_isChain t) j hj'

end Sys2Proof.Machine
end

section
/-! RESET: O49. What the block holds after it (`70_reset_and_hazards.md` R340): one equation for the operation, one for a byte, one for a processor's part. -/

namespace Sys2Proof.Machine

/-- RESET has a next state from every state: the halted one is no exception (`60_exceptions.md` R306). -/
theorem exec_reset (s : State) : exec .reset s = .next s.resetBlock := rfl

/-- After RESET a byte of ROM holds 0 and a byte of RAM holds no value, whatever was there (`10_state.md` R30). -/
theorem State.resetBlock_cell? (s : State) {l : Loc} (hl : l.off < 65536) :
    s.resetBlock.cell? l = if l.store.memClass s.cfg = .rom then some 0 else none :=
  unlisted_key s.cfg hl

/-- After RESET a processor's instrumentation is empty and its known code ROM is the whole region (`10_state.md` R31 to R33). -/
theorem State.resetBlock_proc (s : State) (p : Proc) :
    (s.resetBlock.proc p).shadow = [] ∧ (s.resetBlock.proc p).trace = [] ∧
      (s.resetBlock.proc p).codeRomLen = codeRomLength s.cfg p := by
  cases p <;> exact ⟨rfl, rfl, rfl⟩

/-- Settles O49: every part of the state after RESET is the one the operation installs or leaves. -/
theorem resetInstallsResetValues : Obligations.ResetInstallsResetValues := fun s =>
  ⟨s.resetBlock, exec_reset s,
    rfl, rfl, rfl, rfl, rfl, rfl, rfl,  -- the beam, the wait and the latch
    fun _ hl => s.resetBlock_cell? hl, s.resetBlock_proc,
    rfl, rfl, rfl, rfl, rfl, rfl, rfl, rfl, rfl⟩  -- the accessors, the calls, and what stays (log 24)

end Sys2Proof.Machine
end
